-- ==== Sys2Proof/Word.lean ====
section
/-! DEFINITION. The word types of the voice engine (spec/00_scope.md R8, R9, R11; spec/30_encoding.md R70, R83, R84). -/

namespace Sys2Proof

/-- One byte of a byte-serial transport (20_memory.md R55). -/
abbrev Byte := BitVec 8

/-- A command word, a response's data or a register word (R50, R70, R83). -/
abbrev Word := BitVec 32

/-- An output word (R84). -/
abbrev OutWord := BitVec 64

/-- A channel number, 0 to 15 (R7). -/
abbrev Chan := BitVec 4

/-- A note number or a velocity, 0 to 127 (R8). -/
abbrev Midi7 := BitVec 7

/-- An amplitude level or a length in samples: 24 bits, unsigned (R9). -/
abbrev Level := BitVec 24

end Sys2Proof
end

