-- ==== Sys2Proof/Syntax.lean ====
section
/-! DEFINITION. The thirteen commands of the opcode map (spec/30_encoding.md R78), and the source lines of the assembler with its pseudo-commands (R86, R87). -/

namespace Sys2Proof

/-- One constructor per row of spec/opcode_table.json.
Every operand has the width of its field, so a term of this type always fits its encoding (R72 to R77). -/
inductive Instr where
  /-- R190, format Z. -/
  | nop
  /-- R148, format N. -/
  | noteon (ch : Chan) (note : Midi7) (vel : Midi7)
  /-- R149, format N with velocity bits 0. -/
  | noteoff (ch : Chan) (note : Midi7)
  /-- R150, format V. -/
  | voiceoff (ch : Chan) (rv : BitVec 8)
  /-- R173, format Z. -/
  | releaseall
  /-- R170, format Z. -/
  | cleanup
  /-- R171, format Z. -/
  | advance
  /-- R172, format Z. -/
  | render
  /-- R112, format P. -/
  | seta (ch : Chan) (val : Level)
  /-- R113, format P. -/
  | setd (ch : Chan) (val : Level)
  /-- R114, format P. -/
  | sets (ch : Chan) (val : Level)
  /-- R115, format P. -/
  | setr (ch : Chan) (val : Level)
  /-- R191, format R. -/
  | regread (addr : BitVec 16)
deriving DecidableEq, Repr

/-- One line of assembler source, operands as the numbers written (R86), with the pseudo-commands of R87.
An operand may lie outside its field here; `AsmLine.wellFormed` is the assembler's check. -/
inductive AsmLine where
  | nop
  | noteon (ch note vel : Nat)
  | noteoff (ch note : Nat)
  | voiceoff (ch rv : Nat)
  | releaseall
  | cleanup
  | advance
  | render
  | seta (ch val : Nat)
  | setd (ch val : Nat)
  | sets (ch val : Nat)
  | setr (ch val : Nat)
  | regread (addr : Nat)
  /-- `SETENV ch, a, d, s, r` (R87). -/
  | setenv (ch a d s r : Nat)
  /-- `PANIC` (R87). -/
  | panic
  /-- `MIDI status, d1, d2` (R87). -/
  | midi (status d1 d2 : Nat)
deriving DecidableEq, Repr

end Sys2Proof
end

