-- ==== Sys2Proof/Decode.lean ====
section
/-! DEFINITION. Decoding and encoding of command words (spec/30_encoding.md R70 to R80; spec/20_memory.md R55). -/

namespace Sys2Proof

/-- The opcode field, bits 31:28 (R71). -/
def opOf (w : Word) : BitVec 4 := w.extractLsb' 28 4

/-- `ch` is `w[27:24]` (R77). -/
def chOf (w : Word) : Chan := w.extractLsb' 24 4

/-- `note` is `w[22:16]` (R77). -/
def noteOf (w : Word) : Midi7 := w.extractLsb' 16 7

/-- `vel` is `w[14:8]` (R77). -/
def velOf (w : Word) : Midi7 := w.extractLsb' 8 7

/-- `rv` is `w[7:0]` (R77). -/
def rvOf (w : Word) : BitVec 8 := w.extractLsb' 0 8

/-- `val` is `w[23:0]` (R77). -/
def valOf (w : Word) : Level := w.extractLsb' 0 24

/-- `addr` is `w[15:0]` (R77). -/
def addrOf (w : Word) : BitVec 16 := w.extractLsb' 0 16

/-- A row of the opcode map (R78): its fixed bits and how its operand fields become a command. -/
structure OpcodeRow where
  mnemonic : String
  matchBits : Word
  mask : Word
  build : Word → Instr

/-- A word spells the row's command exactly when `(w AND mask) = match` (R78). -/
def OpcodeRow.fits (r : OpcodeRow) (w : Word) : Bool := (w &&& r.mask) == r.matchBits

/-- The opcode map, row by row (R78). -/
def opcodeTable : List OpcodeRow :=
  [ ⟨"NOP",        0x00000000#32, 0xFFFFFFFF#32, fun _ => .nop⟩,
    ⟨"NOTEON",     0x10000000#32, 0xF08080FF#32, fun w => .noteon (chOf w) (noteOf w) (velOf w)⟩,
    ⟨"NOTEOFF",    0x20000000#32, 0xF080FFFF#32, fun w => .noteoff (chOf w) (noteOf w)⟩,
    ⟨"VOICEOFF",   0x30000000#32, 0xF0FFFF00#32, fun w => .voiceoff (chOf w) (rvOf w)⟩,
    ⟨"RELEASEALL", 0x40000000#32, 0xFFFFFFFF#32, fun _ => .releaseall⟩,
    ⟨"CLEANUP",    0x50000000#32, 0xFFFFFFFF#32, fun _ => .cleanup⟩,
    ⟨"ADVANCE",    0x60000000#32, 0xFFFFFFFF#32, fun _ => .advance⟩,
    ⟨"RENDER",     0x70000000#32, 0xFFFFFFFF#32, fun _ => .render⟩,
    ⟨"SETA",       0x80000000#32, 0xF0000000#32, fun w => .seta (chOf w) (valOf w)⟩,
    ⟨"SETD",       0x90000000#32, 0xF0000000#32, fun w => .setd (chOf w) (valOf w)⟩,
    ⟨"SETS",       0xA0000000#32, 0xF0000000#32, fun w => .sets (chOf w) (valOf w)⟩,
    ⟨"SETR",       0xB0000000#32, 0xF0000000#32, fun w => .setr (chOf w) (valOf w)⟩,
    ⟨"REGREAD",    0xC0000000#32, 0xFFFF0000#32, fun w => .regread (addrOf w)⟩ ]

/-- Why bytes are no command. -/
inductive DecodeError where
  /-- Opcode 0xD, 0xE or 0xF (R79, R80). -/
  | reservedOpcode
  /-- A reserved-zero bit of the opcode's format is 1 (R79). -/
  | reservedBits
  /-- Fewer than four bytes: a byte transport has not brought a whole word yet, so no word is accepted (R56, R70; log 8). -/
  | truncated
deriving DecidableEq, Repr

/-- What a decoder answers: a command, or why the word is undefined. -/
inductive Decoded where
  | instr (i : Instr)
  | undefined (e : DecodeError)
deriving DecidableEq, Repr

/-- `decode(w)` (R79): the row of the opcode map that fits `w`, else undefined.
Total on all 2^32 words. -/
def decodeWord (w : Word) : Decoded :=
  match opcodeTable.find? (fun r => r.fits w) with
  | some r => .instr (r.build w)
  | none => .undefined (if 0xD#4 ≤ opOf w then .reservedOpcode else .reservedBits)

/-- The command a decoder's answer holds, if any. -/
def Decoded.toOption : Decoded → Option Instr
  | .instr i => some i
  | .undefined _ => none

/-- A word of a byte transport, least significant byte first: byte 0 is bits 7:0 (20_memory.md R55). -/
def wordOfBytes (b0 b1 b2 b3 : Byte) : Word := b3 ++ b2 ++ b1 ++ b0

/-- The four bytes of a word, least significant first (20_memory.md R55). -/
def bytesOfWord (w : Word) : List Byte :=
  [w.extractLsb' 0 8, w.extractLsb' 8 8, w.extractLsb' 16 8, w.extractLsb' 24 8]

/-- Decoding of a byte transport's bytes: one command or undefined word of four bytes, and the bytes after it. -/
def decodeBytes : List Byte → Decoded × List Byte
  | b0 :: b1 :: b2 :: b3 :: rest => (decodeWord (wordOfBytes b0 b1 b2 b3), rest)
  | short => (.undefined .truncated, short)

/-- The word whose low `nbits` bits are those of `w`, every bit above them 0. -/
def tableWord (nbits w : Nat) : Word := BitVec.ofNat 32 (w % 2 ^ nbits)

/-- The command this decoder reads from the opcode table's word, laid out as a transport's bytes. -/
def decodeTableWord (nbits w : Nat) : Option Instr :=
  (decodeBytes (bytesOfWord (tableWord nbits w))).1.toOption

/-- The word of a command, field by field (R72 to R76, R78). -/
def encode : Instr → Word
  | .nop => 0x0#4 ++ 0#28
  | .noteon ch note vel => 0x1#4 ++ ch ++ 0#1 ++ note ++ 0#1 ++ vel ++ 0#8
  | .noteoff ch note => 0x2#4 ++ ch ++ 0#1 ++ note ++ 0#16
  | .voiceoff ch rv => 0x3#4 ++ ch ++ 0#16 ++ rv
  | .releaseall => 0x4#4 ++ 0#28
  | .cleanup => 0x5#4 ++ 0#28
  | .advance => 0x6#4 ++ 0#28
  | .render => 0x7#4 ++ 0#28
  | .seta ch val => 0x8#4 ++ ch ++ val
  | .setd ch val => 0x9#4 ++ ch ++ val
  | .sets ch val => 0xA#4 ++ ch ++ val
  | .setr ch val => 0xB#4 ++ ch ++ val
  | .regread addr => 0xC#4 ++ 0#12 ++ addr

/-- The bytes of a command on a byte transport (20_memory.md R55). -/
def encodeBytes (i : Instr) : List Byte := bytesOfWord (encode i)

end Sys2Proof
end

