-- ==== Sys2Proof/Config.lean ====
section
/-! DEFINITION. What is fixed when the engine is built: the size parameters C, P, F and the constants NCH and PEAK (spec/00_scope.md R6, R7, R9). -/

namespace Sys2Proof

/-- The three size parameters (R6).
They are arguments of the model: a state carries the sizes of the engine it is a state of, and no step changes them (log 1). -/
structure Config where
  /-- `C`, the global registry capacity. -/
  C : Nat
  /-- `P`, the per-channel polyphony limit. -/
  P : Nat
  /-- `F`, the number of frames of a render block. -/
  F : Nat
deriving DecidableEq, Repr

/-- The bounds of R6. -/
abbrev Config.valid (g : Config) : Prop :=
  (1 ≤ g.C ∧ g.C ≤ 255) ∧ (1 ≤ g.P ∧ g.P ≤ 255) ∧ (1 ≤ g.F ∧ g.F ≤ 65535)

/-- `NCH`, the number of channels (R7). -/
def NCH : Nat := 16

/-- `PEAK`, full-scale amplitude (R9). -/
def PEAK : Level := 0xFFFFFF#24

/-- The sizes `State.reset` is built with: DESIGN CHOICE, unsafe (log 1).
They are those of the reset table of 95_test_vectors.md §2.7, not a default of the engine: the spec leaves C, P and F open. -/
def Config.ofVectors : Config := { C := 32, P := 3, F := 128 }

end Sys2Proof
end

