-- ==== Sys2Proof/Machine/State.lean ====
section
/-! DEFINITION. The state of the engine as plain data, its reset value, and the reasons a step may stop (spec/10_state.md). -/

namespace Sys2Proof.Machine

/-- The stored phases of an envelope (R25); sustain hold is DECAY with `rem = 0`. -/
inductive Phase where
  | attack
  | decay
  | release
  | done
deriving DecidableEq, Repr

/-- An envelope `V[c][v].env` (R25, R26). -/
structure Envelope where
  /-- The phase. -/
  ph : Phase
  /-- The current output level. -/
  lvl : Level
  /-- The per-sample step of the current ramp. -/
  stp : Level
  /-- The `next()` calls left in the current ramp. -/
  rem : Level
  /-- The level the current ramp ends at. -/
  tgt : Level
deriving DecidableEq, Repr

/-- A voice record `V[c][v]` (R20 to R26). -/
structure Voice where
  note : Midi7
  vel : Midi7
  /-- The registry-slot index; `none` is the spec's −1, inactive (R23). -/
  idx : Option Nat
  /-- The activation sequence number (R24). -/
  seq : BitVec 64
  env : Envelope
deriving DecidableEq, Repr

/-- A voice id `(c, v)` (R13): channel and roster index. -/
structure VoiceId where
  ch : Chan
  rv : Nat
deriving DecidableEq, Repr

/-- The envelope parameters `A[c]`, `D[c]`, `S[c]`, `R[c]` of one channel (R30). -/
structure EnvParams where
  attack : Level
  decay : Level
  sustain : Level
  release : Level
deriving DecidableEq, Repr

/-- The render sequencer (R32).
Its fields `f` and `i` have a meaning in RENDERING only, and exist there only (log 3). -/
inductive Sequencer where
  /-- `mode = IDLE`. -/
  | idle
  /-- `mode = RENDERING`, at registry position `i` of frame `f`. -/
  | rendering (f : BitVec 16) (i : BitVec 8)
deriving DecidableEq, Repr

/-- The response codes (R83); codes 5 to 15 are never produced. -/
inductive RespCode where
  | ok
  | ignored
  | dropped
  | nomatch
  | badarg
deriving DecidableEq, Repr

/-- A response `(code, data)` (R83). -/
structure Response where
  code : RespCode
  data : Word
deriving DecidableEq, Repr

/-- What the outside presents on the engine's pins at one step (R81, R83, R84, R220; log 4). -/
structure PortInput where
  /-- The reset input is asserted. -/
  reset : Bool
  /-- The word on `cmd` while `valid` is 1; `none` while `valid` is 0. -/
  cmd : Option Word
  /-- The sink is ready to accept an output word. -/
  sinkReady : Bool
  /-- The host is ready to take the response. -/
  hostReady : Bool
deriving DecidableEq, Repr

/-- One transfer out of the engine, as the outside saw it (20_memory.md R58). -/
inductive Event where
  | output (w : OutWord)
  | response (r : Response)
deriving DecidableEq, Repr

/-- The state of the engine and of its ports. -/
structure State where
  /-- The sizes the engine was built with (R6, R34; log 1). -/
  cfg : Config
  /-- The voice record file: the rosters of channels 0 to 15 in order, each of P records (R20). -/
  rosters : List (List Voice)
  /-- The activation sequence counter (R27). -/
  seqCtr : BitVec 64
  /-- The registry slots 0 to C−1 (R28). -/
  slots : List (Option VoiceId)
  /-- The number of active slots (R29). -/
  numActive : Nat
  /-- The envelope parameters of channels 0 to 15 (R30). -/
  params : List EnvParams
  /-- The sticky invariant-error bit `ERR` (R33). -/
  err : Bool
  /-- The render sequencer (R32). -/
  sequencer : Sequencer
  /-- Output words emitted and not yet accepted by the sink, oldest first (R84). -/
  outQ : List OutWord
  /-- The response of the command in progress, offered to the host once `outQ` is empty (R58, R83). -/
  resp : Option Response
  /-- The model's own: what the pins show at each coming step (log 4). -/
  inputs : List PortInput
  /-- The model's own: the transfers out of the engine so far, oldest first (log 5). -/
  trace : List Event
deriving DecidableEq, Repr

/-- Reasons to stop with a fault: NONE.
"The engine has no trap, exception or abort mechanism" (60_exceptions.md R200), so nothing raises one (log 10). -/
inductive Fault where
deriving DecidableEq, Repr

/-- Reasons to stop with a refusal. -/
inductive Refusal where
  /-- Raised by `exec` for a command that has no meaning in this model yet: safe, the model only stops early.
  No arm of `exec` raises it: every command of the opcode map has its meaning. -/
  | notModelled (mnemonic : String)
deriving DecidableEq, Repr

/-- An envelope at reset: DONE, every field 0 (R40). -/
def Envelope.reset : Envelope := { ph := .done, lvl := 0#24, stp := 0#24, rem := 0#24, tgt := 0#24 }

/-- A voice record at reset (R40). -/
def Voice.reset : Voice :=
  { note := 0#7, vel := 0#7, idx := none, seq := 0#64, env := Envelope.reset }

/-- The envelope parameters of a channel at reset: A = D = R = 0, S = PEAK (R40). -/
def EnvParams.reset : EnvParams :=
  { attack := 0#24, decay := 0#24, sustain := PEAK, release := 0#24 }

/-- The reset state of an engine built with the sizes `g` (R40, R220), nothing offered to it and nothing yet seen of it. -/
def State.resetWith (g : Config) : State :=
  { cfg := g
    rosters := List.replicate NCH (List.replicate g.P Voice.reset)
    seqCtr := 0#64
    slots := List.replicate g.C none
    numActive := 0
    params := List.replicate NCH EnvParams.reset
    err := false
    sequencer := .idle
    outQ := []
    resp := none
    inputs := []
    trace := [] }

/-- The machine right after reset (R40, R220), at the sizes of `Config.ofVectors` (log 1). -/
def State.reset : State := State.resetWith Config.ofVectors

end Sys2Proof.Machine
end

