-- ==== Sys2Proof/Machine/Ops.lean ====
section
/-! DEFINITION. The named operations over the voice record file, the registry, the parameters and the ports, and the reset event.
There is no exception to take or to return from (spec/60_exceptions.md R204, R205). -/

namespace Sys2Proof.Machine

/-! ### The voice record file (10_state.md R20) -/

/-- `V[c][v]` (R13). Outside the roster there is no record; the reset record is read there (log 7). -/
def State.voice (s : State) (id : VoiceId) : Voice :=
  (s.rosters.getD id.ch.toNat []).getD id.rv Voice.reset

/-- `V[c][v] <- x`; no record outside the roster is made. -/
def State.setVoice (s : State) (id : VoiceId) (x : Voice) : State :=
  { s with rosters := s.rosters.modify id.ch.toNat (fun r => r.set id.rv x) }

/-- `V[c][v].env <- e`. -/
def State.setEnv (s : State) (id : VoiceId) (e : Envelope) : State :=
  s.setVoice id { s.voice id with env := e }

/-- `V[c][v].idx <- k`, with `none` for −1. -/
def State.setIdx (s : State) (id : VoiceId) (k : Option Nat) : State :=
  s.setVoice id { s.voice id with idx := k }

/-- `active(c, v)` (R15). -/
def State.active (s : State) (id : VoiceId) : Bool := (s.voice id).idx.isSome

/-- `bound(c, v, n)` (R15). -/
def State.bound (s : State) (id : VoiceId) (n : Midi7) : Bool :=
  s.active id && (s.voice id).note == n

/-- `isDone(c, v)` (R15, R108, R132). -/
def State.isDone (s : State) (id : VoiceId) : Bool := (s.voice id).env.ph == Phase.done

/-- "the least such v" with `v < P` (R141), if there is one. -/
def State.leastVoice (s : State) (p : Nat → Bool) : Option Nat := (List.range s.cfg.P).find? p

/-! ### The registry (R28, R29) -/

/-- `slot[k]`; there is no slot from C on. -/
def State.slot (s : State) (k : Nat) : Option VoiceId := s.slots.getD k none

/-- `slot[k] <- x`. -/
def State.setSlot (s : State) (k : Nat) (x : Option VoiceId) : State :=
  { s with slots := s.slots.set k x }

/-! ### The envelope parameters (R30) -/

/-- `A[c]`, `D[c]`, `S[c]`, `R[c]`. -/
def State.param (s : State) (ch : Chan) : EnvParams := s.params.getD ch.toNat EnvParams.reset

/-- Writes the parameters of channel `c`. -/
def State.setParam (s : State) (ch : Chan) (p : EnvParams) : State :=
  { s with params := s.params.set ch.toNat p }

/-! ### The activation sequence counter (R27, R146) -/

/-- `bump(c, v)` (R146): adds 1 modulo 2^64 and copies the new value to the voice. -/
def State.bump (s : State) (id : VoiceId) : State :=
  let n := s.seqCtr + 1#64
  { s.setVoice id { s.voice id with seq := n } with seqCtr := n }

/-! ### Ports (R14, R81 to R84) -/

/-- `emit(word)` (R14): appends one word to the output stream. -/
def State.emit (s : State) (w : OutWord) : State := { s with outQ := s.outQ ++ [w] }

/-- `respond(code, data)` (R14): the single response of the current command. -/
def State.respond (s : State) (code : RespCode) (data : Word) : State :=
  { s with resp := some { code := code, data := data } }

/-- The frame-end record FE of frame `f`: `{1, 47'b0, f[15:0]}` (R84). -/
def feWord (f : Nat) : OutWord := 1#1 ++ 0#47 ++ BitVec.ofNat 16 f

/-- The 8-bit form of a slot index, 0xFF for −1 (R23). -/
def idxByte : Option Nat → BitVec 8
  | none => 0xFF#8
  | some k => BitVec.ofNat 8 k

/-- The voice-frame record VF of voice `id` with record `x` and amplitude `amp` (R84, R133). -/
def vfWord (id : VoiceId) (x : Voice) (amp : Level) : OutWord :=
  0#1 ++ 0#3 ++ id.ch ++ BitVec.ofNat 8 id.rv ++ idxByte x.idx ++ 0#1 ++ x.note ++ 0#1 ++ x.vel ++ amp

/-- Bit 63 is the record kind: 1 for FE (R84). -/
def isFE (w : OutWord) : Bool := w.getLsbD 63

/-- Bits 47:40 of a VF record, the slot index (R84). -/
def vfSlot (w : OutWord) : BitVec 8 := w.extractLsb' 40 8

/-- The eight bytes of an output word on a byte transport, least significant first: its low half's four bytes, then its high half's (20_memory.md R55). -/
def bytesOfOutWord (w : OutWord) : List Byte :=
  bytesOfWord (w.extractLsb' 0 32) ++ bytesOfWord (w.extractLsb' 32 32)

/-- The output word of eight bytes of a byte transport, least significant first (20_memory.md R55). -/
def outWordOfBytes (b0 b1 b2 b3 b4 b5 b6 b7 : Byte) : OutWord :=
  wordOfBytes b4 b5 b6 b7 ++ wordOfBytes b0 b1 b2 b3

/-- The bytes of the output words `q` on a byte transport, in the order of the words (20_memory.md R55, R58). -/
def bytesOfOutput (q : List OutWord) : List Byte := q.flatMap bytesOfOutWord

/-- The four bytes of a response's data on a byte transport, least significant first (20_memory.md R55). -/
def Response.dataBytes (r : Response) : List Byte := bytesOfWord r.data

/-- Command port `ready` (R81): no command is in progress, and the sequencer is IDLE (R82). -/
def State.ready (s : State) : Bool :=
  s.outQ.isEmpty && s.resp.isNone && s.sequencer == Sequencer.idle

/-- The registry position the sequencer is at while the word `w` waits for the sink: the slot of a VF record; past the last active slot for an FE record (R32). -/
def waitingAt (w : OutWord) (numActive : Nat) : BitVec 8 :=
  if isFE w then BitVec.ofNat 8 numActive else vfSlot w

/-- The sequencer in frame `f` of a block whose words `q` still wait for the sink: IDLE when none waits (R32, R172). -/
def Sequencer.inBlock (f : BitVec 16) (q : List OutWord) (numActive : Nat) : Sequencer :=
  match q with
  | [] => .idle
  | w :: _ => .rendering f (waitingAt w numActive)

/-- The sequencer after the sink has accepted the word `w`, with the words `q` still waiting: an FE record ends its frame (R32, R172). -/
def Sequencer.afterWord (q : Sequencer) (w : OutWord) (rest : List OutWord) (numActive : Nat) : Sequencer :=
  match q with
  | .idle => .idle
  | .rendering f _ => Sequencer.inBlock (if isFE w then f + 1#16 else f) rest numActive

/-- The sink accepts the word `w`, with the words `rest` still waiting (R84). -/
def State.handWord (s : State) (w : OutWord) (rest : List OutWord) : State :=
  { s with
    outQ := rest
    trace := s.trace ++ [Event.output w]
    sequencer := s.sequencer.afterWord w rest s.numActive }

/-- The host takes the response `r` (R83). -/
def State.handResponse (s : State) (r : Response) : State :=
  { s with resp := none, trace := s.trace ++ [Event.response r] }

/-! ### Reset (70_reset_and_hazards.md R220, R221) -/

/-- Reset is asserted: every piece of the engine's state takes its reset value and the command in progress is abandoned.
What the outside will present and what it has already accepted stay (R221). -/
def State.assertReset (s : State) : State :=
  { State.resetWith s.cfg with inputs := s.inputs, trace := s.trace }

end Sys2Proof.Machine
end

