-- ==== Sys2Proof/Machine/Operands.lean ====
section
/-! DEFINITION. The register read space that REGREAD's operand addresses (spec/20_memory.md R51, R52), and the layouts of response data (spec/30_encoding.md R85). -/

namespace Sys2Proof.Machine

/-! ### Register words (R51) -/

/-- The word of SLOT[k] (R51). -/
def slotWord : Option VoiceId → Word
  | none => 0#32
  | some id => 1#1 ++ 0#19 ++ id.ch ++ BitVec.ofNat 8 id.rv

/-- The phase code of VSTAT (R51): SUSTAIN is DECAY with `rem = 0`. -/
def phaseCode (e : Envelope) : BitVec 3 :=
  match e.ph with
  | .attack => 0#3
  | .decay => if e.rem = 0#24 then 2#3 else 1#3
  | .release => 3#3
  | .done => 4#3

/-- The word of VSTAT (R51). -/
def vstatWord (x : Voice) : Word :=
  BitVec.ofBool x.idx.isSome ++ phaseCode x.env ++ 0#5 ++ x.note ++ 0#1 ++ x.vel ++ idxByte x.idx

/-- The parameter word at offset `j` of its channel's four: ENVA, ENVD, ENVS, ENVR (R51). -/
def paramWord (p : EnvParams) (j : Nat) : Word :=
  match j with
  | 0 => p.attack.setWidth 32
  | 1 => p.decay.setWidth 32
  | 2 => p.sustain.setWidth 32
  | _ => p.release.setWidth 32

/-- The word of a voice record in the bank `b` of the address map: VSTAT at 0x1000 up to VSEQHI at 0x7000 (R51). -/
def voiceWord (x : Voice) (b : Nat) : Word :=
  match b with
  | 1 => vstatWord x
  | 2 => x.env.lvl.setWidth 32
  | 3 => x.env.rem.setWidth 32
  | 4 => x.env.stp.setWidth 32
  | 5 => x.env.tgt.setWidth 32
  | 6 => x.seq.extractLsb' 0 32
  | _ => x.seq.extractLsb' 32 32

/-- The eight words at addresses 0x0000 to 0x0007 (R51). -/
def State.globalWord (s : State) (a : Nat) : Word :=
  match a with
  | 0 => (BitVec.ofBool s.err).setWidth 32
  | 1 => (BitVec.ofNat 8 s.numActive).setWidth 32
  | 2 => (BitVec.ofNat 8 s.cfg.C).setWidth 32
  | 3 => (BitVec.ofNat 8 s.cfg.P).setWidth 32
  | 4 => (BitVec.ofNat 16 s.cfg.F).setWidth 32
  | 5 => PEAK.setWidth 32
  | 6 => s.seqCtr.extractLsb' 0 32
  | _ => s.seqCtr.extractLsb' 32 32

/-- `RegRead(addr)` (R52): the word of a mapped address, `none` for the pair `(false, 0)` of an unmapped one. -/
def State.regRead (s : State) (addr : BitVec 16) : Option Word :=
  let a := addr.toNat
  if a < 0x8 then some (s.globalWord a)
  else if 0x100 ≤ a ∧ a < 0x100 + s.cfg.C then some (slotWord (s.slot (a - 0x100)))
  else if 0x200 ≤ a ∧ a < 0x240 then
    some (paramWord (s.param (BitVec.ofNat 4 ((a - 0x200) / 4))) ((a - 0x200) % 4))
  else if 0x1000 ≤ a ∧ a < 0x8000 ∧ a % 256 < s.cfg.P then
    some (voiceWord (s.voice ⟨BitVec.ofNat 4 (a / 256), a % 256⟩) (a / 4096))
  else none

/-! ### Response codes and data (R83, R85) -/

/-- The number of a response code (R83). -/
def RespCode.bits : RespCode → BitVec 4
  | .ok => 0#4
  | .ignored => 1#4
  | .dropped => 2#4
  | .nomatch => 3#4
  | .badarg => 4#4

/-- The paths of `activate` (R140) that give a voice. -/
inductive Path where
  | free
  | retrig
  | steal
deriving DecidableEq, Repr

/-- The number of a path in NOTEON's response (R85). -/
def pathBits : Path → BitVec 2
  | .free => 0#2
  | .retrig => 1#2
  | .steal => 2#2

/-- `{path[1:0], 14'b0, idx[7:0], v[7:0]}` (R148). -/
def noteonData (p : Path) (idx : Option Nat) (v : Nat) : Word :=
  pathBits p ++ 0#14 ++ idxByte idx ++ BitVec.ofNat 8 v

/-- `{16'b0, idx[7:0], v[7:0]}` (R149, R150). -/
def releasedData (idx : Option Nat) (v : Nat) : Word := 0#16 ++ idxByte idx ++ BitVec.ofNat 8 v

/-- `{16'b0, r[7:0], numActive[7:0]}` (R170, R172). -/
def removedData (removed numActive : Nat) : Word :=
  0#16 ++ BitVec.ofNat 8 removed ++ BitVec.ofNat 8 numActive

/-- `{24'b0, n[7:0]}` (R171, R173). -/
def countData (n : Nat) : Word := 0#24 ++ BitVec.ofNat 8 n

end Sys2Proof.Machine
end

