-- ==== Sys2Proof/Machine/HostAccess.lean ====
section
/-! DEFINITION. The commands NOP and REGREAD, and the outcome of an undefined word (spec/43_host_access.md R190 to R192). -/

namespace Sys2Proof.Machine

/-- `NOP` (R190). -/
def execNop (s : State) : Host.Outcome State Fault Refusal := .next (s.respond .ok 0#32)

/-- `REGREAD addr` (R191). -/
def execRegread (addr : BitVec 16) (s : State) : Host.Outcome State Fault Refusal :=
  .next <|
    match s.regRead addr with
    | some w => s.respond .ok w
    | none => s.respond .badarg 0#32

/-- An undefined word (R192): responds IGNORED and changes nothing. -/
def State.ignoreWord (s : State) : State := s.respond .ignored 0#32

end Sys2Proof.Machine
end

