-- ==== Sys2Proof/Machine/Flags.lean ====
section
/-! DEFINITION. The engine's only status flag, the sticky `ERR` bit, and the invariant check that sets it (spec/10_state.md R33; spec/60_exceptions.md R202). -/

namespace Sys2Proof.Machine

/-- `raise InvariantError(i)` (R14, R202): `ERR <- 1`, and nothing else. -/
def State.raiseInvariantError (s : State) : State := { s with err := true }

/-- `check(i)` (R202) with the voice it finds: the id in `slot[i]` when the slot is not null and that voice's index is `i`; `none` when the check is false. -/
def State.checkedSlot (s : State) (i : Nat) : Option VoiceId :=
  match s.slot i with
  | none => none
  | some id => if (s.voice id).idx = some i then some id else none

end Sys2Proof.Machine
end

