-- ==== Sys2Proof/Machine/Envelope.lean ====
section
/-! DEFINITION. The envelope state machine (spec/40_envelope.md R100 to R108) and the commands SETA, SETD, SETS, SETR (R112 to R116). -/

namespace Sys2Proof.Machine

/-- `|a − b|` (R101). -/
def absDiff (a b : Nat) : Nat := (a - b) + (b - a)

/-- The length of a ramp in samples: `max(N, 1)` (R101). -/
def rampLen (N : Level) : Nat := max N.toNat 1

/-- `enter(e, ph', tgt', N)` (R101): starts a ramp from the level at entry, which it does not change. -/
def Envelope.enter (e : Envelope) (ph : Phase) (tgt : Level) (N : Level) : Envelope :=
  { e with
    ph := ph
    tgt := tgt
    rem := BitVec.ofNat 24 (rampLen N)
    stp := BitVec.ofNat 24 (absDiff tgt.toNat e.lvl.toNat / rampLen N) }

/-- `attack` on an envelope with its channel's parameters (R102). -/
def Envelope.attack (e : Envelope) (p : EnvParams) : Envelope := e.enter .attack PEAK p.attack

/-- `release` on an envelope with its channel's parameters (R103). -/
def Envelope.release (e : Envelope) (p : EnvParams) : Envelope := e.enter .release 0#24 p.release

/-- `next` (R104 to R107) on an envelope with its channel's parameters: the envelope one sample on.
The amplitude it returns is the new `lvl`. -/
def Envelope.next (e : Envelope) (p : EnvParams) : Envelope :=
  match e.ph with
  | .attack =>
    if 1#24 < e.rem then { e with lvl := e.lvl + e.stp, rem := e.rem - 1#24 }
    else { e with lvl := e.tgt }.enter .decay p.sustain p.decay
  | .decay =>
    if 1#24 < e.rem then { e with lvl := e.lvl - e.stp, rem := e.rem - 1#24 }
    else if e.rem = 1#24 then { e with lvl := e.tgt, rem := 0#24 }
    else e
  | .release =>
    if 1#24 < e.rem then { e with lvl := e.lvl - e.stp, rem := e.rem - 1#24 }
    else { ph := .done, lvl := 0#24, stp := 0#24, rem := 0#24, tgt := 0#24 }
  | .done => e

/-- `attack(c, v)` (R102). -/
def State.attack (s : State) (id : VoiceId) : State :=
  s.setEnv id ((s.voice id).env.attack (s.param id.ch))

/-- `release(c, v)` (R103). -/
def State.release (s : State) (id : VoiceId) : State :=
  s.setEnv id ((s.voice id).env.release (s.param id.ch))

/-- `next(c, v)` (R104 to R107): the state after, and the amplitude returned. -/
def State.nextSample (s : State) (id : VoiceId) : State × Level :=
  let e := (s.voice id).env.next (s.param id.ch)
  (s.setEnv id e, e.lvl)

/-- `SETA ch, val` (R112). -/
def execSeta (ch : Chan) (val : Level) (s : State) : Host.Outcome State Fault Refusal :=
  .next ((s.setParam ch { s.param ch with attack := val }).respond .ok 0#32)

/-- `SETD ch, val` (R113). -/
def execSetd (ch : Chan) (val : Level) (s : State) : Host.Outcome State Fault Refusal :=
  .next ((s.setParam ch { s.param ch with decay := val }).respond .ok 0#32)

/-- `SETS ch, val` (R114). -/
def execSets (ch : Chan) (val : Level) (s : State) : Host.Outcome State Fault Refusal :=
  .next ((s.setParam ch { s.param ch with sustain := val }).respond .ok 0#32)

/-- `SETR ch, val` (R115). -/
def execSetr (ch : Chan) (val : Level) (s : State) : Host.Outcome State Fault Refusal :=
  .next ((s.setParam ch { s.param ch with release := val }).respond .ok 0#32)

end Sys2Proof.Machine
end

