-- ==== Sys2Proof/Machine/Voice.lean ====
section
/-! DEFINITION. The voice primitives, the allocation policy, and the commands NOTEON, NOTEOFF, VOICEOFF (spec/41_voice_alloc.md R130 to R150). -/

namespace Sys2Proof.Machine

/-- `noteon(c, v, n, vel)` (R130). -/
def State.noteonVoice (s : State) (id : VoiceId) (n vel : Midi7) : State :=
  (s.setVoice id { s.voice id with note := n, vel := vel }).attack id

/-- `noteoff(c, v)` (R131). -/
def State.noteoffVoice (s : State) (id : VoiceId) : State := s.release id

/-- `nextframe(c, v)` (R133): one sample, and the voice's VF record. -/
def State.nextframe (s : State) (id : VoiceId) : State :=
  let (t, a) := s.nextSample id
  t.emit (vfWord id (t.voice id) a)

/-- Step 1's voice (R141, R142): the least roster voice bound to the note. -/
def State.boundVoice (s : State) (ch : Chan) (n : Midi7) : Option Nat :=
  s.leastVoice fun v => s.bound ⟨ch, v⟩ n

/-- Step 2's voice (R141, R143): the least inactive roster voice. -/
def State.freeVoice (s : State) (ch : Chan) : Option Nat :=
  s.leastVoice fun v => !s.active ⟨ch, v⟩

/-- Step 3's voice (R141, R144, R147): the least roster index among the voices with the least `seq`. -/
def State.oldestVoice (s : State) (ch : Chan) : Option Nat :=
  s.leastVoice fun v =>
    (List.range s.cfg.P).all fun u => decide ((s.voice ⟨ch, v⟩).seq ≤ (s.voice ⟨ch, u⟩).seq)

/-- The registry part of the FREE path (R141, R143): the voice takes the slot `numActive`. -/
def State.takeSlot (s : State) (id : VoiceId) : State :=
  { (s.setSlot s.numActive (some id)).setIdx id (some s.numActive) with numActive := s.numActive + 1 }

/-- `activate(c, n)` (R141): the state after, and the path and voice, or `none` for "no voice". -/
def State.activate (s : State) (ch : Chan) (n : Midi7) : State × Option (Path × Nat) :=
  match s.boundVoice ch n with
  | some v => (s.bump ⟨ch, v⟩, some (.retrig, v))
  | none =>
    if s.numActive < s.cfg.C then
      match s.freeVoice ch with
      | some v => ((s.takeSlot ⟨ch, v⟩).bump ⟨ch, v⟩, some (.free, v))
      | none =>
        match s.oldestVoice ch with
        | some v => (s.bump ⟨ch, v⟩, some (.steal, v))
        | none => (s, none)
    else (s, none)

/-- The effect of `NOTEOFF ch, note` with its response (R149). -/
def State.noteOff (s : State) (ch : Chan) (n : Midi7) : State :=
  match s.boundVoice ch n with
  | some v =>
    let t := s.noteoffVoice ⟨ch, v⟩
    t.respond .ok (releasedData (t.voice ⟨ch, v⟩).idx v)
  | none => s.respond .nomatch 0#32

/-- The effect of `NOTEON ch, note, vel` for a velocity other than 0, with its response (R148). -/
def State.noteOn (s : State) (ch : Chan) (n vel : Midi7) : State :=
  match s.activate ch n with
  | (t, some (path, v)) =>
    let t := t.noteonVoice ⟨ch, v⟩ n vel
    t.respond .ok (noteonData path (t.voice ⟨ch, v⟩).idx v)
  | (t, none) => t.respond .dropped 0#32

/-- `NOTEON ch, note, vel` (R148): a velocity of 0 performs NOTEOFF. -/
def execNoteon (ch : Chan) (note vel : Midi7) (s : State) : Host.Outcome State Fault Refusal :=
  .next (if vel = 0#7 then s.noteOff ch note else s.noteOn ch note vel)

/-- `NOTEOFF ch, note` (R149). -/
def execNoteoff (ch : Chan) (note : Midi7) (s : State) : Host.Outcome State Fault Refusal :=
  .next (s.noteOff ch note)

/-- `VOICEOFF ch, rv` (R150). -/
def execVoiceoff (ch : Chan) (rv : BitVec 8) (s : State) : Host.Outcome State Fault Refusal :=
  .next <|
    let id : VoiceId := ⟨ch, rv.toNat⟩
    if s.cfg.P ≤ rv.toNat then s.respond .badarg 0#32
    else if s.active id then
      let t := s.noteoffVoice id
      t.respond .ok (releasedData (t.voice id).idx rv.toNat)
    else s.respond .nomatch 0#32

end Sys2Proof.Machine
end

