-- ==== Sys2Proof/Machine/Registry.lean ====
section
/-! DEFINITION. Registry compaction and iteration, and the commands CLEANUP, ADVANCE, RENDER, RELEASEALL (spec/42_registry_render.md R160 to R173). -/

namespace Sys2Proof.Machine

/-- One turn of cleanup's inner loop (R160): `slot[j] <- slot[j + 1]`, and the shifted voice's index follows. -/
def State.shiftSlot (s : State) (j : Nat) : State :=
  let t := s.setSlot j (s.slot (j + 1))
  match t.slot j with
  | none => t
  | some id => t.setIdx id (some j)

/-- The removal of the DONE voice `id` at position `i` (R160): its index becomes −1, the slots above shift down by one, the last is emptied. -/
def State.removeAt (s : State) (i : Nat) (id : VoiceId) : State :=
  let t := s.setIdx id none
  let t := (List.range' i (t.numActive - 1 - i)).foldl State.shiftSlot t
  let t := t.setSlot (t.numActive - 1) none
  { t with numActive := t.numActive - 1 }

/-- Cleanup's outer loop (R160) from position `i` with `removed` voices removed so far, for at most `fuel` turns. -/
def cleanupLoop : Nat → Nat → Nat → State → State × Nat
  | 0, _, removed, s => (s, removed)
  | fuel + 1, i, removed, s =>
    if i < s.numActive then
      match s.checkedSlot i with
      | none => cleanupLoop fuel (i + 1) removed s.raiseInvariantError
      | some id =>
        if s.isDone id then cleanupLoop fuel i (removed + 1) (s.removeAt i id)
        else cleanupLoop fuel (i + 1) removed s
    else (s, removed)

/-- `cleanup()` (R160): the state after, and the number of voices removed.
The loop ends after at most 2·numActive turns (R160; log 9). -/
def State.cleanupPass (s : State) : State × Nat := cleanupLoop (2 * s.numActive) 0 0 s

/-- One turn of advanceAll's loop at position `i` (R162). -/
def State.advanceSlot (s : State) (i : Nat) : State :=
  match s.checkedSlot i with
  | none => s.raiseInvariantError
  | some id => s.nextframe id

/-- `advanceAll()` (R162). -/
def State.advanceAll (s : State) : State := (List.range s.numActive).foldl State.advanceSlot s

/-- One frame of a block: advance every active voice, then the FE record of frame `f` (R171, R172). -/
def State.frame (s : State) (f : Nat) : State := s.advanceAll.emit (feWord f)

/-- `ph ∈ {ATTACK, DECAY}`, sustain hold included (R173). -/
def Envelope.sounding (e : Envelope) : Bool := e.ph == Phase.attack || e.ph == Phase.decay

/-- One turn of RELEASEALL's loop at position `i`, with the count so far (R173). -/
def releaseSlot (x : State × Nat) (i : Nat) : State × Nat :=
  match x.1.checkedSlot i with
  | none => (x.1.raiseInvariantError, x.2)
  | some id =>
    if (x.1.voice id).env.sounding then (x.1.noteoffVoice id, x.2 + 1) else x

/-- The loop of RELEASEALL (R173): the state after, and the number of voices released. -/
def State.releaseAllPass (s : State) : State × Nat :=
  (List.range s.numActive).foldl releaseSlot (s, 0)

/-- `CLEANUP` (R170). -/
def execCleanup (s : State) : Host.Outcome State Fault Refusal :=
  .next <|
    let (t, r) := s.cleanupPass
    t.respond .ok (removedData r t.numActive)

/-- `ADVANCE` (R171): one frame outside any block, frame index 0. -/
def execAdvance (s : State) : Host.Outcome State Fault Refusal :=
  .next <|
    let t := s.frame 0
    t.respond .ok (countData t.numActive)

/-- `RENDER` (R172): one cleanup pass, then the F frames of the block.
The block is one transition (R32, R172; log 2): its words wait in `outQ` in R172's order, and the sequencer is RENDERING until the sink has accepted the last of them. -/
def execRender (s : State) : Host.Outcome State Fault Refusal :=
  .next <|
    let (t, r) := s.cleanupPass
    let t := (List.range t.cfg.F).foldl State.frame t
    { t.respond .ok (removedData r t.numActive) with
      sequencer := Sequencer.inBlock 0#16 t.outQ t.numActive }

/-- `RELEASEALL` (R173). -/
def execReleaseall (s : State) : Host.Outcome State Fault Refusal :=
  .next <|
    let (t, n) := s.releaseAllPass
    t.respond .ok (countData n)

end Sys2Proof.Machine
end

