-- ==== Sys2Proof/Machine/Dispatch.lean ====
section
/-! DEFINITION. The dispatch of a command to its meaning, one arm per row of the opcode map (spec/30_encoding.md R78). -/

namespace Sys2Proof.Machine

def exec (i : Instr) (s : State) : Host.Outcome State Fault Refusal :=
  match i with
  | .nop => Sys2Proof.Machine.execNop s
  | .noteon ch note vel => Sys2Proof.Machine.execNoteon ch note vel s
  | .noteoff ch note => Sys2Proof.Machine.execNoteoff ch note s
  | .voiceoff ch rv => Sys2Proof.Machine.execVoiceoff ch rv s
  | .releaseall => Sys2Proof.Machine.execReleaseall s
  | .cleanup => Sys2Proof.Machine.execCleanup s
  | .advance => Sys2Proof.Machine.execAdvance s
  | .render => Sys2Proof.Machine.execRender s
  | .seta ch val => Sys2Proof.Machine.execSeta ch val s
  | .setd ch val => Sys2Proof.Machine.execSetd ch val s
  | .sets ch val => Sys2Proof.Machine.execSets ch val s
  | .setr ch val => Sys2Proof.Machine.execSetr ch val s
  | .regread addr => Sys2Proof.Machine.execRegread addr s

end Sys2Proof.Machine
end

