-- ==== Sys2Proof/Machine/Ports.lean ====
section
/-! DEFINITION. What one look at the pins does: the handshakes of the command port, the output stream and the response port, and the reset input (spec/30_encoding.md R81 to R84; spec/70_reset_and_hazards.md R220, R221, R231, R232). -/

namespace Sys2Proof.Machine

/-- The word `w` is accepted on the command port: its command runs, or, when it is undefined, it is ignored (R79, R192). -/
def accept (w : Word) (s : State) : Host.Outcome State Fault Refusal :=
  match decodeWord w with
  | .instr i => exec i s
  | .undefined _ => .next s.ignoreWord

/-- One look at the pins `p`: reset; else one output word handed to the sink; else the response handed to the host; else one word accepted on the command port; else nothing.
A word or response that is not taken is held, and nothing changes (R231, R232). -/
def look (p : PortInput) (s : State) : Host.Outcome State Fault Refusal :=
  if p.reset then .next s.assertReset
  else
    match s.outQ with
    | w :: rest => .next (if p.sinkReady then s.handWord w rest else s)
    | [] =>
      match s.resp with
      | some r => .next (if p.hostReady then s.handResponse r else s)
      | none =>
        match p.cmd with
        | some w => if s.ready then accept w s else .next s
        | none => .next s

/-- `s` after the sink has accepted every waiting word and the host the waiting response, the sequencer IDLE: the command port is ready (R81). -/
def State.drained (s : State) : State :=
  { s with
    sequencer := .idle
    outQ := []
    resp := none
    trace := s.trace ++ s.outQ.map Event.output ++ s.resp.toList.map Event.response }

/-- The pins with the word `w` offered on the command port and nothing else asserted (R81). -/
def offer (w : Word) : PortInput :=
  { reset := false, cmd := some w, sinkReady := false, hostReady := false }

end Sys2Proof.Machine
end

