-- ==== Sys2Proof/Machine/Step.lean ====
section
/-! DEFINITION. One step of the engine: the next look at its pins. -/

namespace Sys2Proof.Machine

/-- One step: the next look at the pins.
When nothing more is presented, the engine does nothing and keeps its state (R212; log 4). -/
def step (s : State) : Host.Outcome State Fault Refusal :=
  match s.inputs with
  | [] => .next s
  | p :: rest => look p { s with inputs := rest }

/-- `s` with the opcode table's word `w` offered on the command port at the next step.
For the port to be ready, the sink and the host have taken what was waiting (log 11). -/
def State.withFetchWord (s : State) (nbits w : Nat) : State :=
  { s.drained with inputs := offer (tableWord nbits w) :: s.inputs }

end Sys2Proof.Machine
end

