-- ==== Sys2Proof/WellFormed.lean ====
section
/-! DEFINITION. The assembler's operand checks (spec/30_encoding.md R86, R87).
A term of `Instr` needs no check: each of its operands has the width of its field. -/

namespace Sys2Proof

/-- `ch > 15` is rejected (R86). -/
def chanFits (n : Nat) : Bool := decide (n ≤ 15)

/-- `note > 127` and `vel > 127` are rejected (R86), `d1` and `d2` above 127 too (R87). -/
def midi7Fits (n : Nat) : Bool := decide (n ≤ 127)

/-- `rv > 255` is rejected (R86), `status > 255` too (R87). -/
def byteFits (n : Nat) : Bool := decide (n ≤ 255)

/-- `val > 0xFFFFFF` is rejected (R86). -/
def levelFits (n : Nat) : Bool := decide (n ≤ 0xFFFFFF)

/-- `addr > 0xFFFF` is rejected (R86). -/
def addrFits (n : Nat) : Bool := decide (n ≤ 0xFFFF)

/-- "An assembler rejects an operand outside its field" (R86); the pseudo-commands' operands likewise (R87). -/
def AsmLine.wellFormed : AsmLine → Bool
  | .nop => true
  | .noteon ch note vel => chanFits ch && midi7Fits note && midi7Fits vel
  | .noteoff ch note => chanFits ch && midi7Fits note
  | .voiceoff ch rv => chanFits ch && byteFits rv
  | .releaseall => true
  | .cleanup => true
  | .advance => true
  | .render => true
  | .seta ch val => chanFits ch && levelFits val
  | .setd ch val => chanFits ch && levelFits val
  | .sets ch val => chanFits ch && levelFits val
  | .setr ch val => chanFits ch && levelFits val
  | .regread addr => addrFits addr
  | .setenv ch a d s r => chanFits ch && levelFits a && levelFits d && levelFits s && levelFits r
  | .panic => true
  | .midi status d1 d2 => byteFits status && midi7Fits d1 && midi7Fits d2

end Sys2Proof
end

