-- ==== Sys2Proof/Machine/Assembler.lean ====
section
/-! DEFINITION. The assembler: one source line to command words, with the pseudo-commands (spec/30_encoding.md R86, R87).
It stands beside the machine, which never calls it. -/

namespace Sys2Proof.Machine

/-- `MIDI status, d1, d2` (R87): the commands it expands to. -/
def expandMidi (status d1 d2 : Nat) : List Instr :=
  let ch := BitVec.ofNat 4 (status &&& 0xF)
  let cmd := status &&& 0xF0
  if cmd = 0x90 ∧ 0 < d2 then [.noteon ch (BitVec.ofNat 7 d1) (BitVec.ofNat 7 d2)]
  else if cmd = 0x80 ∨ (cmd = 0x90 ∧ d2 = 0) then [.noteoff ch (BitVec.ofNat 7 d1)]
  else []

/-- The commands of a source line whose operands fit their fields (R86, R87). -/
def expand : AsmLine → List Instr
  | .nop => [.nop]
  | .noteon ch note vel => [.noteon (BitVec.ofNat 4 ch) (BitVec.ofNat 7 note) (BitVec.ofNat 7 vel)]
  | .noteoff ch note => [.noteoff (BitVec.ofNat 4 ch) (BitVec.ofNat 7 note)]
  | .voiceoff ch rv => [.voiceoff (BitVec.ofNat 4 ch) (BitVec.ofNat 8 rv)]
  | .releaseall => [.releaseall]
  | .cleanup => [.cleanup]
  | .advance => [.advance]
  | .render => [.render]
  | .seta ch val => [.seta (BitVec.ofNat 4 ch) (BitVec.ofNat 24 val)]
  | .setd ch val => [.setd (BitVec.ofNat 4 ch) (BitVec.ofNat 24 val)]
  | .sets ch val => [.sets (BitVec.ofNat 4 ch) (BitVec.ofNat 24 val)]
  | .setr ch val => [.setr (BitVec.ofNat 4 ch) (BitVec.ofNat 24 val)]
  | .regread addr => [.regread (BitVec.ofNat 16 addr)]
  | .setenv ch a d s r =>
    [ .seta (BitVec.ofNat 4 ch) (BitVec.ofNat 24 a), .setd (BitVec.ofNat 4 ch) (BitVec.ofNat 24 d),
      .sets (BitVec.ofNat 4 ch) (BitVec.ofNat 24 s), .setr (BitVec.ofNat 4 ch) (BitVec.ofNat 24 r) ]
  | .panic => [.releaseall]
  | .midi status d1 d2 => expandMidi status d1 d2

/-- The command words of a source line; `none` when the assembler rejects it (R86). -/
def assemble (l : AsmLine) : Option (List Word) :=
  if l.wellFormed then some ((expand l).map encode) else none

/-! ### Reading a line of text (R86; the details R86 leaves open are log 12) -/

/-- A blank between words. -/
def isBlank (c : Char) : Bool := c == ' ' || c == '\t'

/-- A text without the blanks around it. -/
def trimBlanks (l : List Char) : List Char :=
  ((l.dropWhile isBlank).reverse.dropWhile isBlank).reverse

/-- The value of a digit in base 10 or 16. -/
def digitValue (base : Nat) (c : Char) : Option Nat :=
  let n := c.toNat
  let v := if 48 ≤ n ∧ n ≤ 57 then some (n - 48)
    else if 65 ≤ n ∧ n ≤ 70 then some (n - 55)
    else if 97 ≤ n ∧ n ≤ 102 then some (n - 87)
    else none
  v.filter (fun d => d < base)

/-- The value of digits read left to right after the value `acc`. -/
def digitsFrom (base : Nat) : Nat → List Char → Option Nat
  | acc, [] => some acc
  | acc, c :: cs =>
    match digitValue base c with
    | some d => digitsFrom base (acc * base + d) cs
    | none => none

/-- An operand: "decimal, or hex with a `0x` prefix" (R86). -/
def readNumber : List Char → Option Nat
  | [] => none
  | '0' :: 'x' :: ds => if ds.isEmpty then none else digitsFrom 16 0 ds
  | ds => digitsFrom 10 0 ds

/-- The operands of a line, separated by commas; `none` when one is no number. -/
def readOperands (l : List Char) : Option (List Nat) :=
  if l.isEmpty then some [] else (l.splitOn ',').mapM (fun o => readNumber (trimBlanks o))

/-- The forms of R86 and R87: a mnemonic with its operands "in the order the format lists them". -/
def lineOf (mnemonic : List Char) (ops : List Nat) : Option AsmLine :=
  if mnemonic = "NOP".toList then (match ops with | [] => some .nop | _ => none)
  else if mnemonic = "NOTEON".toList then (match ops with | [c, n, v] => some (.noteon c n v) | _ => none)
  else if mnemonic = "NOTEOFF".toList then (match ops with | [c, n] => some (.noteoff c n) | _ => none)
  else if mnemonic = "VOICEOFF".toList then (match ops with | [c, r] => some (.voiceoff c r) | _ => none)
  else if mnemonic = "RELEASEALL".toList then (match ops with | [] => some .releaseall | _ => none)
  else if mnemonic = "CLEANUP".toList then (match ops with | [] => some .cleanup | _ => none)
  else if mnemonic = "ADVANCE".toList then (match ops with | [] => some .advance | _ => none)
  else if mnemonic = "RENDER".toList then (match ops with | [] => some .render | _ => none)
  else if mnemonic = "SETA".toList then (match ops with | [c, v] => some (.seta c v) | _ => none)
  else if mnemonic = "SETD".toList then (match ops with | [c, v] => some (.setd c v) | _ => none)
  else if mnemonic = "SETS".toList then (match ops with | [c, v] => some (.sets c v) | _ => none)
  else if mnemonic = "SETR".toList then (match ops with | [c, v] => some (.setr c v) | _ => none)
  else if mnemonic = "REGREAD".toList then (match ops with | [a] => some (.regread a) | _ => none)
  else if mnemonic = "SETENV".toList then (match ops with | [c, a, d, s, r] => some (.setenv c a d s r) | _ => none)
  else if mnemonic = "PANIC".toList then (match ops with | [] => some .panic | _ => none)
  else if mnemonic = "MIDI".toList then (match ops with | [s, x, y] => some (.midi s x y) | _ => none)
  else none

/-- The command words of one line of source text: the comment after `;` dropped, a line with nothing else giving no words, `none` when the line is rejected (R86). -/
def assembleLine (l : List Char) : Option (List Word) :=
  let l := trimBlanks (l.takeWhile (· != ';'))
  if l.isEmpty then some []
  else
    match readOperands (trimBlanks (l.dropWhile fun c => !isBlank c)) with
    | none => none
    | some ops => (lineOf (l.takeWhile fun c => !isBlank c) ops).bind assemble

end Sys2Proof.Machine
end

