-- ==== Sys2Proof/Safety.lean ====
section
/-! DEFINITION. The invariants of spec/10_state.md R35 to R39, and the shape of the model's lists, in the terms the statements use. -/

namespace Sys2Proof.Machine

/-- `id` names a roster voice of the engine (R20). -/
abbrev State.isVoice (s : State) (id : VoiceId) : Prop := id.rv < s.cfg.P

/-- The lists of the state have the lengths R7, R20, R28 and R30 give them, and the sizes are legal (R6). -/
abbrev State.Shape (s : State) : Prop :=
  s.cfg.valid ∧ s.rosters.length = NCH ∧ (∀ r ∈ s.rosters, r.length = s.cfg.P) ∧
    s.slots.length = s.cfg.C ∧ s.params.length = NCH

/-- The registry invariant (R35), with R28's range of the ids and R29's range of `numActive`. -/
abbrev State.RegistryInv (s : State) : Prop :=
  s.numActive ≤ s.cfg.C ∧
  (∀ k < s.numActive, (s.slot k).isSome = true) ∧
  (∀ k < s.cfg.C, s.numActive ≤ k → s.slot k = none) ∧
  (∀ k < s.cfg.C, ∀ id ∈ s.slot k, s.isVoice id) ∧
  (∀ j < s.numActive, ∀ k < s.numActive, s.slot j = s.slot k → j = k)

/-- The index invariant of one voice (R36). -/
abbrev State.indexOk (s : State) (id : VoiceId) : Prop :=
  ((s.voice id).idx = none → ∀ k < s.cfg.C, s.slot k ≠ some id) ∧
  (∀ k ∈ (s.voice id).idx, k < s.numActive ∧ s.slot k = some id)

/-- The index invariant (R36). -/
abbrev State.IndexInv (s : State) : Prop :=
  ∀ ch : Chan, ∀ v < s.cfg.P, s.indexOk ⟨ch, v⟩

/-- The binding invariant (R37): two active voices of a channel are bound to different notes. -/
abbrev State.BindingInv (s : State) : Prop :=
  ∀ ch : Chan, ∀ u < s.cfg.P, ∀ v < s.cfg.P,
    s.active ⟨ch, u⟩ = true → s.active ⟨ch, v⟩ = true →
      (s.voice ⟨ch, u⟩).note = (s.voice ⟨ch, v⟩).note → u = v

/-- The envelope range invariant (R38), with what R111 says of a ramp in progress: the steps still to come do not pass its target. -/
abbrev Envelope.inRange (e : Envelope) : Prop :=
  (e.ph = .attack →
    e.tgt = PEAK ∧ 1 ≤ e.rem.toNat ∧ e.lvl.toNat + (e.rem.toNat - 1) * e.stp.toNat ≤ e.tgt.toNat) ∧
  (e.ph = .decay → e.tgt.toNat + (e.rem.toNat - 1) * e.stp.toNat ≤ e.lvl.toNat) ∧
  (e.ph = .release →
    e.tgt = 0#24 ∧ 1 ≤ e.rem.toNat ∧ (e.rem.toNat - 1) * e.stp.toNat ≤ e.lvl.toNat) ∧
  (e.ph = .done → e.lvl = 0#24 ∧ e.rem = 0#24)

/-- Every voice's envelope is in range (R38). -/
abbrev State.EnvelopeInv (s : State) : Prop :=
  ∀ ch : Chan, ∀ v < s.cfg.P, (s.voice ⟨ch, v⟩).env.inRange

/-- The sequence invariant (R39). -/
abbrev State.SequenceInv (s : State) : Prop :=
  (∀ ch : Chan, ∀ v < s.cfg.P, (s.voice ⟨ch, v⟩).seq ≤ s.seqCtr) ∧
  (∀ ch : Chan, ∀ u < s.cfg.P, ∀ v < s.cfg.P,
    s.active ⟨ch, u⟩ = true → s.active ⟨ch, v⟩ = true →
      (s.voice ⟨ch, u⟩).seq = (s.voice ⟨ch, v⟩).seq → u = v)

/-- The number of FE records among words. -/
def feCount (q : List OutWord) : Nat := q.countP isFE

/-- The words waiting are those of the rest of the block from frame `f` on: F − f frames end among them, the last word ends one (R32, R172). -/
def Sequencer.matches (q : Sequencer) (F : Nat) (out : List OutWord) : Bool :=
  match q with
  | .idle => true
  | .rendering f _ => decide (f.toNat + feCount out = F) && (out.getLast?).any isFE

/-- The ports (R58, R82): words wait only with their command's response behind them, and in RENDERING words of the block wait. -/
abbrev State.PortInv (s : State) : Prop :=
  (s.outQ ≠ [] → s.resp.isSome = true) ∧ s.sequencer.matches s.cfg.F s.outQ = true

/-- What holds after reset and after every step (R35 to R38, with the shape of the lists and the ports). -/
structure State.Inv (s : State) : Prop where
  shape : s.Shape
  registry : s.RegistryInv
  index : s.IndexInv
  binding : s.BindingInv
  envelope : s.EnvelopeInv
  ports : s.PortInv

/-- The part of the state that is the engine itself, without its ports and the model's own fields: what a command that changes nothing leaves (R83, R200). -/
structure State.SameEngine (s t : State) : Prop where
  cfg : t.cfg = s.cfg
  rosters : t.rosters = s.rosters
  seqCtr : t.seqCtr = s.seqCtr
  slots : t.slots = s.slots
  numActive : t.numActive = s.numActive
  params : t.params = s.params
  err : t.err = s.err
  sequencer : t.sequencer = s.sequencer

/-- What a command that emits no word leaves of the ports: all but the response (R14, R84). -/
structure State.NoOutput (s t : State) : Prop where
  outQ : t.outQ = s.outQ
  inputs : t.inputs = s.inputs
  trace : t.trace = s.trace

/-- What a command leaves that changes voice records only, and the response (R130, R131). -/
structure State.VoicesOnly (s t : State) : Prop extends State.NoOutput s t where
  cfg : t.cfg = s.cfg
  params : t.params = s.params
  err : t.err = s.err
  sequencer : t.sequencer = s.sequencer

/-- The ids in the active slots, in slot order: the list `L` of R161. -/
def State.activeIds (s : State) : List VoiceId := (List.range s.numActive).filterMap s.slot

/-- An envelope after `k` calls of `next` with its channel's parameters unchanged (R109). -/
def Envelope.samples (e : Envelope) (p : EnvParams) : Nat → Envelope
  | 0 => e
  | k + 1 => (e.samples p k).next p

/-- The envelope of voice `id` in `s` after `k` calls of `next`. -/
def State.envAfter (s : State) (id : VoiceId) (k : Nat) : Envelope :=
  (s.voice id).env.samples (s.param id.ch) k

/-- The words of frame `f` of a block that starts at `s`: a VF record for each active slot in slot order, then FE(f) (R162, R172). -/
def State.frameWords (s : State) (f : Nat) : List OutWord :=
  (s.activeIds.map fun id => vfWord id (s.voice id) (s.envAfter id (f + 1)).lvl) ++ [feWord f]

/-- The commands of a list executed one after another. -/
def execAll : List Instr → State → Host.Outcome State Fault Refusal
  | [], s => .next s
  | i :: is, s =>
    match exec i s with
    | .next t => execAll is t
    | .fault r => .fault r
    | .refused r => .refused r

/-- The addresses of the register map (R51, R52), for an engine of sizes `g`. -/
abbrev regMapped (g : Config) (a : BitVec 16) : Prop :=
  a.toNat ≤ 7 ∨ (0x100 ≤ a.toNat ∧ a.toNat < 0x100 + g.C) ∨ (0x200 ≤ a.toNat ∧ a.toNat ≤ 0x23F) ∨
    (0x1000 ≤ a.toNat ∧ a.toNat ≤ 0x7FFF ∧ a.toNat % 256 < g.P)

end Sys2Proof.Machine
end

