-- ==== Sys2Proof/Certificates/Slice0/Obligations.lean ====
section
/-! DEFINITION. The statements for the provers, each formalising rules of spec/; OBLIGATIONS.json lists them in this order. -/

open Sys2Proof Sys2Proof.Machine

/-! ### Reset -/

/-- R40: the reset value of every piece of state, for every legal size of the engine. -/
def Obligations.ResetValues : Prop :=
  ∀ g : Config, g.valid →
    let s := State.resetWith g
    s.cfg = g ∧
    (∀ (ch : Chan) (v : Nat), v < g.P →
      (s.voice ⟨ch, v⟩).note = 0#7 ∧ (s.voice ⟨ch, v⟩).vel = 0#7 ∧ (s.voice ⟨ch, v⟩).idx = none ∧
      (s.voice ⟨ch, v⟩).seq = 0#64 ∧ (s.voice ⟨ch, v⟩).env.ph = .done ∧
      (s.voice ⟨ch, v⟩).env.lvl = 0#24 ∧ (s.voice ⟨ch, v⟩).env.stp = 0#24 ∧
      (s.voice ⟨ch, v⟩).env.rem = 0#24 ∧ (s.voice ⟨ch, v⟩).env.tgt = 0#24) ∧
    s.seqCtr = 0#64 ∧ (∀ k < g.C, s.slot k = none) ∧ s.numActive = 0 ∧
    (∀ ch : Chan, (s.param ch).attack = 0#24 ∧ (s.param ch).decay = 0#24 ∧
      (s.param ch).sustain = 0xFFFFFF#24 ∧ (s.param ch).release = 0#24) ∧
    s.err = false ∧ s.sequencer = .idle ∧ s.ready = true ∧ s.outQ = [] ∧ s.resp = none

/-- R221: reset asserted at any step, a command in progress or not, gives the reset state and abandons the command; what the outside has accepted before stays.
That reset wins over a transfer or a word presented at the same look, so that the trace gains nothing there, is the model's choice (log 14). -/
def Obligations.ResetAbandonsTheCommand : Prop :=
  ∀ (s : State) (p : PortInput) (rest : List PortInput), s.inputs = p :: rest → p.reset = true →
    ∃ t, step s = .next t ∧ (State.resetWith s.cfg).SameEngine t ∧ t.outQ = [] ∧ t.resp = none ∧
      t.ready = true ∧ t.trace = s.trace ∧ t.inputs = rest

/-! ### Encoding -/

/-- R72 to R78: decoding the word of a command gives the command, every operand at every value. -/
def Obligations.DecodeOfEncode : Prop :=
  ∀ i : Instr, decodeWord (encode i) = .instr i

/-- R72 to R78: a command has one word only. -/
def Obligations.EncodeOfDecode : Prop :=
  ∀ (w : Word) (i : Instr), decodeWord w = .instr i → encode i = w

/-- R78, row by row: a word decodes to a row's command, with the operand fields of R77, exactly when its masked bits are the row's match. -/
def Obligations.DecodeFollowsOpcodeMap : Prop :=
  ∀ w : Word,
    (w &&& 0xFFFFFFFF#32 = 0x00000000#32 ↔ decodeWord w = .instr .nop) ∧
    (w &&& 0xF08080FF#32 = 0x10000000#32 ↔ decodeWord w =
      .instr (.noteon (w.extractLsb' 24 4) (w.extractLsb' 16 7) (w.extractLsb' 8 7))) ∧
    (w &&& 0xF080FFFF#32 = 0x20000000#32 ↔ decodeWord w =
      .instr (.noteoff (w.extractLsb' 24 4) (w.extractLsb' 16 7))) ∧
    (w &&& 0xF0FFFF00#32 = 0x30000000#32 ↔ decodeWord w =
      .instr (.voiceoff (w.extractLsb' 24 4) (w.extractLsb' 0 8))) ∧
    (w &&& 0xFFFFFFFF#32 = 0x40000000#32 ↔ decodeWord w = .instr .releaseall) ∧
    (w &&& 0xFFFFFFFF#32 = 0x50000000#32 ↔ decodeWord w = .instr .cleanup) ∧
    (w &&& 0xFFFFFFFF#32 = 0x60000000#32 ↔ decodeWord w = .instr .advance) ∧
    (w &&& 0xFFFFFFFF#32 = 0x70000000#32 ↔ decodeWord w = .instr .render) ∧
    (w &&& 0xF0000000#32 = 0x80000000#32 ↔ decodeWord w =
      .instr (.seta (w.extractLsb' 24 4) (w.extractLsb' 0 24))) ∧
    (w &&& 0xF0000000#32 = 0x90000000#32 ↔ decodeWord w =
      .instr (.setd (w.extractLsb' 24 4) (w.extractLsb' 0 24))) ∧
    (w &&& 0xF0000000#32 = 0xA0000000#32 ↔ decodeWord w =
      .instr (.sets (w.extractLsb' 24 4) (w.extractLsb' 0 24))) ∧
    (w &&& 0xF0000000#32 = 0xB0000000#32 ↔ decodeWord w =
      .instr (.setr (w.extractLsb' 24 4) (w.extractLsb' 0 24))) ∧
    (w &&& 0xFFFF0000#32 = 0xC0000000#32 ↔ decodeWord w = .instr (.regread (w.extractLsb' 0 16)))

/-- R79: exactly the words with a reserved opcode, or with a reserved-zero bit of their opcode's format set, are undefined.
The mask listed for an opcode holds the reserved-zero bits of its format (R72 to R76). -/
def Obligations.UndefinedWords : Prop :=
  ∀ w : Word,
    (∃ e, decodeWord w = .undefined e) ↔
      (0xD0000000#32 ≤ w) ∨
      ((w.extractLsb' 28 4 = 0x0#4 ∨ w.extractLsb' 28 4 = 0x4#4 ∨ w.extractLsb' 28 4 = 0x5#4 ∨
        w.extractLsb' 28 4 = 0x6#4 ∨ w.extractLsb' 28 4 = 0x7#4) ∧ w &&& 0x0FFFFFFF#32 ≠ 0#32) ∨
      (w.extractLsb' 28 4 = 0x1#4 ∧ w &&& 0x008080FF#32 ≠ 0#32) ∨
      (w.extractLsb' 28 4 = 0x2#4 ∧ w &&& 0x0080FFFF#32 ≠ 0#32) ∨
      (w.extractLsb' 28 4 = 0x3#4 ∧ w &&& 0x00FFFF00#32 ≠ 0#32) ∨
      (w.extractLsb' 28 4 = 0xC#4 ∧ w &&& 0x0FFF0000#32 ≠ 0#32)

/-- Words written out from the encodings of the rules, and what they stand for: one of each format and some undefined ones. -/
def Obligations.WrittenWordsDecode : Prop :=
  decodeWord 0b00010000010001010110010000000000#32 = .instr (.noteon 0#4 69#7 100#7) ∧
  decodeWord 0b00100000010001010000000000000000#32 = .instr (.noteoff 0#4 69#7) ∧
  decodeWord 0b00110000000000000000000000000010#32 = .instr (.voiceoff 0#4 2#8) ∧
  decodeWord 0b01110000000000000000000000000000#32 = .instr .render ∧
  decodeWord 0b10111111111111111111111111111111#32 = .instr (.setr 15#4 0xFFFFFF#24) ∧
  decodeWord 0b11000000000000000001000000000000#32 = .instr (.regread 0x1000#16) ∧
  decodeWord 0xD0000000#32 = .undefined .reservedOpcode ∧
  decodeWord 0x20454000#32 = .undefined .reservedBits

/-- R55: a byte transport carries a command word, a response's data and an output word least significant byte first; decoding and putting together read them so; output words keep their order. -/
def Obligations.TransportIsLittleEndian : Prop :=
  (∀ (b0 b1 b2 b3 : Byte) (rest : List Byte) (w : Word) (c : RespCode),
    w.extractLsb' 0 8 = b0 → w.extractLsb' 8 8 = b1 → w.extractLsb' 16 8 = b2 →
      w.extractLsb' 24 8 = b3 →
        bytesOfWord w = [b0, b1, b2, b3] ∧ wordOfBytes b0 b1 b2 b3 = w ∧
        (Response.mk c w).dataBytes = [b0, b1, b2, b3] ∧
        decodeBytes (b0 :: b1 :: b2 :: b3 :: rest) = (decodeWord w, rest)) ∧
  (∀ (b0 b1 b2 b3 b4 b5 b6 b7 : Byte) (w : OutWord) (q : List OutWord),
    w.extractLsb' 0 8 = b0 → w.extractLsb' 8 8 = b1 → w.extractLsb' 16 8 = b2 →
      w.extractLsb' 24 8 = b3 → w.extractLsb' 32 8 = b4 → w.extractLsb' 40 8 = b5 →
      w.extractLsb' 48 8 = b6 → w.extractLsb' 56 8 = b7 →
        bytesOfOutWord w = [b0, b1, b2, b3, b4, b5, b6, b7] ∧
        outWordOfBytes b0 b1 b2 b3 b4 b5 b6 b7 = w ∧
        bytesOfOutput (w :: q) = [b0, b1, b2, b3, b4, b5, b6, b7] ++ bytesOfOutput q)

/-- R86: the assembler rejects exactly the operands outside their fields, places NOTEON's operands in its fields, and never emits an undefined word. -/
def Obligations.AssemblerChecksOperands : Prop :=
  (∀ ch note vel : Nat, assemble (.noteon ch note vel) = none ↔ 15 < ch ∨ 127 < note ∨ 127 < vel) ∧
  (∀ ch note : Nat, assemble (.noteoff ch note) = none ↔ 15 < ch ∨ 127 < note) ∧
  (∀ ch rv : Nat, assemble (.voiceoff ch rv) = none ↔ 15 < ch ∨ 255 < rv) ∧
  (∀ ch val : Nat, assemble (.seta ch val) = none ↔ 15 < ch ∨ 0xFFFFFF < val) ∧
  (∀ ch val : Nat, assemble (.setd ch val) = none ↔ 15 < ch ∨ 0xFFFFFF < val) ∧
  (∀ ch val : Nat, assemble (.sets ch val) = none ↔ 15 < ch ∨ 0xFFFFFF < val) ∧
  (∀ ch val : Nat, assemble (.setr ch val) = none ↔ 15 < ch ∨ 0xFFFFFF < val) ∧
  (∀ addr : Nat, assemble (.regread addr) = none ↔ 0xFFFF < addr) ∧
  (∀ ch note vel : Nat, ch ≤ 15 → note ≤ 127 → vel ≤ 127 → ∃ w, assemble (.noteon ch note vel) = some [w] ∧
    w.toNat = 0x10000000 + ch * 2 ^ 24 + note * 2 ^ 16 + vel * 2 ^ 8) ∧
  (∀ (l : AsmLine) (ws : List Word), assemble l = some ws → ∀ w ∈ ws, ∃ i, decodeWord w = .instr i)

/-- R87: SETENV expands to its four writes in order, PANIC to RELEASEALL, and MIDI to NOTEON, NOTEOFF or nothing by its status and velocity. -/
def Obligations.PseudoCommandsExpand : Prop :=
  (∀ ch a d s r : Nat, expand (.setenv ch a d s r) =
    expand (.seta ch a) ++ expand (.setd ch d) ++ expand (.sets ch s) ++ expand (.setr ch r)) ∧
  expand .panic = expand .releaseall ∧
  (∀ status d1 d2 : Nat, status ≤ 255 → d1 ≤ 127 → d2 ≤ 127 →
    (status / 16 = 9 → 0 < d2 → expand (.midi status d1 d2) = expand (.noteon (status % 16) d1 d2)) ∧
    ((status / 16 = 8 ∨ status / 16 = 9 ∧ d2 = 0) →
      expand (.midi status d1 d2) = expand (.noteoff (status % 16) d1)) ∧
    (status / 16 ≠ 8 → status / 16 ≠ 9 → expand (.midi status d1 d2) = []))

/-! ### The step and the ports -/

/-- A step runs the command whose word is offered on a ready port (R81), and around it only takes the look at the pins off `inputs` (log 4); with the opcode table's word offered by `withFetchWord` (log 11) likewise. -/
def Obligations.StepRunsTheOfferedCommand : Prop :=
  (∀ (s : State) (p : PortInput) (rest : List PortInput) (w : Word) (i : Instr),
    s.inputs = p :: rest → p.reset = false → p.cmd = some w → s.ready = true → decodeWord w = .instr i →
      step s = exec i { s with inputs := rest }) ∧
  (∀ (s : State) (nbits w : Nat) (i : Instr), decodeTableWord nbits w = some i →
    step (s.withFetchWord nbits w) = exec i { s.drained with inputs := s.inputs })

/-- R192: an undefined word offered on a ready port responds IGNORED with data 0 and changes nothing. -/
def Obligations.UndefinedWordIsIgnored : Prop :=
  ∀ (s : State) (p : PortInput) (rest : List PortInput) (w : Word) (e : DecodeError),
    s.inputs = p :: rest → p.reset = false → p.cmd = some w → s.ready = true →
      decodeWord w = .undefined e →
        ∃ t, step s = .next t ∧ s.SameEngine t ∧ t.outQ = [] ∧ t.resp = some ⟨.ignored, 0#32⟩ ∧
          t.trace = s.trace ∧ t.inputs = rest

/-- R81, R82: while a command is in progress, and in RENDERING always, the word on the command port plays no part in a step. -/
def Obligations.BusyPortTakesNoCommand : Prop :=
  (∀ (s : State) (f : BitVec 16) (i : BitVec 8), s.sequencer = .rendering f i → s.ready = false) ∧
  (∀ s : State, s.outQ ≠ [] ∨ s.resp ≠ none → s.ready = false) ∧
  (∀ (s : State) (p : PortInput) (rest : List PortInput) (c : Option Word), s.ready = false →
    step { s with inputs := p :: rest } = step { s with inputs := { p with cmd := c } :: rest })

/-- R231: while the sink is not ready the engine holds, for as long as that lasts, the port not ready; only the sink's acceptance (or reset) lifts the hold. -/
def Obligations.UnacceptedWordHoldsTheEngine : Prop :=
  (∀ (ps rest : List PortInput) (s : State), s.outQ ≠ [] → s.inputs = ps ++ rest →
    (∀ p ∈ ps, p.reset = false ∧ p.sinkReady = false) →
      Sys2Proof.core.run ps.length s = .next { s with inputs := rest } ∧ s.ready = false) ∧
  (∀ (s : State) (w : OutWord) (ws : List OutWord) (p : PortInput) (rest : List PortInput),
    s.outQ = w :: ws → s.inputs = p :: rest → p.reset = false → p.sinkReady = true →
      ∃ t, step s = .next t ∧ t.outQ = ws ∧ t.trace = s.trace ++ [.output w])

/-- R232: while the host does not take the response the engine holds it, for as long as that lasts, and takes no command. -/
def Obligations.UntakenResponseHoldsTheEngine : Prop :=
  (∀ (ps rest : List PortInput) (s : State), s.outQ = [] → s.resp ≠ none → s.inputs = ps ++ rest →
    (∀ p ∈ ps, p.reset = false ∧ p.hostReady = false) →
      Sys2Proof.core.run ps.length s = .next { s with inputs := rest } ∧ s.ready = false) ∧
  (∀ (s : State) (r : Response) (p : PortInput) (rest : List PortInput),
    s.outQ = [] → s.resp = some r → s.inputs = p :: rest → p.reset = false → p.hostReady = true →
      ∃ t, step s = .next t ∧ t.resp = none ∧ t.trace = s.trace ++ [.response r])

/-- R58: with a sink and a host that accept, the command's words come out in the order emitted, then its response, and then the port is ready, the engine otherwise as the command left it. -/
def Obligations.WordsThenResponseDrain : Prop :=
  ∀ (ps rest : List PortInput) (s : State) (r : Response), s.PortInv → s.resp = some r →
    ps.length = s.outQ.length + 1 → s.inputs = ps ++ rest →
    (∀ p ∈ ps, p.reset = false ∧ p.sinkReady = true ∧ p.hostReady = true) →
      ∃ t, Sys2Proof.core.run ps.length s = .next t ∧
        t.trace = s.trace ++ s.outQ.map Event.output ++ [.response r] ∧
        t.ready = true ∧ { s with sequencer := .idle }.SameEngine t ∧ t.inputs = rest

/-- R212: when no command is offered on a ready port, all state is kept.
That a step keeps everything when `inputs` has run out is the model's own choice (log 4). -/
def Obligations.IdleEngineKeepsItsState : Prop :=
  (∀ s : State, s.inputs = [] → step s = .next s) ∧
  (∀ (s : State) (p : PortInput) (rest : List PortInput), s.ready = true → s.inputs = p :: rest →
    p.reset = false → p.cmd = none → step s = .next { s with inputs := rest })

/-! ### Envelope -/

/-- R101: `enter` sets the phase and the target, keeps the level, sets `rem` to `max(N, 1)` and `stp` to the distance divided by that, rounded down. -/
def Obligations.EnterStartsARamp : Prop :=
  ∀ (e : Envelope) (ph : Phase) (tgt N : Level),
    (e.enter ph tgt N).ph = ph ∧ (e.enter ph tgt N).tgt = tgt ∧ (e.enter ph tgt N).lvl = e.lvl ∧
    (e.enter ph tgt N).rem.toNat = max N.toNat 1 ∧
    ((e.enter ph tgt N).stp.toNat : ℤ) = |(tgt.toNat : ℤ) - e.lvl.toNat| / (max N.toNat 1 : ℕ)

/-- R102, R103: `attack` ramps to PEAK over A[c] and `release` to 0 over R[c], from any phase, on the named voice's envelope only. -/
def Obligations.AttackAndReleaseRamp : Prop :=
  ∀ (s : State) (id : VoiceId), s.Shape → s.isVoice id →
    (s.attack id).voice id =
      { s.voice id with env := (s.voice id).env.enter .attack 0xFFFFFF#24 (s.param id.ch).attack } ∧
    (s.release id).voice id =
      { s.voice id with env := (s.voice id).env.enter .release 0#24 (s.param id.ch).release } ∧
    (∀ other, other ≠ id → (s.attack id).voice other = s.voice other ∧
      (s.release id).voice other = s.voice other) ∧
    s.attack id = { s with rosters := (s.attack id).rosters } ∧
    s.release id = { s with rosters := (s.release id).rosters }

/-- R104 to R107, on an envelope in range, where no sum or difference leaves its field: what `next` does in each phase; and `next` of a voice stores that envelope and returns its new level. -/
def Obligations.NextAdvancesOneSample : Prop :=
  (∀ (e : Envelope) (p : EnvParams), e.inRange →
    (e.ph = .attack → 1 < e.rem.toNat → (e.next p).ph = .attack ∧
      (e.next p).lvl.toNat = e.lvl.toNat + e.stp.toNat ∧ (e.next p).rem.toNat + 1 = e.rem.toNat ∧
      (e.next p).stp = e.stp ∧ (e.next p).tgt = e.tgt) ∧
    (e.ph = .attack → e.rem.toNat = 1 → (e.next p).ph = .decay ∧
      (e.next p).lvl = 0xFFFFFF#24 ∧ (e.next p).tgt = p.sustain ∧
      (e.next p).rem.toNat = max p.decay.toNat 1 ∧
      (e.next p).stp.toNat = (0xFFFFFF - p.sustain.toNat) / max p.decay.toNat 1) ∧
    (e.ph = .decay → 1 < e.rem.toNat → (e.next p).ph = .decay ∧
      (e.next p).lvl.toNat + e.stp.toNat = e.lvl.toNat ∧ (e.next p).rem.toNat + 1 = e.rem.toNat ∧
      (e.next p).stp = e.stp ∧ (e.next p).tgt = e.tgt) ∧
    (e.ph = .decay → e.rem.toNat = 1 →
      e.next p = { e with lvl := e.tgt, rem := 0#24 }) ∧
    (e.ph = .decay → e.rem.toNat = 0 → e.next p = e) ∧
    (e.ph = .release → 1 < e.rem.toNat → (e.next p).ph = .release ∧
      (e.next p).lvl.toNat + e.stp.toNat = e.lvl.toNat ∧ (e.next p).rem.toNat + 1 = e.rem.toNat ∧
      (e.next p).stp = e.stp ∧ (e.next p).tgt = e.tgt) ∧
    (e.ph = .release → e.rem.toNat = 1 → e.next p = ⟨.done, 0#24, 0#24, 0#24, 0#24⟩) ∧
    (e.ph = .done → e.next p = e ∧ (e.next p).lvl = 0#24)) ∧
  (∀ (s : State) (id : VoiceId), s.Shape → s.isVoice id →
    (s.nextSample id).2 = ((s.nextSample id).1.voice id).env.lvl ∧
    (s.nextSample id).1.voice id =
      { s.voice id with env := (s.voice id).env.next (s.param id.ch) })

/-- The lengths of the phases (R109, which the spec marks as its own inference from R101 and R104 to R106), counted in calls of `next`, and what the last call returns. -/
def Obligations.PhaseLengths : Prop :=
  (∀ (e : Envelope) (p : EnvParams), let e0 := e.enter .attack 0xFFFFFF#24 p.attack
    (∀ j < max p.attack.toNat 1, (e0.samples p j).ph = .attack) ∧
    (e0.samples p (max p.attack.toNat 1)).ph = .decay ∧
    (e0.samples p (max p.attack.toNat 1)).lvl = 0xFFFFFF#24) ∧
  (∀ (e : Envelope) (p : EnvParams), e.lvl = 0xFFFFFF#24 → let e0 := e.enter .decay p.sustain p.decay
    (∀ j < max p.decay.toNat 1, (e0.samples p j).ph = .decay ∧ (e0.samples p j).rem ≠ 0#24) ∧
    (∀ j, max p.decay.toNat 1 ≤ j → (e0.samples p j).ph = .decay ∧ (e0.samples p j).rem = 0#24 ∧
      (e0.samples p j).lvl = p.sustain)) ∧
  (∀ (e : Envelope) (p : EnvParams), let e0 := e.enter .release 0#24 p.release
    (∀ j < max p.release.toNat 1, (e0.samples p j).ph = .release) ∧
    (∀ j, max p.release.toNat 1 ≤ j →
      (e0.samples p j).ph = .done ∧ (e0.samples p j).lvl = 0#24))

/-- The spec's own inferences R110 and R111 from R101 to R106: the level after `j` calls of a ramp, for an attack, a decay from PEAK and a release; a release's first drop is `floor(L / n)` and its last at most `n − 1` larger. -/
def Obligations.RampLevels : Prop :=
  (∀ (e : Envelope) (p : EnvParams) (j : Nat), let n := max p.attack.toNat 1
    j < n → ((e.enter .attack 0xFFFFFF#24 p.attack).samples p j).lvl.toNat =
      e.lvl.toNat + j * ((0xFFFFFF - e.lvl.toNat) / n)) ∧
  (∀ (e : Envelope) (p : EnvParams) (j : Nat), let n := max p.decay.toNat 1
    e.lvl = 0xFFFFFF#24 → j < n →
      ((e.enter .decay p.sustain p.decay).samples p j).lvl.toNat +
        j * ((0xFFFFFF - p.sustain.toNat) / n) = 0xFFFFFF) ∧
  (∀ (e : Envelope) (p : EnvParams) (j : Nat), let n := max p.release.toNat 1
    let lvlAt := fun k => ((e.enter .release 0#24 p.release).samples p k).lvl.toNat
    (j < n → lvlAt j + j * (e.lvl.toNat / n) = e.lvl.toNat) ∧
    (j + 1 < n → lvlAt j - lvlAt (j + 1) = e.lvl.toNat / n) ∧
    (j + 1 = n → lvlAt j - lvlAt (j + 1) ≤ e.lvl.toNat / n + (n - 1)))

/-- R112 to R115: each command writes its one parameter of its one channel, responds OK with data 0, and changes nothing else. -/
def Obligations.ParameterWrites : Prop :=
  ∀ (s : State) (ch : Chan) (val : Level), s.Shape →
    (∃ t, exec (.seta ch val) s = .next t ∧ t.param ch = { s.param ch with attack := val } ∧
      (∀ c, c ≠ ch → t.param c = s.param c) ∧
      t = { s with params := t.params, resp := some ⟨.ok, 0#32⟩ }) ∧
    (∃ t, exec (.setd ch val) s = .next t ∧ t.param ch = { s.param ch with decay := val } ∧
      (∀ c, c ≠ ch → t.param c = s.param c) ∧
      t = { s with params := t.params, resp := some ⟨.ok, 0#32⟩ }) ∧
    (∃ t, exec (.sets ch val) s = .next t ∧ t.param ch = { s.param ch with sustain := val } ∧
      (∀ c, c ≠ ch → t.param c = s.param c) ∧
      t = { s with params := t.params, resp := some ⟨.ok, 0#32⟩ }) ∧
    (∃ t, exec (.setr ch val) s = .next t ∧ t.param ch = { s.param ch with release := val } ∧
      (∀ c, c ≠ ch → t.param c = s.param c) ∧
      t = { s with params := t.params, resp := some ⟨.ok, 0#32⟩ })

/-- R116: `attack` reads A only, `release` R only, and `next` D and S at the attack's last sample and nothing else. -/
def Obligations.ParametersReadAtEntryOnly : Prop :=
  (∀ (e : Envelope) (p q : EnvParams), p.attack = q.attack → e.attack p = e.attack q) ∧
  (∀ (e : Envelope) (p q : EnvParams), p.release = q.release → e.release p = e.release q) ∧
  (∀ (e : Envelope) (p q : EnvParams), p.decay = q.decay → p.sustain = q.sustain → e.next p = e.next q) ∧
  (∀ (e : Envelope) (p q : EnvParams), e.ph = .attack ∧ 1 < e.rem.toNat ∨ e.ph ≠ .attack →
    e.next p = e.next q)

/-! ### Notes -/

/-- R142: a note bound on its channel is re-triggered in place, at capacity too, whatever its phase. -/
def Obligations.NoteonRetriggersBoundNote : Prop :=
  ∀ (s : State) (ch : Chan) (n vel : Midi7) (v : Nat), s.Shape → vel ≠ 0#7 → v < s.cfg.P →
    s.bound ⟨ch, v⟩ n = true → (∀ u < v, s.bound ⟨ch, u⟩ n = false) →
      ∃ t, exec (.noteon ch n vel) s = .next t ∧
        t.voice ⟨ch, v⟩ = { note := n, vel := vel, idx := (s.voice ⟨ch, v⟩).idx, seq := s.seqCtr + 1#64,
                            env := (s.voice ⟨ch, v⟩).env.attack (s.param ch) } ∧
        (∀ id, id ≠ ⟨ch, v⟩ → t.voice id = s.voice id) ∧
        t.seqCtr = s.seqCtr + 1#64 ∧ t.slots = s.slots ∧ t.numActive = s.numActive ∧ s.VoicesOnly t ∧
        t.resp = some ⟨.ok, noteonData .retrig (s.voice ⟨ch, v⟩).idx v⟩

/-- R143: below capacity, with the note not bound, the least inactive roster voice takes the slot `numActive`. -/
def Obligations.NoteonTakesFreeVoice : Prop :=
  ∀ (s : State) (ch : Chan) (n vel : Midi7) (v : Nat), s.Shape → vel ≠ 0#7 → v < s.cfg.P →
    (∀ u < s.cfg.P, s.bound ⟨ch, u⟩ n = false) → s.numActive < s.cfg.C →
    s.active ⟨ch, v⟩ = false → (∀ u < v, s.active ⟨ch, u⟩ = true) →
      ∃ t, exec (.noteon ch n vel) s = .next t ∧
        t.voice ⟨ch, v⟩ = { note := n, vel := vel, idx := some s.numActive, seq := s.seqCtr + 1#64,
                            env := (s.voice ⟨ch, v⟩).env.attack (s.param ch) } ∧
        (∀ id, id ≠ ⟨ch, v⟩ → t.voice id = s.voice id) ∧
        t.slot s.numActive = some ⟨ch, v⟩ ∧ (∀ k, k ≠ s.numActive → t.slot k = s.slot k) ∧
        t.numActive = s.numActive + 1 ∧ t.seqCtr = s.seqCtr + 1#64 ∧ s.VoicesOnly t ∧
        t.resp = some ⟨.ok, noteonData .free (some s.numActive) v⟩

/-- R144, R147: below capacity, with the note not bound and every roster voice active, the voice with the least `seq` (the least index among equals) is rebound in its slot; the note it had is then not bound, and NOTEOFF of it finds nothing. -/
def Obligations.NoteonStealsOldestVoice : Prop :=
  ∀ (s : State) (ch : Chan) (n vel : Midi7) (v : Nat), s.Inv → vel ≠ 0#7 → v < s.cfg.P →
    (∀ u < s.cfg.P, s.bound ⟨ch, u⟩ n = false) → s.numActive < s.cfg.C →
    (∀ u < s.cfg.P, s.active ⟨ch, u⟩ = true) →
    (∀ u < s.cfg.P, (s.voice ⟨ch, v⟩).seq ≤ (s.voice ⟨ch, u⟩).seq) →
    (∀ u < v, (s.voice ⟨ch, v⟩).seq < (s.voice ⟨ch, u⟩).seq) →
      ∃ t, exec (.noteon ch n vel) s = .next t ∧
        t.voice ⟨ch, v⟩ = { note := n, vel := vel, idx := (s.voice ⟨ch, v⟩).idx, seq := s.seqCtr + 1#64,
                            env := (s.voice ⟨ch, v⟩).env.attack (s.param ch) } ∧
        (∀ id, id ≠ ⟨ch, v⟩ → t.voice id = s.voice id) ∧
        t.seqCtr = s.seqCtr + 1#64 ∧ t.slots = s.slots ∧ t.numActive = s.numActive ∧ s.VoicesOnly t ∧
        t.resp = some ⟨.ok, noteonData .steal (s.voice ⟨ch, v⟩).idx v⟩ ∧
        ∃ u, exec (.noteoff ch (s.voice ⟨ch, v⟩).note) t = .next u ∧ t.SameEngine u ∧
          u.resp = some ⟨.nomatch, 0#32⟩

/-- R145: at capacity a note not bound on its channel is dropped, and nothing changes, even when a voice of the channel could be stolen. -/
def Obligations.NoteonDropsAtCapacity : Prop :=
  ∀ (s : State) (ch : Chan) (n vel : Midi7), vel ≠ 0#7 → s.numActive = s.cfg.C →
    (∀ u < s.cfg.P, s.bound ⟨ch, u⟩ n = false) →
      ∃ t, exec (.noteon ch n vel) s = .next t ∧ s.SameEngine t ∧ s.NoOutput t ∧
        t.resp = some ⟨.dropped, 0#32⟩

/-- R148: NOTEON with velocity 0 is NOTEOFF. -/
def Obligations.NoteonVelocityZeroIsNoteoff : Prop :=
  ∀ (s : State) (ch : Chan) (n : Midi7), ∃ t,
    exec (.noteon ch n 0#7) s = .next t ∧ exec (.noteoff ch n) s = .next t

/-- R149, R131: NOTEOFF releases the least roster voice bound to the note and nothing else; with none bound it changes nothing. -/
def Obligations.NoteoffReleasesBoundVoice : Prop :=
  (∀ (s : State) (ch : Chan) (n : Midi7) (v : Nat), s.Shape → v < s.cfg.P →
    s.bound ⟨ch, v⟩ n = true → (∀ u < v, s.bound ⟨ch, u⟩ n = false) →
      ∃ t, exec (.noteoff ch n) s = .next t ∧
        t.voice ⟨ch, v⟩ = { s.voice ⟨ch, v⟩ with env := (s.voice ⟨ch, v⟩).env.release (s.param ch) } ∧
        (∀ id, id ≠ ⟨ch, v⟩ → t.voice id = s.voice id) ∧
        t.seqCtr = s.seqCtr ∧ t.slots = s.slots ∧ t.numActive = s.numActive ∧ s.VoicesOnly t ∧
        t.resp = some ⟨.ok, releasedData (s.voice ⟨ch, v⟩).idx v⟩) ∧
  (∀ (s : State) (ch : Chan) (n : Midi7), (∀ u < s.cfg.P, s.bound ⟨ch, u⟩ n = false) →
    ∃ t, exec (.noteoff ch n) s = .next t ∧ s.SameEngine t ∧ s.NoOutput t ∧
      t.resp = some ⟨.nomatch, 0#32⟩)

/-- R150: VOICEOFF answers BADARG for rv ≥ P and NOMATCH for an inactive voice, changing nothing, and else releases the named voice and nothing else. -/
def Obligations.VoiceoffReleasesNamedVoice : Prop :=
  ∀ (s : State) (ch : Chan) (rv : BitVec 8), s.Shape →
    (s.cfg.P ≤ rv.toNat → ∃ t, exec (.voiceoff ch rv) s = .next t ∧ s.SameEngine t ∧ s.NoOutput t ∧
      t.resp = some ⟨.badarg, 0#32⟩) ∧
    (rv.toNat < s.cfg.P → s.active ⟨ch, rv.toNat⟩ = false →
      ∃ t, exec (.voiceoff ch rv) s = .next t ∧ s.SameEngine t ∧ s.NoOutput t ∧
        t.resp = some ⟨.nomatch, 0#32⟩) ∧
    (rv.toNat < s.cfg.P → s.active ⟨ch, rv.toNat⟩ = true →
      ∃ t, exec (.voiceoff ch rv) s = .next t ∧
        t.voice ⟨ch, rv.toNat⟩ = { s.voice ⟨ch, rv.toNat⟩ with
          env := (s.voice ⟨ch, rv.toNat⟩).env.release (s.param ch) } ∧
        (∀ id, id ≠ ⟨ch, rv.toNat⟩ → t.voice id = s.voice id) ∧
        t.seqCtr = s.seqCtr ∧ t.slots = s.slots ∧ t.numActive = s.numActive ∧ s.VoicesOnly t ∧
        t.resp = some ⟨.ok, releasedData (s.voice ⟨ch, rv.toNat⟩).idx rv.toNat⟩)

/-- The first point of R151, the spec's own inference from R141 to R148: from an empty registry, k ≤ P notes of one channel, all different, all take the FREE path, and slots 0 to k−1 hold their voices in trigger order. -/
def Obligations.FreshNotesFillTheRegistry : Prop :=
  ∀ (s : State) (ch : Chan) (vel : Midi7) (notes : List Midi7), s.Inv → s.numActive = 0 →
    s.cfg.P ≤ s.cfg.C → vel ≠ 0#7 → notes.Nodup → notes.length ≤ s.cfg.P →
      ∃ t, execAll (notes.map fun n => .noteon ch n vel) s = .next t ∧
        t.numActive = notes.length ∧
        (∀ k < notes.length, t.slot k = some ⟨ch, k⟩ ∧ (t.voice ⟨ch, k⟩).idx = some k ∧
          some (t.voice ⟨ch, k⟩).note = notes[k]? ∧ (t.voice ⟨ch, k⟩).vel = vel) ∧
        (∀ k < s.cfg.C, notes.length ≤ k → t.slot k = none)

/-- The last points of R151 and R174, the spec's own inferences from R141 and R160: only CLEANUP and RENDER lower `numActive`; only NOTEON raises it, by one, the new slot holding a voice that was inactive. -/
def Obligations.WhoChangesNumActive : Prop :=
  ∀ (i : Instr) (s t : State), s.Shape → exec i s = .next t →
    (t.numActive < s.numActive → i = .cleanup ∨ i = .render) ∧
    (s.numActive < t.numActive → t.numActive = s.numActive + 1 ∧
      ∃ ch n vel v, i = .noteon ch n vel ∧ vel ≠ 0#7 ∧ v < s.cfg.P ∧ s.active ⟨ch, v⟩ = false ∧
        t.slot s.numActive = some ⟨ch, v⟩)

/-! ### Registry, frames, blocks -/

/-- CLEANUP (R160, R170) in the closed form of R161, which the spec marks as its own inference from R160 under the invariants: the voices that are not DONE keep their order, packed from slot 0; the others become inactive; nothing else of any voice changes. -/
def Obligations.CleanupCompactsTheRegistry : Prop :=
  ∀ s : State, s.Inv →
    let kept := s.activeIds.filter fun id => !s.isDone id
    ∃ t, exec .cleanup s = .next t ∧
      t.numActive = kept.length ∧
      (∀ k < kept.length, t.slot k = kept[k]?) ∧
      (∀ k < s.cfg.C, kept.length ≤ k → t.slot k = none) ∧
      (∀ k (h : k < kept.length), (t.voice kept[k]).idx = some k) ∧
      (∀ ch : Chan, ∀ v < s.cfg.P, ⟨ch, v⟩ ∉ kept → (t.voice ⟨ch, v⟩).idx = none) ∧
      (∀ id, t.voice id = { s.voice id with idx := (t.voice id).idx }) ∧
      t.seqCtr = s.seqCtr ∧ s.VoicesOnly t ∧
      t.resp = some ⟨.ok, removedData (s.activeIds.length - kept.length) kept.length⟩

/-- R162, R171: ADVANCE advances every active voice by one sample in slot order, emits a VF record for each and then FE(0), and changes nothing else. -/
def Obligations.AdvanceRunsOneFrame : Prop :=
  ∀ s : State, s.Inv →
    ∃ t, exec .advance s = .next t ∧
      t.outQ = s.outQ ++ s.frameWords 0 ∧ s.activeIds.length = s.numActive ∧
      (∀ id ∈ s.activeIds, t.voice id = { s.voice id with env := (s.voice id).env.next (s.param id.ch) }) ∧
      (∀ id, id ∉ s.activeIds → t.voice id = s.voice id) ∧
      t.seqCtr = s.seqCtr ∧ t.slots = s.slots ∧ t.numActive = s.numActive ∧ t.cfg = s.cfg ∧
      t.params = s.params ∧ t.err = s.err ∧ t.sequencer = s.sequencer ∧ t.inputs = s.inputs ∧
      t.trace = s.trace ∧ t.resp = some ⟨.ok, countData s.numActive⟩

/-- RENDER (R172, R59) is one cleanup pass and then F frames: the words of frames 0 to F−1 in order, every active voice F samples on, and no voice added or removed after the pass.
That the stored envelopes are F samples on, and the response is set, while the block's words still wait is the model's choice (log 2). -/
def Obligations.RenderRunsOneBlock : Prop :=
  ∀ s c : State, s.Inv → exec .cleanup s = .next c →
    ∃ t, exec .render s = .next t ∧
      t.outQ = s.outQ ++ (List.range s.cfg.F).flatMap c.frameWords ∧
      (∀ id ∈ c.activeIds, t.voice id = { c.voice id with env := c.envAfter id s.cfg.F }) ∧
      (∀ id, id ∉ c.activeIds → t.voice id = c.voice id) ∧
      t.seqCtr = s.seqCtr ∧ t.slots = c.slots ∧ t.numActive = c.numActive ∧ t.cfg = s.cfg ∧
      t.params = s.params ∧ t.err = s.err ∧ t.inputs = s.inputs ∧ t.trace = s.trace ∧
      t.resp = c.resp

/-- R172: the block's words are F FE records and F × numActive VF records, `numActive` taken after the cleanup. -/
def Obligations.RenderWordCounts : Prop :=
  ∀ s t : State, s.Inv → s.outQ = [] → exec .render s = .next t →
    feCount t.outQ = s.cfg.F ∧ t.outQ.length = s.cfg.F * (t.numActive + 1)

/-- From RENDER on the sequencer is in frame 0 of the block, words wait and the command port is not ready (R82, R172).
That the block is one transition and its words leave afterwards is the model's choice (log 2, log 3). -/
def Obligations.RenderKeepsThePortBusy : Prop :=
  ∀ s : State, s.cfg.valid →
    ∃ t i, exec .render s = .next t ∧ t.sequencer = .rendering 0#16 i ∧ t.outQ ≠ [] ∧ t.ready = false

/-- R173: RELEASEALL releases exactly the active voices in ATTACK or DECAY and counts them; it leaves every other voice and the registry as they are. -/
def Obligations.ReleaseallReleasesSoundingVoices : Prop :=
  ∀ s : State, s.Inv →
    let hit := s.activeIds.filter fun id => (s.voice id).env.sounding
    ∃ t, exec .releaseall s = .next t ∧
      (∀ id ∈ hit, t.voice id = { s.voice id with env := (s.voice id).env.release (s.param id.ch) }) ∧
      (∀ id, id ∉ hit → t.voice id = s.voice id) ∧
      t.seqCtr = s.seqCtr ∧ t.slots = s.slots ∧ t.numActive = s.numActive ∧ s.VoicesOnly t ∧
      t.resp = some ⟨.ok, countData hit.length⟩

/-! ### Host access -/

/-- R190: NOP responds OK with data 0 and changes nothing. -/
def Obligations.NopOnlyResponds : Prop :=
  ∀ s : State, exec .nop s = .next { s with resp := some ⟨.ok, 0#32⟩ }

/-- R54, R191: REGREAD changes nothing but the response, mapped address or not. -/
def Obligations.RegreadHasNoSideEffect : Prop :=
  ∀ (s : State) (a : BitVec 16), ∃ t r, exec (.regread a) s = .next t ∧
    t = { s with resp := some r } ∧ exec (.regread a) t = .next t

/-- R51, R52, R191: the word REGREAD answers at every mapped address, and BADARG with data 0 at every other. -/
def Obligations.RegreadFollowsTheMap : Prop :=
  ∀ (s : State) (a : BitVec 16), s.cfg.valid → s.numActive ≤ s.cfg.C →
    ∃ t c w, exec (.regread a) s = .next t ∧ t.resp = some ⟨c, w⟩ ∧
      (c = .ok ↔ regMapped s.cfg a) ∧ (¬ regMapped s.cfg a → c = .badarg ∧ w = 0#32) ∧
      (a = 0x0000#16 → w = if s.err then 1#32 else 0#32) ∧
      (a = 0x0001#16 → w.toNat = s.numActive) ∧
      (a = 0x0002#16 → w.toNat = s.cfg.C) ∧
      (a = 0x0003#16 → w.toNat = s.cfg.P) ∧
      (a = 0x0004#16 → w.toNat = s.cfg.F) ∧
      (a = 0x0005#16 → w = 0x00FFFFFF#32) ∧
      (a = 0x0006#16 → w.toNat = s.seqCtr.toNat % 2 ^ 32) ∧
      (a = 0x0007#16 → w.toNat = s.seqCtr.toNat / 2 ^ 32) ∧
      (∀ k < s.cfg.C, a.toNat = 0x100 + k → (s.slot k = none → w = 0#32) ∧
        ∀ id, s.slot k = some id → s.isVoice id → w.toNat = 2 ^ 31 + id.ch.toNat * 2 ^ 8 + id.rv) ∧
      (∀ ch : Chan,
        (a.toNat = 0x200 + 4 * ch.toNat + 0 → w.toNat = (s.param ch).attack.toNat) ∧
        (a.toNat = 0x200 + 4 * ch.toNat + 1 → w.toNat = (s.param ch).decay.toNat) ∧
        (a.toNat = 0x200 + 4 * ch.toNat + 2 → w.toNat = (s.param ch).sustain.toNat) ∧
        (a.toNat = 0x200 + 4 * ch.toNat + 3 → w.toNat = (s.param ch).release.toNat)) ∧
      (∀ (ch : Chan) (v : Nat), v < s.cfg.P →
        (a.toNat = 0x1000 + 256 * ch.toNat + v → w = vstatWord (s.voice ⟨ch, v⟩)) ∧
        (a.toNat = 0x2000 + 256 * ch.toNat + v → w.toNat = (s.voice ⟨ch, v⟩).env.lvl.toNat) ∧
        (a.toNat = 0x3000 + 256 * ch.toNat + v → w.toNat = (s.voice ⟨ch, v⟩).env.rem.toNat) ∧
        (a.toNat = 0x4000 + 256 * ch.toNat + v → w.toNat = (s.voice ⟨ch, v⟩).env.stp.toNat) ∧
        (a.toNat = 0x5000 + 256 * ch.toNat + v → w.toNat = (s.voice ⟨ch, v⟩).env.tgt.toNat) ∧
        (a.toNat = 0x6000 + 256 * ch.toNat + v → w.toNat = (s.voice ⟨ch, v⟩).seq.toNat % 2 ^ 32) ∧
        (a.toNat = 0x7000 + 256 * ch.toNat + v → w.toNat = (s.voice ⟨ch, v⟩).seq.toNat / 2 ^ 32))

/-- R51: every field of a VSTAT word lies where the map puts it, with SUSTAIN reported for DECAY with `rem = 0`. -/
def Obligations.VstatFields : Prop :=
  ∀ x : Voice, (∀ k ∈ x.idx, k < 255) →
    (vstatWord x).getLsbD 31 = x.idx.isSome ∧
    (vstatWord x).extractLsb' 28 3 =
      (match x.env.ph with
        | .attack => 0#3
        | .decay => if x.env.rem = 0#24 then 2#3 else 1#3
        | .release => 3#3
        | .done => 4#3) ∧
    (vstatWord x).extractLsb' 23 5 = 0#5 ∧
    (vstatWord x).extractLsb' 16 7 = x.note ∧
    (vstatWord x).getLsbD 15 = false ∧
    (vstatWord x).extractLsb' 8 7 = x.vel ∧
    (x.idx = none → (vstatWord x).extractLsb' 0 8 = 0xFF#8) ∧
    (∀ k ∈ x.idx, ((vstatWord x).extractLsb' 0 8).toNat = k)

/-- R84: every field of a VF record and of an FE record lies where the layout puts it. -/
def Obligations.OutputRecordFields : Prop :=
  (∀ (id : VoiceId) (x : Voice) (amp : Level) (k : Nat), id.rv < 256 → x.idx = some k → k < 255 →
    let w := vfWord id x amp
    w.extractLsb' 60 4 = 0#4 ∧ w.extractLsb' 56 4 = id.ch ∧ (w.extractLsb' 48 8).toNat = id.rv ∧
    (w.extractLsb' 40 8).toNat = k ∧ w.getLsbD 39 = false ∧ w.extractLsb' 32 7 = x.note ∧
    w.getLsbD 31 = false ∧ w.extractLsb' 24 7 = x.vel ∧ w.extractLsb' 0 24 = amp) ∧
  (∀ f < 65536, (feWord f).toNat = 2 ^ 63 + f)

/-- The numbers of the response codes (R83) and the layouts of response data (R85). -/
def Obligations.ResponseDataLayouts : Prop :=
  (∀ k v, k < 255 → v < 256 →
    (noteonData .free (some k) v).toNat = 0 * 2 ^ 30 + k * 2 ^ 8 + v ∧
    (noteonData .retrig (some k) v).toNat = 1 * 2 ^ 30 + k * 2 ^ 8 + v ∧
    (noteonData .steal (some k) v).toNat = 2 * 2 ^ 30 + k * 2 ^ 8 + v ∧
    (releasedData (some k) v).toNat = k * 2 ^ 8 + v) ∧
  (∀ r n, r < 256 → n < 256 → (removedData r n).toNat = r * 2 ^ 8 + n) ∧
  (∀ n, n < 256 → (countData n).toNat = n) ∧
  RespCode.ok.bits = 0#4 ∧ RespCode.ignored.bits = 1#4 ∧ RespCode.dropped.bits = 2#4 ∧
  RespCode.nomatch.bits = 3#4 ∧ RespCode.badarg.bits = 4#4

/-! ### The whole machine -/

/-- R200: every command runs to completion and leaves exactly one response; no step stops. -/
def Obligations.EveryCommandCompletes : Prop :=
  (∀ (i : Instr) (s : State), ∃ t r, exec i s = .next t ∧ t.resp = some r) ∧
  (∀ s : State, ∃ t, step s = .next t)

/-- R200, R83: a response other than OK changes nothing. -/
def Obligations.NonOkChangesNothing : Prop :=
  ∀ (i : Instr) (s t : State) (r : Response), exec i s = .next t → t.resp = some r → r.code ≠ .ok →
    s.SameEngine t ∧ s.NoOutput t

/-- R201, R203: the causes of each response code of a command, and the data of the codes other than OK. -/
def Obligations.CausesOfResponseCodes : Prop :=
  ∀ (i : Instr) (s t : State) (r : Response), s.Inv → exec i s = .next t → t.resp = some r →
    r.code ≠ .ignored ∧
    (r.code = .dropped ↔ ∃ ch n vel, i = .noteon ch n vel ∧ vel ≠ 0#7 ∧ s.numActive = s.cfg.C ∧
      ∀ v < s.cfg.P, s.bound ⟨ch, v⟩ n = false) ∧
    (r.code = .nomatch ↔ (∃ ch n, (i = .noteoff ch n ∨ i = .noteon ch n 0#7) ∧
        ∀ v < s.cfg.P, s.bound ⟨ch, v⟩ n = false) ∨
      (∃ ch rv, i = .voiceoff ch rv ∧ rv.toNat < s.cfg.P ∧ s.active ⟨ch, rv.toNat⟩ = false)) ∧
    (r.code = .badarg ↔ (∃ ch rv, i = .voiceoff ch rv ∧ s.cfg.P ≤ rv.toNat) ∨
      (∃ a, i = .regread a ∧ ¬ regMapped s.cfg a)) ∧
    (r.code ≠ .ok → r.data = 0#32)

/-- R84, R172: only ADVANCE and RENDER emit words, and a command's words follow those already waiting. -/
def Obligations.OnlyFramesEmitWords : Prop :=
  ∀ (i : Instr) (s t : State), exec i s = .next t →
    (∃ ws, t.outQ = s.outQ ++ ws) ∧ (t.outQ ≠ s.outQ → i = .advance ∨ i = .render)

/-- R33, R205: no command clears ERR. -/
def Obligations.ErrIsSticky : Prop :=
  ∀ (i : Instr) (s t : State), exec i s = .next t → s.err = true → t.err = true

/-- R202: where the check of a position fails, ADVANCE and RELEASEALL set ERR and skip the position: it gets no VF record and its voice is left as it is; CLEANUP sets ERR when it comes to such a position. -/
def Obligations.FailedCheckSetsErrAndSkips : Prop :=
  ∀ (s : State) (k : Nat), k < s.numActive →
    (∀ id, s.slot k = some id → (s.voice id).idx ≠ some k) →
      (∃ t, exec .advance s = .next t ∧ t.err = true ∧
        t.outQ.length = s.outQ.length +
          ((List.range s.numActive).filter fun j => (s.checkedSlot j).isSome).length + 1 ∧
        ∀ id, (∀ j < s.numActive, s.slot j = some id → (s.voice id).idx ≠ some j) →
          t.voice id = s.voice id) ∧
      (∃ t, exec .releaseall s = .next t ∧ t.err = true ∧
        ∀ id, (∀ j < s.numActive, s.slot j = some id → (s.voice id).idx ≠ some j) →
          t.voice id = s.voice id) ∧
      ((∀ j < k, ∃ id, s.slot j = some id ∧ (s.voice id).idx = some j ∧ s.isDone id = false) →
        ∃ t, exec .cleanup s = .next t ∧ t.err = true)

/-- The spec's own inference in R202 from R35 and R36: under the invariants the check is always true, so no step sets ERR. -/
def Obligations.ErrStaysClearUnderTheInvariants : Prop :=
  ∀ s t : State, s.Inv → s.err = false → step s = .next t → t.err = false

/-- R6, R34: no step changes C, P or F. -/
def Obligations.SizesNeverChange : Prop :=
  ∀ s t : State, step s = .next t → t.cfg = s.cfg

/-- The invariants R35 to R39 (the spec's own inferences) hold at reset, whatever the sizes. -/
def Obligations.InvariantsHoldAtReset : Prop :=
  ∀ g : Config, g.valid → (State.resetWith g).Inv ∧ (State.resetWith g).SequenceInv

/-- The invariants R35 to R38 (the spec's own inferences), with the lengths of the lists and the ports: every step, whatever the pins show, keeps them. -/
def Obligations.EveryStepKeepsTheInvariants : Prop :=
  ∀ s t : State, s.Inv → step s = .next t → t.Inv

/-- The invariant R39 (the spec's own inference from R27 and R146): while the counter has not come to its last value, every step keeps the sequence invariant. -/
def Obligations.EveryStepKeepsSequenceOrder : Prop :=
  ∀ s t : State, s.Inv → s.SequenceInv → s.seqCtr.toNat + 1 < 2 ^ 64 → step s = .next t → t.SequenceInv
end

