-- ==== Sys2Proof/Laws/Decode.lean ====
section
/-! SUPPORT. Decoding: a row of the opcode map is told by the opcode alone, the operand fields of a command's word, and a word's bytes (spec/30_encoding.md R71 to R78; spec/20_memory.md R55). -/

namespace Sys2Proof

theorem OpcodeRow.fits_iff (m : String) (b k : Word) (f : Word → Instr) (w : Word) :
    OpcodeRow.fits ⟨m, b, k, f⟩ w = true ↔ w &&& k = b := by
  simp [OpcodeRow.fits]

/-- A word that fits a row whose mask covers the opcode has the row's opcode (R71, R78). -/
theorem opOf_of_fits {w b k : Word} (h : w &&& k = b) (hk : opOf k = 0xF#4) : opOf w = opOf b := by
  subst h
  simp only [opOf] at *
  rw [BitVec.extractLsb'_and, hk]
  exact BitVec.and_allOnes.symm

/-- The four bytes of a word make the word again (R55). -/
theorem wordOfBytes_extract (w : Word) :
    wordOfBytes (w.extractLsb' 0 8) (w.extractLsb' 8 8) (w.extractLsb' 16 8)
      (w.extractLsb' 24 8) = w := by
  apply BitVec.eq_of_getLsbD_eq
  intro i hi
  simp only [wordOfBytes, BitVec.getLsbD_append, BitVec.getLsbD_extractLsb']
  split
  · simp [*]
  · split
    · simp only [*, decide_true, Bool.true_and]; congr 1; omega
    · split
      · simp only [*, decide_true, Bool.true_and]; congr 1; omega
      · rw [decide_eq_true (by omega), Bool.true_and]; congr 1; omega

@[simp] theorem chOf_encode_noteon (ch : Chan) (note : Midi7) (vel : Midi7) :
    chOf (encode (.noteon ch note vel)) = ch := by
  apply BitVec.eq_of_getLsbD_eq
  intro i hi
  simp only [encode, chOf, BitVec.getLsbD_append, BitVec.getLsbD_extractLsb']
  interval_cases i <;> simp

@[simp] theorem noteOf_encode_noteon (ch : Chan) (note : Midi7) (vel : Midi7) :
    noteOf (encode (.noteon ch note vel)) = note := by
  apply BitVec.eq_of_getLsbD_eq
  intro i hi
  simp only [encode, noteOf, BitVec.getLsbD_append, BitVec.getLsbD_extractLsb']
  interval_cases i <;> simp

@[simp] theorem velOf_encode_noteon (ch : Chan) (note : Midi7) (vel : Midi7) :
    velOf (encode (.noteon ch note vel)) = vel := by
  apply BitVec.eq_of_getLsbD_eq
  intro i hi
  simp only [encode, velOf, BitVec.getLsbD_append, BitVec.getLsbD_extractLsb']
  interval_cases i <;> simp

@[simp] theorem chOf_encode_noteoff (ch : Chan) (note : Midi7) :
    chOf (encode (.noteoff ch note)) = ch := by
  apply BitVec.eq_of_getLsbD_eq
  intro i hi
  simp only [encode, chOf, BitVec.getLsbD_append, BitVec.getLsbD_extractLsb']
  interval_cases i <;> simp

@[simp] theorem noteOf_encode_noteoff (ch : Chan) (note : Midi7) :
    noteOf (encode (.noteoff ch note)) = note := by
  apply BitVec.eq_of_getLsbD_eq
  intro i hi
  simp only [encode, noteOf, BitVec.getLsbD_append, BitVec.getLsbD_extractLsb']
  interval_cases i <;> simp

@[simp] theorem chOf_encode_voiceoff (ch : Chan) (rv : BitVec 8) :
    chOf (encode (.voiceoff ch rv)) = ch := by
  apply BitVec.eq_of_getLsbD_eq
  intro i hi
  simp only [encode, chOf, BitVec.getLsbD_append, BitVec.getLsbD_extractLsb']
  interval_cases i <;> simp

@[simp] theorem rvOf_encode_voiceoff (ch : Chan) (rv : BitVec 8) :
    rvOf (encode (.voiceoff ch rv)) = rv := by
  apply BitVec.eq_of_getLsbD_eq
  intro i hi
  simp only [encode, rvOf, BitVec.getLsbD_append, BitVec.getLsbD_extractLsb']
  interval_cases i <;> simp

@[simp] theorem chOf_encode_seta (ch : Chan) (val : Level) :
    chOf (encode (.seta ch val)) = ch := by
  apply BitVec.eq_of_getLsbD_eq
  intro i hi
  simp only [encode, chOf, BitVec.getLsbD_append, BitVec.getLsbD_extractLsb']
  interval_cases i <;> simp

@[simp] theorem valOf_encode_seta (ch : Chan) (val : Level) :
    valOf (encode (.seta ch val)) = val := by
  apply BitVec.eq_of_getLsbD_eq
  intro i hi
  simp only [encode, valOf, BitVec.getLsbD_append, BitVec.getLsbD_extractLsb']
  interval_cases i <;> simp

@[simp] theorem chOf_encode_setd (ch : Chan) (val : Level) :
    chOf (encode (.setd ch val)) = ch := by
  apply BitVec.eq_of_getLsbD_eq
  intro i hi
  simp only [encode, chOf, BitVec.getLsbD_append, BitVec.getLsbD_extractLsb']
  interval_cases i <;> simp

@[simp] theorem valOf_encode_setd (ch : Chan) (val : Level) :
    valOf (encode (.setd ch val)) = val := by
  apply BitVec.eq_of_getLsbD_eq
  intro i hi
  simp only [encode, valOf, BitVec.getLsbD_append, BitVec.getLsbD_extractLsb']
  interval_cases i <;> simp

@[simp] theorem chOf_encode_sets (ch : Chan) (val : Level) :
    chOf (encode (.sets ch val)) = ch := by
  apply BitVec.eq_of_getLsbD_eq
  intro i hi
  simp only [encode, chOf, BitVec.getLsbD_append, BitVec.getLsbD_extractLsb']
  interval_cases i <;> simp

@[simp] theorem valOf_encode_sets (ch : Chan) (val : Level) :
    valOf (encode (.sets ch val)) = val := by
  apply BitVec.eq_of_getLsbD_eq
  intro i hi
  simp only [encode, valOf, BitVec.getLsbD_append, BitVec.getLsbD_extractLsb']
  interval_cases i <;> simp

@[simp] theorem chOf_encode_setr (ch : Chan) (val : Level) :
    chOf (encode (.setr ch val)) = ch := by
  apply BitVec.eq_of_getLsbD_eq
  intro i hi
  simp only [encode, chOf, BitVec.getLsbD_append, BitVec.getLsbD_extractLsb']
  interval_cases i <;> simp

@[simp] theorem valOf_encode_setr (ch : Chan) (val : Level) :
    valOf (encode (.setr ch val)) = val := by
  apply BitVec.eq_of_getLsbD_eq
  intro i hi
  simp only [encode, valOf, BitVec.getLsbD_append, BitVec.getLsbD_extractLsb']
  interval_cases i <;> simp

@[simp] theorem addrOf_encode_regread (addr : BitVec 16) :
    addrOf (encode (.regread addr)) = addr := by
  apply BitVec.eq_of_getLsbD_eq
  intro i hi
  simp only [encode, addrOf, BitVec.getLsbD_append, BitVec.getLsbD_extractLsb']
  interval_cases i <;> simp

end Sys2Proof
end

