-- ==== Sys2Proof/Laws/State.lean ====
section
/-! SUPPORT. One lemma per field per update of State, each true by rfl, so that no later proof unfolds a record update. -/

namespace Sys2Proof.Machine

/-! ### setVoice -/

@[simp] theorem State.setVoice_cfg (s : State) (id : VoiceId) (x : Voice) :
    (s.setVoice id x).cfg = s.cfg := rfl

@[simp] theorem State.setVoice_seqCtr (s : State) (id : VoiceId) (x : Voice) :
    (s.setVoice id x).seqCtr = s.seqCtr := rfl

@[simp] theorem State.setVoice_slots (s : State) (id : VoiceId) (x : Voice) :
    (s.setVoice id x).slots = s.slots := rfl

@[simp] theorem State.setVoice_numActive (s : State) (id : VoiceId) (x : Voice) :
    (s.setVoice id x).numActive = s.numActive := rfl

@[simp] theorem State.setVoice_params (s : State) (id : VoiceId) (x : Voice) :
    (s.setVoice id x).params = s.params := rfl

@[simp] theorem State.setVoice_err (s : State) (id : VoiceId) (x : Voice) :
    (s.setVoice id x).err = s.err := rfl

@[simp] theorem State.setVoice_sequencer (s : State) (id : VoiceId) (x : Voice) :
    (s.setVoice id x).sequencer = s.sequencer := rfl

@[simp] theorem State.setVoice_outQ (s : State) (id : VoiceId) (x : Voice) :
    (s.setVoice id x).outQ = s.outQ := rfl

@[simp] theorem State.setVoice_resp (s : State) (id : VoiceId) (x : Voice) :
    (s.setVoice id x).resp = s.resp := rfl

@[simp] theorem State.setVoice_inputs (s : State) (id : VoiceId) (x : Voice) :
    (s.setVoice id x).inputs = s.inputs := rfl

@[simp] theorem State.setVoice_trace (s : State) (id : VoiceId) (x : Voice) :
    (s.setVoice id x).trace = s.trace := rfl

/-! ### setEnv -/

@[simp] theorem State.setEnv_cfg (s : State) (id : VoiceId) (e : Envelope) :
    (s.setEnv id e).cfg = s.cfg := rfl

@[simp] theorem State.setEnv_seqCtr (s : State) (id : VoiceId) (e : Envelope) :
    (s.setEnv id e).seqCtr = s.seqCtr := rfl

@[simp] theorem State.setEnv_slots (s : State) (id : VoiceId) (e : Envelope) :
    (s.setEnv id e).slots = s.slots := rfl

@[simp] theorem State.setEnv_numActive (s : State) (id : VoiceId) (e : Envelope) :
    (s.setEnv id e).numActive = s.numActive := rfl

@[simp] theorem State.setEnv_params (s : State) (id : VoiceId) (e : Envelope) :
    (s.setEnv id e).params = s.params := rfl

@[simp] theorem State.setEnv_err (s : State) (id : VoiceId) (e : Envelope) :
    (s.setEnv id e).err = s.err := rfl

@[simp] theorem State.setEnv_sequencer (s : State) (id : VoiceId) (e : Envelope) :
    (s.setEnv id e).sequencer = s.sequencer := rfl

@[simp] theorem State.setEnv_outQ (s : State) (id : VoiceId) (e : Envelope) :
    (s.setEnv id e).outQ = s.outQ := rfl

@[simp] theorem State.setEnv_resp (s : State) (id : VoiceId) (e : Envelope) :
    (s.setEnv id e).resp = s.resp := rfl

@[simp] theorem State.setEnv_inputs (s : State) (id : VoiceId) (e : Envelope) :
    (s.setEnv id e).inputs = s.inputs := rfl

@[simp] theorem State.setEnv_trace (s : State) (id : VoiceId) (e : Envelope) :
    (s.setEnv id e).trace = s.trace := rfl

/-! ### setIdx -/

@[simp] theorem State.setIdx_cfg (s : State) (id : VoiceId) (k : Option Nat) :
    (s.setIdx id k).cfg = s.cfg := rfl

@[simp] theorem State.setIdx_seqCtr (s : State) (id : VoiceId) (k : Option Nat) :
    (s.setIdx id k).seqCtr = s.seqCtr := rfl

@[simp] theorem State.setIdx_slots (s : State) (id : VoiceId) (k : Option Nat) :
    (s.setIdx id k).slots = s.slots := rfl

@[simp] theorem State.setIdx_numActive (s : State) (id : VoiceId) (k : Option Nat) :
    (s.setIdx id k).numActive = s.numActive := rfl

@[simp] theorem State.setIdx_params (s : State) (id : VoiceId) (k : Option Nat) :
    (s.setIdx id k).params = s.params := rfl

@[simp] theorem State.setIdx_err (s : State) (id : VoiceId) (k : Option Nat) :
    (s.setIdx id k).err = s.err := rfl

@[simp] theorem State.setIdx_sequencer (s : State) (id : VoiceId) (k : Option Nat) :
    (s.setIdx id k).sequencer = s.sequencer := rfl

@[simp] theorem State.setIdx_outQ (s : State) (id : VoiceId) (k : Option Nat) :
    (s.setIdx id k).outQ = s.outQ := rfl

@[simp] theorem State.setIdx_resp (s : State) (id : VoiceId) (k : Option Nat) :
    (s.setIdx id k).resp = s.resp := rfl

@[simp] theorem State.setIdx_inputs (s : State) (id : VoiceId) (k : Option Nat) :
    (s.setIdx id k).inputs = s.inputs := rfl

@[simp] theorem State.setIdx_trace (s : State) (id : VoiceId) (k : Option Nat) :
    (s.setIdx id k).trace = s.trace := rfl

/-! ### setSlot -/

@[simp] theorem State.setSlot_cfg (s : State) (k : Nat) (x : Option VoiceId) :
    (s.setSlot k x).cfg = s.cfg := rfl

@[simp] theorem State.setSlot_rosters (s : State) (k : Nat) (x : Option VoiceId) :
    (s.setSlot k x).rosters = s.rosters := rfl

@[simp] theorem State.setSlot_seqCtr (s : State) (k : Nat) (x : Option VoiceId) :
    (s.setSlot k x).seqCtr = s.seqCtr := rfl

@[simp] theorem State.setSlot_slots (s : State) (k : Nat) (x : Option VoiceId) :
    (s.setSlot k x).slots = s.slots.set k x := rfl

@[simp] theorem State.setSlot_numActive (s : State) (k : Nat) (x : Option VoiceId) :
    (s.setSlot k x).numActive = s.numActive := rfl

@[simp] theorem State.setSlot_params (s : State) (k : Nat) (x : Option VoiceId) :
    (s.setSlot k x).params = s.params := rfl

@[simp] theorem State.setSlot_err (s : State) (k : Nat) (x : Option VoiceId) :
    (s.setSlot k x).err = s.err := rfl

@[simp] theorem State.setSlot_sequencer (s : State) (k : Nat) (x : Option VoiceId) :
    (s.setSlot k x).sequencer = s.sequencer := rfl

@[simp] theorem State.setSlot_outQ (s : State) (k : Nat) (x : Option VoiceId) :
    (s.setSlot k x).outQ = s.outQ := rfl

@[simp] theorem State.setSlot_resp (s : State) (k : Nat) (x : Option VoiceId) :
    (s.setSlot k x).resp = s.resp := rfl

@[simp] theorem State.setSlot_inputs (s : State) (k : Nat) (x : Option VoiceId) :
    (s.setSlot k x).inputs = s.inputs := rfl

@[simp] theorem State.setSlot_trace (s : State) (k : Nat) (x : Option VoiceId) :
    (s.setSlot k x).trace = s.trace := rfl

/-! ### setParam -/

@[simp] theorem State.setParam_cfg (s : State) (ch : Chan) (p : EnvParams) :
    (s.setParam ch p).cfg = s.cfg := rfl

@[simp] theorem State.setParam_rosters (s : State) (ch : Chan) (p : EnvParams) :
    (s.setParam ch p).rosters = s.rosters := rfl

@[simp] theorem State.setParam_seqCtr (s : State) (ch : Chan) (p : EnvParams) :
    (s.setParam ch p).seqCtr = s.seqCtr := rfl

@[simp] theorem State.setParam_slots (s : State) (ch : Chan) (p : EnvParams) :
    (s.setParam ch p).slots = s.slots := rfl

@[simp] theorem State.setParam_numActive (s : State) (ch : Chan) (p : EnvParams) :
    (s.setParam ch p).numActive = s.numActive := rfl

@[simp] theorem State.setParam_params (s : State) (ch : Chan) (p : EnvParams) :
    (s.setParam ch p).params = s.params.set ch.toNat p := rfl

@[simp] theorem State.setParam_err (s : State) (ch : Chan) (p : EnvParams) :
    (s.setParam ch p).err = s.err := rfl

@[simp] theorem State.setParam_sequencer (s : State) (ch : Chan) (p : EnvParams) :
    (s.setParam ch p).sequencer = s.sequencer := rfl

@[simp] theorem State.setParam_outQ (s : State) (ch : Chan) (p : EnvParams) :
    (s.setParam ch p).outQ = s.outQ := rfl

@[simp] theorem State.setParam_resp (s : State) (ch : Chan) (p : EnvParams) :
    (s.setParam ch p).resp = s.resp := rfl

@[simp] theorem State.setParam_inputs (s : State) (ch : Chan) (p : EnvParams) :
    (s.setParam ch p).inputs = s.inputs := rfl

@[simp] theorem State.setParam_trace (s : State) (ch : Chan) (p : EnvParams) :
    (s.setParam ch p).trace = s.trace := rfl

/-! ### bump -/

@[simp] theorem State.bump_cfg (s : State) (id : VoiceId) :
    (s.bump id).cfg = s.cfg := rfl

@[simp] theorem State.bump_seqCtr (s : State) (id : VoiceId) :
    (s.bump id).seqCtr = s.seqCtr + 1#64 := rfl

@[simp] theorem State.bump_slots (s : State) (id : VoiceId) :
    (s.bump id).slots = s.slots := rfl

@[simp] theorem State.bump_numActive (s : State) (id : VoiceId) :
    (s.bump id).numActive = s.numActive := rfl

@[simp] theorem State.bump_params (s : State) (id : VoiceId) :
    (s.bump id).params = s.params := rfl

@[simp] theorem State.bump_err (s : State) (id : VoiceId) :
    (s.bump id).err = s.err := rfl

@[simp] theorem State.bump_sequencer (s : State) (id : VoiceId) :
    (s.bump id).sequencer = s.sequencer := rfl

@[simp] theorem State.bump_outQ (s : State) (id : VoiceId) :
    (s.bump id).outQ = s.outQ := rfl

@[simp] theorem State.bump_resp (s : State) (id : VoiceId) :
    (s.bump id).resp = s.resp := rfl

@[simp] theorem State.bump_inputs (s : State) (id : VoiceId) :
    (s.bump id).inputs = s.inputs := rfl

@[simp] theorem State.bump_trace (s : State) (id : VoiceId) :
    (s.bump id).trace = s.trace := rfl

/-! ### emit -/

@[simp] theorem State.emit_cfg (s : State) (w : OutWord) :
    (s.emit w).cfg = s.cfg := rfl

@[simp] theorem State.emit_rosters (s : State) (w : OutWord) :
    (s.emit w).rosters = s.rosters := rfl

@[simp] theorem State.emit_seqCtr (s : State) (w : OutWord) :
    (s.emit w).seqCtr = s.seqCtr := rfl

@[simp] theorem State.emit_slots (s : State) (w : OutWord) :
    (s.emit w).slots = s.slots := rfl

@[simp] theorem State.emit_numActive (s : State) (w : OutWord) :
    (s.emit w).numActive = s.numActive := rfl

@[simp] theorem State.emit_params (s : State) (w : OutWord) :
    (s.emit w).params = s.params := rfl

@[simp] theorem State.emit_err (s : State) (w : OutWord) :
    (s.emit w).err = s.err := rfl

@[simp] theorem State.emit_sequencer (s : State) (w : OutWord) :
    (s.emit w).sequencer = s.sequencer := rfl

@[simp] theorem State.emit_outQ (s : State) (w : OutWord) :
    (s.emit w).outQ = s.outQ ++ [w] := rfl

@[simp] theorem State.emit_resp (s : State) (w : OutWord) :
    (s.emit w).resp = s.resp := rfl

@[simp] theorem State.emit_inputs (s : State) (w : OutWord) :
    (s.emit w).inputs = s.inputs := rfl

@[simp] theorem State.emit_trace (s : State) (w : OutWord) :
    (s.emit w).trace = s.trace := rfl

/-! ### respond -/

@[simp] theorem State.respond_cfg (s : State) (c : RespCode) (d : Word) :
    (s.respond c d).cfg = s.cfg := rfl

@[simp] theorem State.respond_rosters (s : State) (c : RespCode) (d : Word) :
    (s.respond c d).rosters = s.rosters := rfl

@[simp] theorem State.respond_seqCtr (s : State) (c : RespCode) (d : Word) :
    (s.respond c d).seqCtr = s.seqCtr := rfl

@[simp] theorem State.respond_slots (s : State) (c : RespCode) (d : Word) :
    (s.respond c d).slots = s.slots := rfl

@[simp] theorem State.respond_numActive (s : State) (c : RespCode) (d : Word) :
    (s.respond c d).numActive = s.numActive := rfl

@[simp] theorem State.respond_params (s : State) (c : RespCode) (d : Word) :
    (s.respond c d).params = s.params := rfl

@[simp] theorem State.respond_err (s : State) (c : RespCode) (d : Word) :
    (s.respond c d).err = s.err := rfl

@[simp] theorem State.respond_sequencer (s : State) (c : RespCode) (d : Word) :
    (s.respond c d).sequencer = s.sequencer := rfl

@[simp] theorem State.respond_outQ (s : State) (c : RespCode) (d : Word) :
    (s.respond c d).outQ = s.outQ := rfl

@[simp] theorem State.respond_resp (s : State) (c : RespCode) (d : Word) :
    (s.respond c d).resp = some ⟨c, d⟩ := rfl

@[simp] theorem State.respond_inputs (s : State) (c : RespCode) (d : Word) :
    (s.respond c d).inputs = s.inputs := rfl

@[simp] theorem State.respond_trace (s : State) (c : RespCode) (d : Word) :
    (s.respond c d).trace = s.trace := rfl

/-! ### handWord -/

@[simp] theorem State.handWord_cfg (s : State) (w : OutWord) (ws : List OutWord) :
    (s.handWord w ws).cfg = s.cfg := rfl

@[simp] theorem State.handWord_rosters (s : State) (w : OutWord) (ws : List OutWord) :
    (s.handWord w ws).rosters = s.rosters := rfl

@[simp] theorem State.handWord_seqCtr (s : State) (w : OutWord) (ws : List OutWord) :
    (s.handWord w ws).seqCtr = s.seqCtr := rfl

@[simp] theorem State.handWord_slots (s : State) (w : OutWord) (ws : List OutWord) :
    (s.handWord w ws).slots = s.slots := rfl

@[simp] theorem State.handWord_numActive (s : State) (w : OutWord) (ws : List OutWord) :
    (s.handWord w ws).numActive = s.numActive := rfl

@[simp] theorem State.handWord_params (s : State) (w : OutWord) (ws : List OutWord) :
    (s.handWord w ws).params = s.params := rfl

@[simp] theorem State.handWord_err (s : State) (w : OutWord) (ws : List OutWord) :
    (s.handWord w ws).err = s.err := rfl

@[simp] theorem State.handWord_sequencer (s : State) (w : OutWord) (ws : List OutWord) :
    (s.handWord w ws).sequencer = s.sequencer.afterWord w ws s.numActive := rfl

@[simp] theorem State.handWord_outQ (s : State) (w : OutWord) (ws : List OutWord) :
    (s.handWord w ws).outQ = ws := rfl

@[simp] theorem State.handWord_resp (s : State) (w : OutWord) (ws : List OutWord) :
    (s.handWord w ws).resp = s.resp := rfl

@[simp] theorem State.handWord_inputs (s : State) (w : OutWord) (ws : List OutWord) :
    (s.handWord w ws).inputs = s.inputs := rfl

@[simp] theorem State.handWord_trace (s : State) (w : OutWord) (ws : List OutWord) :
    (s.handWord w ws).trace = s.trace ++ [Event.output w] := rfl

/-! ### handResponse -/

@[simp] theorem State.handResponse_cfg (s : State) (r : Response) :
    (s.handResponse r).cfg = s.cfg := rfl

@[simp] theorem State.handResponse_rosters (s : State) (r : Response) :
    (s.handResponse r).rosters = s.rosters := rfl

@[simp] theorem State.handResponse_seqCtr (s : State) (r : Response) :
    (s.handResponse r).seqCtr = s.seqCtr := rfl

@[simp] theorem State.handResponse_slots (s : State) (r : Response) :
    (s.handResponse r).slots = s.slots := rfl

@[simp] theorem State.handResponse_numActive (s : State) (r : Response) :
    (s.handResponse r).numActive = s.numActive := rfl

@[simp] theorem State.handResponse_params (s : State) (r : Response) :
    (s.handResponse r).params = s.params := rfl

@[simp] theorem State.handResponse_err (s : State) (r : Response) :
    (s.handResponse r).err = s.err := rfl

@[simp] theorem State.handResponse_sequencer (s : State) (r : Response) :
    (s.handResponse r).sequencer = s.sequencer := rfl

@[simp] theorem State.handResponse_outQ (s : State) (r : Response) :
    (s.handResponse r).outQ = s.outQ := rfl

@[simp] theorem State.handResponse_resp (s : State) (r : Response) :
    (s.handResponse r).resp = none := rfl

@[simp] theorem State.handResponse_inputs (s : State) (r : Response) :
    (s.handResponse r).inputs = s.inputs := rfl

@[simp] theorem State.handResponse_trace (s : State) (r : Response) :
    (s.handResponse r).trace = s.trace ++ [Event.response r] := rfl

/-! ### raiseInvariantError -/

@[simp] theorem State.raiseInvariantError_cfg (s : State) :
    s.raiseInvariantError.cfg = s.cfg := rfl

@[simp] theorem State.raiseInvariantError_rosters (s : State) :
    s.raiseInvariantError.rosters = s.rosters := rfl

@[simp] theorem State.raiseInvariantError_seqCtr (s : State) :
    s.raiseInvariantError.seqCtr = s.seqCtr := rfl

@[simp] theorem State.raiseInvariantError_slots (s : State) :
    s.raiseInvariantError.slots = s.slots := rfl

@[simp] theorem State.raiseInvariantError_numActive (s : State) :
    s.raiseInvariantError.numActive = s.numActive := rfl

@[simp] theorem State.raiseInvariantError_params (s : State) :
    s.raiseInvariantError.params = s.params := rfl

@[simp] theorem State.raiseInvariantError_err (s : State) :
    s.raiseInvariantError.err = true := rfl

@[simp] theorem State.raiseInvariantError_sequencer (s : State) :
    s.raiseInvariantError.sequencer = s.sequencer := rfl

@[simp] theorem State.raiseInvariantError_outQ (s : State) :
    s.raiseInvariantError.outQ = s.outQ := rfl

@[simp] theorem State.raiseInvariantError_resp (s : State) :
    s.raiseInvariantError.resp = s.resp := rfl

@[simp] theorem State.raiseInvariantError_inputs (s : State) :
    s.raiseInvariantError.inputs = s.inputs := rfl

@[simp] theorem State.raiseInvariantError_trace (s : State) :
    s.raiseInvariantError.trace = s.trace := rfl

/-! ### attack -/

@[simp] theorem State.attack_cfg (s : State) (id : VoiceId) :
    (s.attack id).cfg = s.cfg := rfl

@[simp] theorem State.attack_seqCtr (s : State) (id : VoiceId) :
    (s.attack id).seqCtr = s.seqCtr := rfl

@[simp] theorem State.attack_slots (s : State) (id : VoiceId) :
    (s.attack id).slots = s.slots := rfl

@[simp] theorem State.attack_numActive (s : State) (id : VoiceId) :
    (s.attack id).numActive = s.numActive := rfl

@[simp] theorem State.attack_params (s : State) (id : VoiceId) :
    (s.attack id).params = s.params := rfl

@[simp] theorem State.attack_err (s : State) (id : VoiceId) :
    (s.attack id).err = s.err := rfl

@[simp] theorem State.attack_sequencer (s : State) (id : VoiceId) :
    (s.attack id).sequencer = s.sequencer := rfl

@[simp] theorem State.attack_outQ (s : State) (id : VoiceId) :
    (s.attack id).outQ = s.outQ := rfl

@[simp] theorem State.attack_resp (s : State) (id : VoiceId) :
    (s.attack id).resp = s.resp := rfl

@[simp] theorem State.attack_inputs (s : State) (id : VoiceId) :
    (s.attack id).inputs = s.inputs := rfl

@[simp] theorem State.attack_trace (s : State) (id : VoiceId) :
    (s.attack id).trace = s.trace := rfl

/-! ### release -/

@[simp] theorem State.release_cfg (s : State) (id : VoiceId) :
    (s.release id).cfg = s.cfg := rfl

@[simp] theorem State.release_seqCtr (s : State) (id : VoiceId) :
    (s.release id).seqCtr = s.seqCtr := rfl

@[simp] theorem State.release_slots (s : State) (id : VoiceId) :
    (s.release id).slots = s.slots := rfl

@[simp] theorem State.release_numActive (s : State) (id : VoiceId) :
    (s.release id).numActive = s.numActive := rfl

@[simp] theorem State.release_params (s : State) (id : VoiceId) :
    (s.release id).params = s.params := rfl

@[simp] theorem State.release_err (s : State) (id : VoiceId) :
    (s.release id).err = s.err := rfl

@[simp] theorem State.release_sequencer (s : State) (id : VoiceId) :
    (s.release id).sequencer = s.sequencer := rfl

@[simp] theorem State.release_outQ (s : State) (id : VoiceId) :
    (s.release id).outQ = s.outQ := rfl

@[simp] theorem State.release_resp (s : State) (id : VoiceId) :
    (s.release id).resp = s.resp := rfl

@[simp] theorem State.release_inputs (s : State) (id : VoiceId) :
    (s.release id).inputs = s.inputs := rfl

@[simp] theorem State.release_trace (s : State) (id : VoiceId) :
    (s.release id).trace = s.trace := rfl

/-! ### noteonVoice -/

@[simp] theorem State.noteonVoice_cfg (s : State) (id : VoiceId) (n vel : Midi7) :
    (s.noteonVoice id n vel).cfg = s.cfg := rfl

@[simp] theorem State.noteonVoice_seqCtr (s : State) (id : VoiceId) (n vel : Midi7) :
    (s.noteonVoice id n vel).seqCtr = s.seqCtr := rfl

@[simp] theorem State.noteonVoice_slots (s : State) (id : VoiceId) (n vel : Midi7) :
    (s.noteonVoice id n vel).slots = s.slots := rfl

@[simp] theorem State.noteonVoice_numActive (s : State) (id : VoiceId) (n vel : Midi7) :
    (s.noteonVoice id n vel).numActive = s.numActive := rfl

@[simp] theorem State.noteonVoice_params (s : State) (id : VoiceId) (n vel : Midi7) :
    (s.noteonVoice id n vel).params = s.params := rfl

@[simp] theorem State.noteonVoice_err (s : State) (id : VoiceId) (n vel : Midi7) :
    (s.noteonVoice id n vel).err = s.err := rfl

@[simp] theorem State.noteonVoice_sequencer (s : State) (id : VoiceId) (n vel : Midi7) :
    (s.noteonVoice id n vel).sequencer = s.sequencer := rfl

@[simp] theorem State.noteonVoice_outQ (s : State) (id : VoiceId) (n vel : Midi7) :
    (s.noteonVoice id n vel).outQ = s.outQ := rfl

@[simp] theorem State.noteonVoice_resp (s : State) (id : VoiceId) (n vel : Midi7) :
    (s.noteonVoice id n vel).resp = s.resp := rfl

@[simp] theorem State.noteonVoice_inputs (s : State) (id : VoiceId) (n vel : Midi7) :
    (s.noteonVoice id n vel).inputs = s.inputs := rfl

@[simp] theorem State.noteonVoice_trace (s : State) (id : VoiceId) (n vel : Midi7) :
    (s.noteonVoice id n vel).trace = s.trace := rfl

/-! ### noteoffVoice -/

@[simp] theorem State.noteoffVoice_cfg (s : State) (id : VoiceId) :
    (s.noteoffVoice id).cfg = s.cfg := rfl

@[simp] theorem State.noteoffVoice_seqCtr (s : State) (id : VoiceId) :
    (s.noteoffVoice id).seqCtr = s.seqCtr := rfl

@[simp] theorem State.noteoffVoice_slots (s : State) (id : VoiceId) :
    (s.noteoffVoice id).slots = s.slots := rfl

@[simp] theorem State.noteoffVoice_numActive (s : State) (id : VoiceId) :
    (s.noteoffVoice id).numActive = s.numActive := rfl

@[simp] theorem State.noteoffVoice_params (s : State) (id : VoiceId) :
    (s.noteoffVoice id).params = s.params := rfl

@[simp] theorem State.noteoffVoice_err (s : State) (id : VoiceId) :
    (s.noteoffVoice id).err = s.err := rfl

@[simp] theorem State.noteoffVoice_sequencer (s : State) (id : VoiceId) :
    (s.noteoffVoice id).sequencer = s.sequencer := rfl

@[simp] theorem State.noteoffVoice_outQ (s : State) (id : VoiceId) :
    (s.noteoffVoice id).outQ = s.outQ := rfl

@[simp] theorem State.noteoffVoice_resp (s : State) (id : VoiceId) :
    (s.noteoffVoice id).resp = s.resp := rfl

@[simp] theorem State.noteoffVoice_inputs (s : State) (id : VoiceId) :
    (s.noteoffVoice id).inputs = s.inputs := rfl

@[simp] theorem State.noteoffVoice_trace (s : State) (id : VoiceId) :
    (s.noteoffVoice id).trace = s.trace := rfl

/-! ### takeSlot -/

@[simp] theorem State.takeSlot_cfg (s : State) (id : VoiceId) :
    (s.takeSlot id).cfg = s.cfg := rfl

@[simp] theorem State.takeSlot_seqCtr (s : State) (id : VoiceId) :
    (s.takeSlot id).seqCtr = s.seqCtr := rfl

@[simp] theorem State.takeSlot_slots (s : State) (id : VoiceId) :
    (s.takeSlot id).slots = s.slots.set s.numActive (some id) := rfl

@[simp] theorem State.takeSlot_numActive (s : State) (id : VoiceId) :
    (s.takeSlot id).numActive = s.numActive + 1 := rfl

@[simp] theorem State.takeSlot_params (s : State) (id : VoiceId) :
    (s.takeSlot id).params = s.params := rfl

@[simp] theorem State.takeSlot_err (s : State) (id : VoiceId) :
    (s.takeSlot id).err = s.err := rfl

@[simp] theorem State.takeSlot_sequencer (s : State) (id : VoiceId) :
    (s.takeSlot id).sequencer = s.sequencer := rfl

@[simp] theorem State.takeSlot_outQ (s : State) (id : VoiceId) :
    (s.takeSlot id).outQ = s.outQ := rfl

@[simp] theorem State.takeSlot_resp (s : State) (id : VoiceId) :
    (s.takeSlot id).resp = s.resp := rfl

@[simp] theorem State.takeSlot_inputs (s : State) (id : VoiceId) :
    (s.takeSlot id).inputs = s.inputs := rfl

@[simp] theorem State.takeSlot_trace (s : State) (id : VoiceId) :
    (s.takeSlot id).trace = s.trace := rfl

/-! ### nextframe -/

@[simp] theorem State.nextframe_cfg (s : State) (id : VoiceId) :
    (s.nextframe id).cfg = s.cfg := rfl

@[simp] theorem State.nextframe_seqCtr (s : State) (id : VoiceId) :
    (s.nextframe id).seqCtr = s.seqCtr := rfl

@[simp] theorem State.nextframe_slots (s : State) (id : VoiceId) :
    (s.nextframe id).slots = s.slots := rfl

@[simp] theorem State.nextframe_numActive (s : State) (id : VoiceId) :
    (s.nextframe id).numActive = s.numActive := rfl

@[simp] theorem State.nextframe_params (s : State) (id : VoiceId) :
    (s.nextframe id).params = s.params := rfl

@[simp] theorem State.nextframe_err (s : State) (id : VoiceId) :
    (s.nextframe id).err = s.err := rfl

@[simp] theorem State.nextframe_sequencer (s : State) (id : VoiceId) :
    (s.nextframe id).sequencer = s.sequencer := rfl

@[simp] theorem State.nextframe_resp (s : State) (id : VoiceId) :
    (s.nextframe id).resp = s.resp := rfl

@[simp] theorem State.nextframe_inputs (s : State) (id : VoiceId) :
    (s.nextframe id).inputs = s.inputs := rfl

@[simp] theorem State.nextframe_trace (s : State) (id : VoiceId) :
    (s.nextframe id).trace = s.trace := rfl

end Sys2Proof.Machine
end

