-- ==== Sys2Proof/Laws/Ops.lean ====
section
/-! SUPPORT. Reading after writing: what each accessor sees after each operation, once. -/

namespace Sys2Proof.Machine

/-! ### Accessors see only their own field -/

theorem State.voice_congr {s t : State} (h : t.rosters = s.rosters) (id : VoiceId) :
    t.voice id = s.voice id := by simp [State.voice, h]

theorem State.slot_congr {s t : State} (h : t.slots = s.slots) (k : Nat) : t.slot k = s.slot k := by
  simp [State.slot, h]

theorem State.param_congr {s t : State} (h : t.params = s.params) (ch : Chan) :
    t.param ch = s.param ch := by simp [State.param, h]

@[simp] theorem State.slot_setVoice (s : State) (id : VoiceId) (x : Voice) (k' : Nat) :
    (s.setVoice id x).slot k' = s.slot k' := rfl

@[simp] theorem State.param_setVoice (s : State) (id : VoiceId) (x : Voice) (c : Chan) :
    (s.setVoice id x).param c = s.param c := rfl

@[simp] theorem State.slot_setEnv (s : State) (id : VoiceId) (e : Envelope) (k' : Nat) :
    (s.setEnv id e).slot k' = s.slot k' := rfl

@[simp] theorem State.param_setEnv (s : State) (id : VoiceId) (e : Envelope) (c : Chan) :
    (s.setEnv id e).param c = s.param c := rfl

@[simp] theorem State.slot_setIdx (s : State) (id : VoiceId) (k : Option Nat) (k' : Nat) :
    (s.setIdx id k).slot k' = s.slot k' := rfl

@[simp] theorem State.param_setIdx (s : State) (id : VoiceId) (k : Option Nat) (c : Chan) :
    (s.setIdx id k).param c = s.param c := rfl

@[simp] theorem State.voice_setSlot (s : State) (k : Nat) (x : Option VoiceId) (other : VoiceId) :
    (s.setSlot k x).voice other = s.voice other := rfl

@[simp] theorem State.param_setSlot (s : State) (k : Nat) (x : Option VoiceId) (c : Chan) :
    (s.setSlot k x).param c = s.param c := rfl

@[simp] theorem State.voice_setParam (s : State) (ch : Chan) (p : EnvParams) (other : VoiceId) :
    (s.setParam ch p).voice other = s.voice other := rfl

@[simp] theorem State.slot_setParam (s : State) (ch : Chan) (p : EnvParams) (k' : Nat) :
    (s.setParam ch p).slot k' = s.slot k' := rfl

@[simp] theorem State.slot_bump (s : State) (id : VoiceId) (k' : Nat) :
    (s.bump id).slot k' = s.slot k' := rfl

@[simp] theorem State.param_bump (s : State) (id : VoiceId) (c : Chan) :
    (s.bump id).param c = s.param c := rfl

@[simp] theorem State.voice_emit (s : State) (w : OutWord) (other : VoiceId) :
    (s.emit w).voice other = s.voice other := rfl

@[simp] theorem State.slot_emit (s : State) (w : OutWord) (k' : Nat) :
    (s.emit w).slot k' = s.slot k' := rfl

@[simp] theorem State.param_emit (s : State) (w : OutWord) (c : Chan) :
    (s.emit w).param c = s.param c := rfl

@[simp] theorem State.voice_respond (s : State) (c : RespCode) (d : Word) (other : VoiceId) :
    (s.respond c d).voice other = s.voice other := rfl

@[simp] theorem State.slot_respond (s : State) (c : RespCode) (d : Word) (k' : Nat) :
    (s.respond c d).slot k' = s.slot k' := rfl

@[simp] theorem State.param_respond (s : State) (c : RespCode) (d : Word) (c' : Chan) :
    (s.respond c d).param c' = s.param c' := rfl

@[simp] theorem State.voice_handWord (s : State) (w : OutWord) (ws : List OutWord) (other : VoiceId) :
    (s.handWord w ws).voice other = s.voice other := rfl

@[simp] theorem State.slot_handWord (s : State) (w : OutWord) (ws : List OutWord) (k' : Nat) :
    (s.handWord w ws).slot k' = s.slot k' := rfl

@[simp] theorem State.param_handWord (s : State) (w : OutWord) (ws : List OutWord) (c : Chan) :
    (s.handWord w ws).param c = s.param c := rfl

@[simp] theorem State.voice_handResponse (s : State) (r : Response) (other : VoiceId) :
    (s.handResponse r).voice other = s.voice other := rfl

@[simp] theorem State.slot_handResponse (s : State) (r : Response) (k' : Nat) :
    (s.handResponse r).slot k' = s.slot k' := rfl

@[simp] theorem State.param_handResponse (s : State) (r : Response) (c : Chan) :
    (s.handResponse r).param c = s.param c := rfl

@[simp] theorem State.voice_raiseInvariantError (s : State) (other : VoiceId) :
    s.raiseInvariantError.voice other = s.voice other := rfl

@[simp] theorem State.slot_raiseInvariantError (s : State) (k' : Nat) :
    s.raiseInvariantError.slot k' = s.slot k' := rfl

@[simp] theorem State.param_raiseInvariantError (s : State) (c : Chan) :
    s.raiseInvariantError.param c = s.param c := rfl

@[simp] theorem State.slot_attack (s : State) (id : VoiceId) (k' : Nat) :
    (s.attack id).slot k' = s.slot k' := rfl

@[simp] theorem State.param_attack (s : State) (id : VoiceId) (c : Chan) :
    (s.attack id).param c = s.param c := rfl

@[simp] theorem State.slot_release (s : State) (id : VoiceId) (k' : Nat) :
    (s.release id).slot k' = s.slot k' := rfl

@[simp] theorem State.param_release (s : State) (id : VoiceId) (c : Chan) :
    (s.release id).param c = s.param c := rfl

@[simp] theorem State.slot_noteonVoice (s : State) (id : VoiceId) (n vel : Midi7) (k' : Nat) :
    (s.noteonVoice id n vel).slot k' = s.slot k' := rfl

@[simp] theorem State.param_noteonVoice (s : State) (id : VoiceId) (n vel : Midi7) (c : Chan) :
    (s.noteonVoice id n vel).param c = s.param c := rfl

@[simp] theorem State.slot_noteoffVoice (s : State) (id : VoiceId) (k' : Nat) :
    (s.noteoffVoice id).slot k' = s.slot k' := rfl

@[simp] theorem State.param_noteoffVoice (s : State) (id : VoiceId) (c : Chan) :
    (s.noteoffVoice id).param c = s.param c := rfl

@[simp] theorem State.param_takeSlot (s : State) (id : VoiceId) (c : Chan) :
    (s.takeSlot id).param c = s.param c := rfl

@[simp] theorem State.slot_nextframe (s : State) (id : VoiceId) (k' : Nat) :
    (s.nextframe id).slot k' = s.slot k' := rfl

@[simp] theorem State.param_nextframe (s : State) (id : VoiceId) (c : Chan) :
    (s.nextframe id).param c = s.param c := rfl

/-! ### The voice record file -/

theorem VoiceId.ext_iff' {a b : VoiceId} : a = b ↔ a.ch = b.ch ∧ a.rv = b.rv := by
  cases a; cases b; simp

/-- The record of a roster voice exists. -/
theorem State.Shape.roster {s : State} (h : s.Shape) (ch : Chan) :
    ch.toNat < s.rosters.length ∧ (s.rosters.getD ch.toNat []).length = s.cfg.P := by
  obtain ⟨-, h16, hP, -, -⟩ := h
  have hc : ch.toNat < s.rosters.length := by have := ch.isLt; simp [h16, NCH]; omega
  refine ⟨hc, ?_⟩
  rw [List.getD_eq_getElem _ _ hc]
  exact hP _ (List.getElem_mem hc)

/-- A written record is read back. -/
theorem State.voice_setVoice_self {s : State} (h : s.Shape) {id : VoiceId} (hv : s.isVoice id)
    (x : Voice) : (s.setVoice id x).voice id = x := by
  obtain ⟨hc, hl⟩ := h.roster id.ch
  have hv' : id.rv < (s.rosters[id.ch.toNat]).length := by
    rw [List.getD_eq_getElem _ _ hc] at hl
    simpa [hl] using hv
  simp [State.voice, State.setVoice, List.getD_eq_getElem?_getD, hc, hv']

/-- A write leaves every other record alone. -/
theorem State.voice_setVoice_ne (s : State) {id other : VoiceId} (h : other ≠ id) (x : Voice) :
    (s.setVoice id x).voice other = s.voice other := by
  unfold State.voice State.setVoice
  by_cases hc : id.ch.toNat = other.ch.toNat
  · have hch : id.ch = other.ch := BitVec.eq_of_toNat_eq hc
    have hrv : id.rv ≠ other.rv := fun hr => h (VoiceId.ext_iff'.2 ⟨hch.symm, hr.symm⟩)
    simp only [List.getD_eq_getElem?_getD, List.getElem?_modify, hc, if_true]
    cases s.rosters[other.ch.toNat]? <;> simp [hrv]
  · simp [List.getD_eq_getElem?_getD, hc]

/-- In any state, a write gives the written record or leaves the record alone. -/
theorem State.voice_setVoice_cases (s : State) (id other : VoiceId) (x : Voice) :
    (s.setVoice id x).voice other = s.voice other ∨
      other = id ∧ (s.setVoice id x).voice other = x := by
  by_cases h : other = id
  · subst h
    cases hx : s.rosters[other.ch.toNat]? with
    | none =>
      left
      simp only [State.setVoice, State.voice, List.getD_eq_getElem?_getD, List.getElem?_modify, hx]
      simp
    | some r =>
      by_cases hr : other.rv < r.length
      · right
        refine ⟨rfl, ?_⟩
        simp only [State.setVoice, State.voice, List.getD_eq_getElem?_getD, List.getElem?_modify, hx]
        simp [hr]
      · left
        simp only [State.setVoice, State.voice, List.getD_eq_getElem?_getD, List.getElem?_modify, hx]
        simp [Nat.le_of_not_lt hr]
  · exact .inl (s.voice_setVoice_ne h x)

/-- Writing an envelope changes no other field of any record, in any state. -/
theorem State.voice_setEnv_fields (s : State) (id other : VoiceId) (e : Envelope) :
    ∃ e', (s.setEnv id e).voice other = { s.voice other with env := e' } := by
  rcases s.voice_setVoice_cases id other { s.voice id with env := e } with h | ⟨rfl, h⟩
  · exact ⟨(s.voice other).env, h⟩
  · exact ⟨e, h⟩

/-- Writing an index changes no other field of any record, in any state. -/
theorem State.voice_setIdx_fields (s : State) (id other : VoiceId) (k : Option Nat) :
    ∃ k', (s.setIdx id k).voice other = { s.voice other with idx := k' } := by
  rcases s.voice_setVoice_cases id other { s.voice id with idx := k } with h | ⟨rfl, h⟩
  · exact ⟨(s.voice other).idx, h⟩
  · exact ⟨k, h⟩

theorem State.voice_setEnv_self {s : State} (h : s.Shape) {id : VoiceId} (hv : s.isVoice id)
    (e : Envelope) : (s.setEnv id e).voice id = { s.voice id with env := e } :=
  State.voice_setVoice_self h hv _

theorem State.voice_setEnv_ne (s : State) {id other : VoiceId} (h : other ≠ id) (e : Envelope) :
    (s.setEnv id e).voice other = s.voice other := State.voice_setVoice_ne s h _

theorem State.voice_setIdx_self {s : State} (h : s.Shape) {id : VoiceId} (hv : s.isVoice id)
    (k : Option Nat) : (s.setIdx id k).voice id = { s.voice id with idx := k } :=
  State.voice_setVoice_self h hv _

theorem State.voice_setIdx_ne (s : State) {id other : VoiceId} (h : other ≠ id) (k : Option Nat) :
    (s.setIdx id k).voice other = s.voice other := State.voice_setVoice_ne s h _

theorem State.voice_bump_self {s : State} (h : s.Shape) {id : VoiceId} (hv : s.isVoice id) :
    (s.bump id).voice id = { s.voice id with seq := s.seqCtr + 1#64 } :=
  State.voice_setVoice_self h hv _

theorem State.voice_bump_ne (s : State) {id other : VoiceId} (h : other ≠ id) :
    (s.bump id).voice other = s.voice other := State.voice_setVoice_ne s h _

/-- The shape depends on the sizes and the four lists only. -/
theorem State.Shape.congr {s t : State} (h : s.Shape) (hc : t.cfg = s.cfg)
    (hr : t.rosters = s.rosters) (hs : t.slots = s.slots) (hp : t.params = s.params) : t.Shape := by
  obtain ⟨h1, h2, h3, h4, h5⟩ := h
  exact ⟨hc ▸ h1, hr ▸ h2, by rw [hr, hc]; exact h3, by rw [hs, hc]; exact h4, hp ▸ h5⟩

/-- A write of a record keeps the shape. -/
theorem State.Shape.setVoice {s : State} (h : s.Shape) (id : VoiceId) (x : Voice) :
    (s.setVoice id x).Shape := by
  obtain ⟨h1, h2, h3, h4, h5⟩ := h
  refine ⟨h1, by simpa [State.setVoice] using h2, ?_, h4, h5⟩
  intro r hr
  obtain ⟨n, hn, rfl⟩ := List.mem_iff_getElem.1 hr
  simp only [State.setVoice, List.getElem_modify]
  split
  · simpa using h3 _ (List.getElem_mem _)
  · exact h3 _ (List.getElem_mem _)

/-! ### The registry and the parameters -/

theorem State.slot_setSlot_self (s : State) {k : Nat} (h : k < s.slots.length)
    (x : Option VoiceId) : (s.setSlot k x).slot k = x := by
  simp [State.slot, State.setSlot, h]

theorem State.slot_setSlot_ne (s : State) {j k : Nat} (h : j ≠ k) (x : Option VoiceId) :
    (s.setSlot k x).slot j = s.slot j := by
  simp [State.slot, State.setSlot, List.getElem?_set_ne h.symm]

theorem State.Shape.setSlot {s : State} (h : s.Shape) (k : Nat) (x : Option VoiceId) :
    (s.setSlot k x).Shape := by
  obtain ⟨h1, h2, h3, h4, h5⟩ := h
  exact ⟨h1, h2, h3, by simpa [State.setSlot] using h4, h5⟩

theorem State.param_setParam_self {s : State} (h : s.Shape) (ch : Chan) (p : EnvParams) :
    (s.setParam ch p).param ch = p := by
  have : ch.toNat < s.params.length := by
    have := ch.isLt; have := h.2.2.2.2; simp [NCH] at this; omega
  simp [State.param, State.setParam, this]

theorem State.param_setParam_ne (s : State) {c ch : Chan} (h : c ≠ ch) (p : EnvParams) :
    (s.setParam ch p).param c = s.param c := by
  have : ch.toNat ≠ c.toNat := fun e => h (BitVec.eq_of_toNat_eq e).symm
  simp [State.param, State.setParam, List.getElem?_set_ne this]

theorem State.Shape.setParam {s : State} (h : s.Shape) (ch : Chan) (p : EnvParams) :
    (s.setParam ch p).Shape := by
  obtain ⟨h1, h2, h3, h4, h5⟩ := h
  exact ⟨h1, h2, h3, h4, by simpa [State.setParam] using h5⟩

/-! ### Record kinds (R84) -/

theorem isFE_vfWord (id : VoiceId) (x : Voice) (amp : Level) : isFE (vfWord id x amp) = false := by
  unfold isFE vfWord
  repeat rw [BitVec.getLsbD_append]
  simp

theorem isFE_feWord (f : Nat) : isFE (feWord f) = true := by
  unfold isFE feWord
  repeat rw [BitVec.getLsbD_append]
  simp

/-! ### Byte transports (R55) -/

/-- An output word has eight bytes. -/
@[simp] theorem length_bytesOfOutWord (w : OutWord) : (bytesOfOutWord w).length = 8 := rfl

/-- The halves of an output word make the word again. -/
theorem outWord_halves (w : OutWord) : w.extractLsb' 32 32 ++ w.extractLsb' 0 32 = w := by
  apply BitVec.eq_of_getLsbD_eq
  intro i hi
  simp only [BitVec.getLsbD_append, BitVec.getLsbD_extractLsb']
  split
  · simp [*]
  · rw [decide_eq_true (by omega), Bool.true_and]; congr 1; omega

/-- A byte of an output word's low or high half is that byte of the word. -/
theorem extractLsb'_outWord (w : OutWord) (s k : Nat) (hk : k + 8 ≤ 32) :
    (w.extractLsb' s 32).extractLsb' k 8 = w.extractLsb' (s + k) 8 := by
  apply BitVec.eq_of_getLsbD_eq
  intro i hi
  simp only [BitVec.getLsbD_extractLsb', hi, decide_true, Bool.true_and,
    show k + i < 32 by omega, Nat.add_assoc]

/-- The eight bytes of an output word make the word again. -/
theorem outWordOfBytes_extract (w : OutWord) :
    outWordOfBytes (w.extractLsb' 0 8) (w.extractLsb' 8 8) (w.extractLsb' 16 8)
      (w.extractLsb' 24 8) (w.extractLsb' 32 8) (w.extractLsb' 40 8) (w.extractLsb' 48 8)
      (w.extractLsb' 56 8) = w := by
  have hl := wordOfBytes_extract (w.extractLsb' 0 32)
  have hh := wordOfBytes_extract (w.extractLsb' 32 32)
  simp only [extractLsb'_outWord w _ _ (show 0 + 8 ≤ 32 by decide),
    extractLsb'_outWord w _ _ (show 8 + 8 ≤ 32 by decide),
    extractLsb'_outWord w _ _ (show 16 + 8 ≤ 32 by decide),
    extractLsb'_outWord w _ _ (show 24 + 8 ≤ 32 by decide)] at hl hh
  rw [outWordOfBytes, hl, hh, outWord_halves]

/-! ### Scans of a roster -/

/-- What `leastVoice` finds is the least index below P with the property. -/
theorem State.leastVoice_eq_some {s : State} {p : Nat → Bool} {v : Nat} :
    s.leastVoice p = some v ↔ v < s.cfg.P ∧ p v = true ∧ ∀ u < v, p u = false := by
  simp only [State.leastVoice, List.find?_range_eq_some, List.mem_range, Bool.not_eq_true']
  tauto

theorem State.leastVoice_eq_none {s : State} {p : Nat → Bool} :
    s.leastVoice p = none ↔ ∀ v < s.cfg.P, p v = false := by
  simp [State.leastVoice]

end Sys2Proof.Machine
end

