-- ==== Sys2Proof/Laws/Envelope.lean ====
section
/-! SUPPORT. The envelope: the fields `enter` gives, and the range that `enter` and `next` keep (spec/40_envelope.md R101 to R107, R111). -/

namespace Sys2Proof.Machine

theorem rampLen_pos (N : Level) : 1 ≤ rampLen N := by simp [rampLen]

theorem rampLen_lt (N : Level) : rampLen N < 2 ^ 24 := by
  have := N.isLt
  simp only [rampLen]
  omega

theorem absDiff_lt (a b : Level) : absDiff a.toNat b.toNat < 2 ^ 24 := by
  have := a.isLt
  have := b.isLt
  simp only [absDiff]
  omega

@[simp] theorem Envelope.enter_ph (e : Envelope) (ph : Phase) (tgt N : Level) :
    (e.enter ph tgt N).ph = ph := rfl

@[simp] theorem Envelope.enter_tgt (e : Envelope) (ph : Phase) (tgt N : Level) :
    (e.enter ph tgt N).tgt = tgt := rfl

@[simp] theorem Envelope.enter_lvl (e : Envelope) (ph : Phase) (tgt N : Level) :
    (e.enter ph tgt N).lvl = e.lvl := rfl

/-- `rem` is not cut by its 24 bits (R101). -/
theorem Envelope.enter_rem (e : Envelope) (ph : Phase) (tgt N : Level) :
    (e.enter ph tgt N).rem.toNat = rampLen N := by
  simp only [Envelope.enter, BitVec.toNat_ofNat]
  exact Nat.mod_eq_of_lt (rampLen_lt N)

/-- `stp` is not cut by its 24 bits (R101). -/
theorem Envelope.enter_stp (e : Envelope) (ph : Phase) (tgt N : Level) :
    (e.enter ph tgt N).stp.toNat = absDiff tgt.toNat e.lvl.toNat / rampLen N := by
  simp only [Envelope.enter, BitVec.toNat_ofNat]
  exact Nat.mod_eq_of_lt (lt_of_le_of_lt (Nat.div_le_self _ _) (absDiff_lt _ _))

/-- All steps but the last together do not pass the target (R111). -/
theorem Envelope.enter_steps_le (e : Envelope) (ph : Phase) (tgt N : Level) :
    ((e.enter ph tgt N).rem.toNat - 1) * (e.enter ph tgt N).stp.toNat ≤
      absDiff tgt.toNat e.lvl.toNat := by
  rw [Envelope.enter_rem, Envelope.enter_stp]
  calc (rampLen N - 1) * (absDiff tgt.toNat e.lvl.toNat / rampLen N)
      ≤ rampLen N * (absDiff tgt.toNat e.lvl.toNat / rampLen N) :=
        Nat.mul_le_mul_right _ (Nat.sub_le _ _)
    _ ≤ absDiff tgt.toNat e.lvl.toNat := Nat.mul_div_le _ _

/-- An attack entered at any level is in range. -/
theorem Envelope.attack_inRange (e : Envelope) (p : EnvParams) : (e.attack p).inRange := by
  have hs := e.enter_steps_le .attack PEAK p.attack
  have hr := e.enter_rem .attack PEAK p.attack
  have hp := rampLen_pos p.attack
  have hl := e.lvl.isLt
  simp only [Envelope.attack, Envelope.inRange, Envelope.enter_ph, Envelope.enter_tgt,
    Envelope.enter_lvl, reduceCtorEq, false_implies, and_true, true_implies, true_and]
  refine ⟨by omega, ?_⟩
  simp only [absDiff, PEAK, BitVec.toNat_ofNat] at hs ⊢
  omega

/-- A release entered at any level is in range. -/
theorem Envelope.release_inRange (e : Envelope) (p : EnvParams) : (e.release p).inRange := by
  have hs := e.enter_steps_le .release 0#24 p.release
  have hr := e.enter_rem .release 0#24 p.release
  have hp := rampLen_pos p.release
  simp only [Envelope.release, Envelope.inRange, Envelope.enter_ph, Envelope.enter_tgt,
    Envelope.enter_lvl, reduceCtorEq, false_implies, and_true, true_implies, true_and]
  refine ⟨by omega, ?_⟩
  simpa [absDiff] using hs

/-- A decay entered at PEAK is in range. -/
theorem Envelope.decay_inRange (e : Envelope) (p : EnvParams) (h : e.lvl = PEAK) :
    (e.enter .decay p.sustain p.decay).inRange := by
  have hs := e.enter_steps_le .decay p.sustain p.decay
  have hl := p.sustain.isLt
  simp only [Envelope.inRange, Envelope.enter_ph, Envelope.enter_tgt, Envelope.enter_lvl,
    reduceCtorEq, false_implies, and_true, true_implies, true_and]
  simp only [absDiff, h, PEAK, BitVec.toNat_ofNat] at hs ⊢
  omega

theorem lt_one_iff_toNat (a : Level) : 1#24 < a ↔ 1 < a.toNat := by
  simp [BitVec.lt_def]

theorem toNat_sub_one {a : Level} (h : 1 < a.toNat) : (a - 1#24).toNat = a.toNat - 1 := by
  have := a.isLt
  rw [BitVec.toNat_sub]
  simp only [BitVec.toNat_ofNat]
  omega

/-- Splitting off one step: `(r − 1)·k = k + (r − 2)·k` for `r > 1`. -/
theorem steps_succ {r k : Nat} (h : 1 < r) : (r - 1) * k = k + (r - 1 - 1) * k := by
  obtain ⟨m, rfl⟩ : ∃ m, r = m + 2 := ⟨r - 2, by omega⟩
  simp only [Nat.add_sub_cancel, show m + 2 - 1 = m + 1 from rfl]
  ring

/-- One sample of a ramp in progress adds or takes away exactly one step (R104 to R106, R111). -/
theorem Envelope.next_exact {e : Envelope} (p : EnvParams) (h : e.inRange) (hr : 1 < e.rem.toNat) :
    (e.ph = .attack → (e.next p).lvl.toNat = e.lvl.toNat + e.stp.toNat) ∧
    (e.ph = .decay ∨ e.ph = .release → (e.next p).lvl.toNat + e.stp.toNat = e.lvl.toNat) := by
  obtain ⟨ha, hd, hre, -⟩ := h
  have h1 : 1#24 < e.rem := (lt_one_iff_toNat _).2 hr
  have hk := steps_succ (k := e.stp.toNat) hr
  refine ⟨fun hp => ?_, fun hp => ?_⟩
  · obtain ⟨-, -, hle⟩ := ha hp
    have := e.tgt.isLt
    simp only [Envelope.next, hp, h1, if_true, BitVec.toNat_add]
    omega
  · have hle : (e.rem.toNat - 1) * e.stp.toNat ≤ e.lvl.toNat := by
      rcases hp with hp | hp
      · have := hd hp; omega
      · exact (hre hp).2.2
    have hl := e.lvl.isLt
    have hs := e.stp.isLt
    rcases hp with hp | hp <;>
    · simp only [Envelope.next, hp, h1, if_true, BitVec.toNat_sub]
      omega

/-- `next` keeps the range (R38, R111). -/
theorem Envelope.next_inRange {e : Envelope} (p : EnvParams) (h : e.inRange) :
    (e.next p).inRange := by
  by_cases hr : 1 < e.rem.toNat
  · have h1 : 1#24 < e.rem := (lt_one_iff_toNat _).2 hr
    obtain ⟨hup, hdown⟩ := Envelope.next_exact p h hr
    have hsub := toNat_sub_one hr
    have hk := steps_succ (k := e.stp.toNat) hr
    obtain ⟨ha, hd, hre, hdn⟩ := h
    cases hp : e.ph
    · obtain ⟨ht, -, hle⟩ := ha hp
      have hlv := hup hp
      simp only [Envelope.next, hp, h1, if_true] at hlv
      simp only [Envelope.next, hp, h1, if_true, Envelope.inRange, reduceCtorEq, false_implies,
        and_true, true_implies, ht, true_and, hsub, hlv]
      rw [ht] at hle
      omega
    · have hle := hd hp
      have hlv := hdown (.inl hp)
      simp only [Envelope.next, hp, h1, if_true] at hlv
      simp only [Envelope.next, hp, h1, if_true, Envelope.inRange, reduceCtorEq, false_implies,
        and_true, true_implies, true_and, hsub]
      omega
    · obtain ⟨ht, -, hle⟩ := hre hp
      have hlv := hdown (.inr hp)
      simp only [Envelope.next, hp, h1, if_true] at hlv
      simp only [Envelope.next, hp, h1, if_true, Envelope.inRange, reduceCtorEq, false_implies,
        and_true, true_implies, ht, true_and, hsub]
      omega
    · simp [(hdn hp).2] at hr
  · have h1 : ¬ 1#24 < e.rem := fun c => hr ((lt_one_iff_toNat _).1 c)
    cases hp : e.ph
    · have ht := (h.1 hp).1
      simp only [Envelope.next, hp, h1, if_false]
      exact Envelope.decay_inRange _ p ht
    · by_cases hz : e.rem = 1#24
      · simp [Envelope.next, hp, hz, Envelope.inRange]
      · simpa only [Envelope.next, hp, h1, hz, if_false] using h
    · simp [Envelope.next, hp, h1, Envelope.inRange]
    · simpa only [Envelope.next, hp] using h

end Sys2Proof.Machine
end

