-- ==== Sys2Proof/Laws/Voice.lean ====
section
/-! SUPPORT. The voice primitives and the allocation policy: what each does, said once (spec/41_voice_alloc.md R130 to R147). -/

namespace Sys2Proof.Machine

/-! ### The shape is kept -/

theorem State.Shape.setEnv {s : State} (h : s.Shape) (id : VoiceId) (e : Envelope) :
    (s.setEnv id e).Shape := h.setVoice id _

theorem State.Shape.setIdx {s : State} (h : s.Shape) (id : VoiceId) (k : Option Nat) :
    (s.setIdx id k).Shape := h.setVoice id _

theorem State.Shape.bump {s : State} (h : s.Shape) (id : VoiceId) : (s.bump id).Shape :=
  (h.setVoice id { s.voice id with seq := s.seqCtr + 1#64 }).congr rfl rfl rfl rfl

theorem State.Shape.attack {s : State} (h : s.Shape) (id : VoiceId) : (s.attack id).Shape :=
  h.setEnv id _

theorem State.Shape.release {s : State} (h : s.Shape) (id : VoiceId) : (s.release id).Shape :=
  h.setEnv id _

theorem State.Shape.noteonVoice {s : State} (h : s.Shape) (id : VoiceId) (n vel : Midi7) :
    (s.noteonVoice id n vel).Shape := (h.setVoice id _).attack id

theorem State.Shape.takeSlot {s : State} (h : s.Shape) (id : VoiceId) : (s.takeSlot id).Shape :=
  ((h.setSlot s.numActive (some id)).setIdx id (some s.numActive)).congr rfl rfl rfl rfl

theorem State.Shape.emit {s : State} (h : s.Shape) (w : OutWord) : (s.emit w).Shape :=
  h.congr rfl rfl rfl rfl

theorem State.Shape.respond {s : State} (h : s.Shape) (c : RespCode) (d : Word) :
    (s.respond c d).Shape := h.congr rfl rfl rfl rfl

theorem State.Shape.raiseInvariantError {s : State} (h : s.Shape) : s.raiseInvariantError.Shape :=
  h.congr rfl rfl rfl rfl

/-! ### noteon and noteoff on one voice -/

theorem State.voice_release_self {s : State} (h : s.Shape) {id : VoiceId} (hv : s.isVoice id) :
    (s.release id).voice id =
      { s.voice id with env := (s.voice id).env.release (s.param id.ch) } :=
  State.voice_setEnv_self h hv _

theorem State.voice_release_ne (s : State) {id other : VoiceId} (h : other ≠ id) :
    (s.release id).voice other = s.voice other := State.voice_setVoice_ne s h _

theorem State.voice_attack_self {s : State} (h : s.Shape) {id : VoiceId} (hv : s.isVoice id) :
    (s.attack id).voice id =
      { s.voice id with env := (s.voice id).env.attack (s.param id.ch) } :=
  State.voice_setEnv_self h hv _

theorem State.voice_attack_ne (s : State) {id other : VoiceId} (h : other ≠ id) :
    (s.attack id).voice other = s.voice other := State.voice_setVoice_ne s h _

theorem State.voice_noteonVoice_self {s : State} (h : s.Shape) {id : VoiceId} (hv : s.isVoice id)
    (n vel : Midi7) :
    (s.noteonVoice id n vel).voice id =
      { s.voice id with
        note := n, vel := vel, env := (s.voice id).env.attack (s.param id.ch) } := by
  rw [State.noteonVoice, State.voice_attack_self (h.setVoice id _) hv,
    State.voice_setVoice_self h hv]
  rfl

theorem State.voice_noteonVoice_ne (s : State) {id other : VoiceId} (h : other ≠ id)
    (n vel : Midi7) : (s.noteonVoice id n vel).voice other = s.voice other := by
  rw [State.noteonVoice, State.voice_attack_ne _ h, State.voice_setVoice_ne _ h]

/-- `noteoff` changes no voice's note, velocity, index or sequence number (R131), in any state. -/
theorem State.voice_release_other_fields (s : State) (id other : VoiceId) :
    ∃ e, (s.release id).voice other = { s.voice other with env := e } :=
  s.voice_setEnv_fields id other _

/-! ### The free slot -/

theorem State.voice_takeSlot_self {s : State} (h : s.Shape) {id : VoiceId} (hv : s.isVoice id) :
    (s.takeSlot id).voice id = { s.voice id with idx := some s.numActive } :=
  State.voice_setIdx_self (h.setSlot _ _) hv _

theorem State.voice_takeSlot_ne (s : State) {id other : VoiceId} (h : other ≠ id) :
    (s.takeSlot id).voice other = s.voice other :=
  State.voice_setIdx_ne (s.setSlot s.numActive (some id)) h _

theorem State.slot_takeSlot_self {s : State} (h : s.Shape) (hn : s.numActive < s.cfg.C)
    (id : VoiceId) : (s.takeSlot id).slot s.numActive = some id :=
  s.slot_setSlot_self (h.2.2.2.1 ▸ hn) (some id)

theorem State.slot_takeSlot_ne (s : State) {k : Nat} (h : k ≠ s.numActive) (id : VoiceId) :
    (s.takeSlot id).slot k = s.slot k := s.slot_setSlot_ne h (some id)

/-! ### The four steps of `activate` -/

theorem State.boundVoice_eq_some {s : State} {ch : Chan} {n : Midi7} {v : Nat} :
    s.boundVoice ch n = some v ↔
      v < s.cfg.P ∧ s.bound ⟨ch, v⟩ n = true ∧ ∀ u < v, s.bound ⟨ch, u⟩ n = false :=
  State.leastVoice_eq_some

theorem State.boundVoice_eq_none {s : State} {ch : Chan} {n : Midi7} :
    s.boundVoice ch n = none ↔ ∀ v < s.cfg.P, s.bound ⟨ch, v⟩ n = false :=
  State.leastVoice_eq_none

theorem State.freeVoice_eq_some {s : State} {ch : Chan} {v : Nat} :
    s.freeVoice ch = some v ↔
      v < s.cfg.P ∧ s.active ⟨ch, v⟩ = false ∧ ∀ u < v, s.active ⟨ch, u⟩ = true := by
  simp [State.freeVoice, State.leastVoice_eq_some]

theorem State.freeVoice_eq_none {s : State} {ch : Chan} :
    s.freeVoice ch = none ↔ ∀ v < s.cfg.P, s.active ⟨ch, v⟩ = true := by
  simp [State.freeVoice, State.leastVoice_eq_none]

/-- The stolen voice has the least `seq`, and every lower index has a greater one (R147). -/
theorem State.oldestVoice_eq_some {s : State} {ch : Chan} {v : Nat} :
    s.oldestVoice ch = some v ↔
      v < s.cfg.P ∧ (∀ u < s.cfg.P, (s.voice ⟨ch, v⟩).seq ≤ (s.voice ⟨ch, u⟩).seq) ∧
        ∀ u < v, (s.voice ⟨ch, v⟩).seq < (s.voice ⟨ch, u⟩).seq := by
  simp only [State.oldestVoice, State.leastVoice_eq_some, List.all_eq_true, List.mem_range,
    decide_eq_true_eq, List.all_eq_false, decide_eq_true_eq, BitVec.not_le]
  constructor
  · rintro ⟨h1, h2, h3⟩
    refine ⟨h1, h2, fun u hu => ?_⟩
    obtain ⟨w, hw, hlt⟩ := h3 u hu
    exact BitVec.lt_def.2 (Nat.lt_of_le_of_lt (BitVec.le_def.1 (h2 w hw)) (BitVec.lt_def.1 hlt))
  · rintro ⟨h1, h2, h3⟩
    exact ⟨h1, h2, fun u hu => ⟨v, h1, h3 u hu⟩⟩

/-- A roster with a voice has an oldest one. -/
theorem State.oldestVoice_ne_none {s : State} (ch : Chan) (h : 1 ≤ s.cfg.P) :
    s.oldestVoice ch ≠ none := by
  intro hn
  rw [State.oldestVoice, State.leastVoice_eq_none] at hn
  obtain ⟨v, hv, hmin⟩ := Finset.exists_min_image (Finset.range s.cfg.P)
    (fun v => (s.voice ⟨ch, v⟩).seq.toNat) ⟨0, by simp; omega⟩
  have := hn v (by simpa using hv)
  simp only [List.all_eq_false, List.mem_range, decide_eq_true_eq] at this
  obtain ⟨w, hw, hlt⟩ := this
  exact hlt (BitVec.le_def.2 (hmin w (by simpa using hw)))

/-- Everything `activate` can do (R141). -/
theorem State.activate_cases (s : State) (ch : Chan) (n : Midi7) (hP : 1 ≤ s.cfg.P) :
    (∃ v, s.boundVoice ch n = some v ∧
      s.activate ch n = (s.bump ⟨ch, v⟩, some (.retrig, v))) ∨
    (∃ v, s.boundVoice ch n = none ∧ s.numActive < s.cfg.C ∧ s.freeVoice ch = some v ∧
      s.activate ch n = ((s.takeSlot ⟨ch, v⟩).bump ⟨ch, v⟩, some (.free, v))) ∨
    (∃ v, s.boundVoice ch n = none ∧ s.numActive < s.cfg.C ∧ s.freeVoice ch = none ∧
      s.oldestVoice ch = some v ∧ s.activate ch n = (s.bump ⟨ch, v⟩, some (.steal, v))) ∨
    (s.boundVoice ch n = none ∧ s.cfg.C ≤ s.numActive ∧ s.activate ch n = (s, none)) := by
  unfold State.activate
  cases hb : s.boundVoice ch n with
  | some v => exact .inl ⟨v, rfl, rfl⟩
  | none =>
    by_cases hc : s.numActive < s.cfg.C
    · cases hf : s.freeVoice ch with
      | some v => exact .inr (.inl ⟨v, rfl, hc, rfl, by simp [hc]⟩)
      | none =>
        cases ho : s.oldestVoice ch with
        | some v => exact .inr (.inr (.inl ⟨v, rfl, hc, rfl, rfl, by simp [hc]⟩))
        | none => exact absurd ho (s.oldestVoice_ne_none ch hP)
    · exact .inr (.inr (.inr ⟨rfl, Nat.le_of_not_lt hc, by simp [hc]⟩))

end Sys2Proof.Machine
end

