-- ==== Sys2Proof/Laws/Frames.lean ====
section
/-! SUPPORT. The loops over the registry, in any state: what a turn of advanceAll or RELEASEALL, and a cleanup pass, can change at all (spec/42_registry_render.md R160, R162, R173). -/

namespace Sys2Proof.Machine

/-- What every turn of a loop keeps holds after the loop. -/
theorem foldl_keeps {α β : Type} {f : α → β → α} {p : α → Prop} (l : List β) (a : α) (h0 : p a)
    (hs : ∀ x b, b ∈ l → p x → p (f x b)) : p (l.foldl f a) := by
  induction l generalizing a with
  | nil => exact h0
  | cons b bs ih =>
    exact ih (f a b) (hs a b (by simp) h0) fun x c hc => hs x c (by simp [hc])

/-! ### The check (R202) -/

theorem State.checkedSlot_eq_some {s : State} {i : Nat} {id : VoiceId} :
    s.checkedSlot i = some id ↔ s.slot i = some id ∧ (s.voice id).idx = some i := by
  unfold State.checkedSlot
  cases h : s.slot i with
  | none => simp
  | some x =>
    by_cases hx : (s.voice x).idx = some i
    · simp only [hx, if_true, Option.some.injEq]
      constructor
      · rintro rfl; exact ⟨rfl, hx⟩
      · rintro ⟨rfl, -⟩; rfl
    · simp only [hx, if_false, reduceCtorEq, Option.some.injEq, false_iff]
      rintro ⟨rfl, h'⟩
      exact hx h'

theorem State.checkedSlot_eq_none {s : State} {i : Nat} :
    s.checkedSlot i = none ↔ ∀ id, s.slot i = some id → (s.voice id).idx ≠ some i := by
  rw [Option.eq_none_iff_forall_ne_some]
  exact forall_congr' fun id => by rw [Ne, State.checkedSlot_eq_some, not_and]

/-- The check depends on the slots and the indexes only. -/
theorem State.checkedSlot_congr {s t : State} (hs : ∀ k, t.slot k = s.slot k)
    (hv : ∀ id, (t.voice id).idx = (s.voice id).idx) (i : Nat) :
    t.checkedSlot i = s.checkedSlot i := by
  simp only [State.checkedSlot, hs, hv]

/-! ### Turns of advanceAll and RELEASEALL -/

/-- What a turn of advanceAll or of RELEASEALL can change: envelopes, the words waiting, `ERR`. -/
structure State.EnvFrame (s t : State) : Prop where
  cfg : t.cfg = s.cfg
  seqCtr : t.seqCtr = s.seqCtr
  slots : t.slots = s.slots
  numActive : t.numActive = s.numActive
  params : t.params = s.params
  sequencer : t.sequencer = s.sequencer
  resp : t.resp = s.resp
  inputs : t.inputs = s.inputs
  trace : t.trace = s.trace
  err : s.err = true → t.err = true
  outQ : ∃ ws, t.outQ = s.outQ ++ ws
  voice : ∀ id, ∃ e, t.voice id = { s.voice id with env := e }
  shape : s.Shape → t.Shape

theorem State.EnvFrame.refl (s : State) : s.EnvFrame s :=
  ⟨rfl, rfl, rfl, rfl, rfl, rfl, rfl, rfl, rfl, fun h => h, ⟨[], by simp⟩, fun id => ⟨(s.voice id).env, rfl⟩,
    fun h => h⟩

theorem State.EnvFrame.trans {s t u : State} (h : s.EnvFrame t) (k : t.EnvFrame u) :
    s.EnvFrame u where
  cfg := k.cfg.trans h.cfg
  seqCtr := k.seqCtr.trans h.seqCtr
  slots := k.slots.trans h.slots
  numActive := k.numActive.trans h.numActive
  params := k.params.trans h.params
  sequencer := k.sequencer.trans h.sequencer
  resp := k.resp.trans h.resp
  inputs := k.inputs.trans h.inputs
  trace := k.trace.trans h.trace
  err := fun he => k.err (h.err he)
  outQ := by
    obtain ⟨a, ha⟩ := h.outQ
    obtain ⟨b, hb⟩ := k.outQ
    exact ⟨a ++ b, by rw [hb, ha, List.append_assoc]⟩
  voice := fun id => by
    obtain ⟨e, he⟩ := h.voice id
    obtain ⟨e', he'⟩ := k.voice id
    exact ⟨e', by rw [he', he]⟩
  shape := fun hs => k.shape (h.shape hs)

/-- A frame keeps every voice's index, so the check at every position. -/
theorem State.EnvFrame.checkedSlot {s t : State} (h : s.EnvFrame t) (i : Nat) :
    t.checkedSlot i = s.checkedSlot i :=
  State.checkedSlot_congr (fun k => State.slot_congr h.slots k)
    (fun id => by obtain ⟨e, he⟩ := h.voice id; rw [he]) i

theorem State.EnvFrame.param {s t : State} (h : s.EnvFrame t) (ch : Chan) :
    t.param ch = s.param ch := State.param_congr h.params ch

theorem State.EnvFrame.slot {s t : State} (h : s.EnvFrame t) (k : Nat) : t.slot k = s.slot k :=
  State.slot_congr h.slots k

theorem State.EnvFrame.setEnv (s : State) (id : VoiceId) (e : Envelope) : s.EnvFrame (s.setEnv id e) :=
  ⟨rfl, rfl, rfl, rfl, rfl, rfl, rfl, rfl, rfl, fun h => h, ⟨[], by simp⟩,
    fun other => s.voice_setEnv_fields id other e, fun h => h.setEnv id e⟩

theorem State.EnvFrame.emit (s : State) (w : OutWord) : s.EnvFrame (s.emit w) :=
  ⟨rfl, rfl, rfl, rfl, rfl, rfl, rfl, rfl, rfl, fun h => h, ⟨[w], rfl⟩,
    fun id => ⟨(s.voice id).env, rfl⟩, fun h => h.emit w⟩

theorem State.EnvFrame.raise (s : State) : s.EnvFrame s.raiseInvariantError :=
  ⟨rfl, rfl, rfl, rfl, rfl, rfl, rfl, rfl, rfl, fun _ => rfl, ⟨[], by simp⟩,
    fun id => ⟨(s.voice id).env, rfl⟩, fun h => h.raiseInvariantError⟩

theorem State.EnvFrame.nextframe (s : State) (id : VoiceId) : s.EnvFrame (s.nextframe id) :=
  (State.EnvFrame.setEnv s id _).trans (State.EnvFrame.emit _ _)

theorem State.EnvFrame.advanceSlot (s : State) (i : Nat) : s.EnvFrame (s.advanceSlot i) := by
  unfold State.advanceSlot
  cases s.checkedSlot i with
  | none => exact State.EnvFrame.raise s
  | some id => exact State.EnvFrame.nextframe s id

/-- The loop of advanceAll over its first positions (R162). -/
theorem State.EnvFrame.advanceLoop (s : State) (l : List Nat) :
    s.EnvFrame (l.foldl State.advanceSlot s) :=
  foldl_keeps (p := fun t => s.EnvFrame t) l s (State.EnvFrame.refl s)
    fun t i _ h => h.trans (State.EnvFrame.advanceSlot t i)

theorem State.EnvFrame.advanceAll (s : State) : s.EnvFrame s.advanceAll :=
  State.EnvFrame.advanceLoop s _

theorem State.EnvFrame.frame (s : State) (f : Nat) : s.EnvFrame (s.frame f) :=
  (State.EnvFrame.advanceAll s).trans (State.EnvFrame.emit _ _)

/-! One frame ends with its FE record. -/

theorem State.frame_outQ (s : State) (f : Nat) :
    (s.frame f).outQ = s.advanceAll.outQ ++ [feWord f] := rfl

theorem State.frame_voice (s : State) (f : Nat) (id : VoiceId) :
    (s.frame f).voice id = s.advanceAll.voice id := rfl

theorem State.frame_err (s : State) (f : Nat) : (s.frame f).err = s.advanceAll.err := rfl

/-- The frames of a block (R172). -/
theorem State.EnvFrame.frames (s : State) (l : List Nat) : s.EnvFrame (l.foldl State.frame s) :=
  foldl_keeps (p := fun t => s.EnvFrame t) l s (State.EnvFrame.refl s)
    fun t f _ h => h.trans (State.EnvFrame.frame t f)

/-- A turn of RELEASEALL emits nothing. -/
theorem releaseSlot_frame (x : State × Nat) (i : Nat) :
    x.1.EnvFrame (releaseSlot x i).1 ∧ (releaseSlot x i).1.outQ = x.1.outQ := by
  unfold releaseSlot
  cases x.1.checkedSlot i with
  | none => exact ⟨State.EnvFrame.raise _, rfl⟩
  | some id =>
    cases h : (x.1.voice id).env.sounding <;> simp only [h]
    · exact ⟨State.EnvFrame.refl _, rfl⟩
    · exact ⟨State.EnvFrame.setEnv _ _ _, rfl⟩

/-- The loop of RELEASEALL (R173). -/
theorem releaseLoop_frame (x : State × Nat) (l : List Nat) :
    x.1.EnvFrame (l.foldl releaseSlot x).1 ∧ (l.foldl releaseSlot x).1.outQ = x.1.outQ :=
  foldl_keeps (p := fun y => x.1.EnvFrame y.1 ∧ y.1.outQ = x.1.outQ) l x
    ⟨State.EnvFrame.refl _, rfl⟩ fun y i _ h =>
      ⟨h.1.trans (releaseSlot_frame y i).1, (releaseSlot_frame y i).2.trans h.2⟩

/-! ### A cleanup pass -/

/-- What a cleanup pass can change: slots, indexes, `numActive` downwards, `ERR`. -/
structure State.IdxFrame (s t : State) : Prop where
  cfg : t.cfg = s.cfg
  seqCtr : t.seqCtr = s.seqCtr
  params : t.params = s.params
  sequencer : t.sequencer = s.sequencer
  outQ : t.outQ = s.outQ
  resp : t.resp = s.resp
  inputs : t.inputs = s.inputs
  trace : t.trace = s.trace
  numActive : t.numActive ≤ s.numActive
  err : s.err = true → t.err = true
  voice : ∀ id, ∃ k, t.voice id = { s.voice id with idx := k }
  shape : s.Shape → t.Shape

theorem State.IdxFrame.refl (s : State) : s.IdxFrame s :=
  ⟨rfl, rfl, rfl, rfl, rfl, rfl, rfl, rfl, le_refl _, fun h => h, fun id => ⟨(s.voice id).idx, rfl⟩,
    fun h => h⟩

theorem State.IdxFrame.trans {s t u : State} (h : s.IdxFrame t) (k : t.IdxFrame u) :
    s.IdxFrame u where
  cfg := k.cfg.trans h.cfg
  seqCtr := k.seqCtr.trans h.seqCtr
  params := k.params.trans h.params
  sequencer := k.sequencer.trans h.sequencer
  outQ := k.outQ.trans h.outQ
  resp := k.resp.trans h.resp
  inputs := k.inputs.trans h.inputs
  trace := k.trace.trans h.trace
  numActive := k.numActive.trans h.numActive
  err := fun he => k.err (h.err he)
  voice := fun id => by
    obtain ⟨e, he⟩ := h.voice id
    obtain ⟨e', he'⟩ := k.voice id
    exact ⟨e', by rw [he', he]⟩
  shape := fun hs => k.shape (h.shape hs)

theorem State.IdxFrame.setIdx (s : State) (id : VoiceId) (k : Option Nat) :
    s.IdxFrame (s.setIdx id k) :=
  ⟨rfl, rfl, rfl, rfl, rfl, rfl, rfl, rfl, le_refl _, fun h => h,
    fun other => s.voice_setIdx_fields id other k, fun h => h.setIdx id k⟩

theorem State.IdxFrame.setSlot (s : State) (k : Nat) (x : Option VoiceId) :
    s.IdxFrame (s.setSlot k x) :=
  ⟨rfl, rfl, rfl, rfl, rfl, rfl, rfl, rfl, le_refl _, fun h => h,
    fun id => ⟨(s.voice id).idx, rfl⟩, fun h => h.setSlot k x⟩

theorem State.IdxFrame.raise (s : State) : s.IdxFrame s.raiseInvariantError :=
  ⟨rfl, rfl, rfl, rfl, rfl, rfl, rfl, rfl, le_refl _, fun _ => rfl,
    fun id => ⟨(s.voice id).idx, rfl⟩, fun h => h.raiseInvariantError⟩

theorem State.IdxFrame.shiftSlot (s : State) (j : Nat) : s.IdxFrame (s.shiftSlot j) := by
  have h := State.IdxFrame.setSlot s j (s.slot (j + 1))
  simp only [State.shiftSlot]
  cases (s.setSlot j (s.slot (j + 1))).slot j with
  | none => exact h
  | some id => exact h.trans (State.IdxFrame.setIdx _ _ _)

theorem State.IdxFrame.shiftLoop (s : State) (l : List Nat) :
    s.IdxFrame (l.foldl State.shiftSlot s) :=
  foldl_keeps (p := fun t => s.IdxFrame t) l s (State.IdxFrame.refl s)
    fun t j _ h => h.trans (State.IdxFrame.shiftSlot t j)

theorem State.IdxFrame.removeAt (s : State) (i : Nat) (id : VoiceId) :
    s.IdxFrame (s.removeAt i id) := by
  have h := ((State.IdxFrame.setIdx s id none).trans
    (State.IdxFrame.shiftLoop _ (List.range' i (s.numActive - 1 - i)))).trans
    (State.IdxFrame.setSlot _
      (((List.range' i (s.numActive - 1 - i)).foldl State.shiftSlot (s.setIdx id none)).numActive - 1) none)
  exact ⟨h.cfg, h.seqCtr, h.params, h.sequencer, h.outQ, h.resp, h.inputs, h.trace,
    (Nat.sub_le _ _).trans h.numActive, h.err, h.voice, fun hs => (h.shape hs).congr rfl rfl rfl rfl⟩

theorem State.shiftSlot_err (s : State) (j : Nat) : (s.shiftSlot j).err = s.err := by
  simp only [State.shiftSlot]
  cases (s.setSlot j (s.slot (j + 1))).slot j <;> rfl

/-- A removal raises no error. -/
theorem State.removeAt_err (s : State) (i : Nat) (id : VoiceId) : (s.removeAt i id).err = s.err :=
  foldl_keeps (p := fun t : State => t.err = s.err) _ (s.setIdx id none) rfl
    fun t j _ h => (State.shiftSlot_err t j).trans h

/-- A cleanup pass never makes a DONE voice of another, or the other way. -/
theorem State.IdxFrame.isDone {s t : State} (h : s.IdxFrame t) (id : VoiceId) :
    t.isDone id = s.isDone id := by
  obtain ⟨k, hk⟩ := h.voice id
  simp [State.isDone, hk]

theorem cleanupLoop_frame (fuel i r : Nat) (s : State) :
    s.IdxFrame (cleanupLoop fuel i r s).1 := by
  induction fuel generalizing i r s with
  | zero => exact State.IdxFrame.refl s
  | succ fuel ih =>
    unfold cleanupLoop
    split
    · split
      · exact (State.IdxFrame.raise s).trans (ih _ _ _)
      · split
        · exact (State.IdxFrame.removeAt s _ _).trans (ih _ _ _)
        · exact ih _ _ _
    · exact State.IdxFrame.refl s

/-- A cleanup pass in any state (R160). -/
theorem State.IdxFrame.cleanupPass (s : State) : s.IdxFrame s.cleanupPass.1 :=
  cleanupLoop_frame _ _ _ _

end Sys2Proof.Machine
end

