-- ==== Sys2Proof/Laws/PerInstr.lean ====
section
/-! SUPPORT. Statements about every command as syntax, one lemma per constructor of `Instr`. -/

/-- The fixed bits of a command's word are those of its row of the opcode map (spec/30_encoding.md R78). -/
def Sys2Proof.Laws.EncodeFits.Statement (i : Sys2Proof.Instr) : Prop :=
  match i with
  | .nop => Sys2Proof.encode i &&& 0xFFFFFFFF#32 = 0x00000000#32
  | .noteon _ _ _ => Sys2Proof.encode i &&& 0xF08080FF#32 = 0x10000000#32
  | .noteoff _ _ => Sys2Proof.encode i &&& 0xF080FFFF#32 = 0x20000000#32
  | .voiceoff _ _ => Sys2Proof.encode i &&& 0xF0FFFF00#32 = 0x30000000#32
  | .releaseall => Sys2Proof.encode i &&& 0xFFFFFFFF#32 = 0x40000000#32
  | .cleanup => Sys2Proof.encode i &&& 0xFFFFFFFF#32 = 0x50000000#32
  | .advance => Sys2Proof.encode i &&& 0xFFFFFFFF#32 = 0x60000000#32
  | .render => Sys2Proof.encode i &&& 0xFFFFFFFF#32 = 0x70000000#32
  | .seta _ _ => Sys2Proof.encode i &&& 0xF0000000#32 = 0x80000000#32
  | .setd _ _ => Sys2Proof.encode i &&& 0xF0000000#32 = 0x90000000#32
  | .sets _ _ => Sys2Proof.encode i &&& 0xF0000000#32 = 0xA0000000#32
  | .setr _ _ => Sys2Proof.encode i &&& 0xF0000000#32 = 0xB0000000#32
  | .regread _ => Sys2Proof.encode i &&& 0xFFFF0000#32 = 0xC0000000#32

namespace Sys2Proof.Laws.EncodeFits

theorem nop : Statement .nop := by
  show encode .nop &&& 0xFFFFFFFF#32 = 0x00000000#32
  decide

theorem noteon (ch : Chan) (note : Midi7) (vel : Midi7) : Statement (.noteon ch note vel) := by
  apply BitVec.eq_of_getLsbD_eq
  intro i hi
  simp only [encode, BitVec.getLsbD_and, BitVec.getLsbD_append]
  interval_cases i <;> simp

theorem noteoff (ch : Chan) (note : Midi7) : Statement (.noteoff ch note) := by
  apply BitVec.eq_of_getLsbD_eq
  intro i hi
  simp only [encode, BitVec.getLsbD_and, BitVec.getLsbD_append]
  interval_cases i <;> simp

theorem voiceoff (ch : Chan) (rv : BitVec 8) : Statement (.voiceoff ch rv) := by
  apply BitVec.eq_of_getLsbD_eq
  intro i hi
  simp only [encode, BitVec.getLsbD_and, BitVec.getLsbD_append]
  interval_cases i <;> simp

theorem releaseall : Statement .releaseall := by
  show encode .releaseall &&& 0xFFFFFFFF#32 = 0x40000000#32
  decide

theorem cleanup : Statement .cleanup := by
  show encode .cleanup &&& 0xFFFFFFFF#32 = 0x50000000#32
  decide

theorem advance : Statement .advance := by
  show encode .advance &&& 0xFFFFFFFF#32 = 0x60000000#32
  decide

theorem render : Statement .render := by
  show encode .render &&& 0xFFFFFFFF#32 = 0x70000000#32
  decide

theorem seta (ch : Chan) (val : Level) : Statement (.seta ch val) := by
  apply BitVec.eq_of_getLsbD_eq
  intro i hi
  simp only [encode, BitVec.getLsbD_and, BitVec.getLsbD_append]
  interval_cases i <;> simp

theorem setd (ch : Chan) (val : Level) : Statement (.setd ch val) := by
  apply BitVec.eq_of_getLsbD_eq
  intro i hi
  simp only [encode, BitVec.getLsbD_and, BitVec.getLsbD_append]
  interval_cases i <;> simp

theorem sets (ch : Chan) (val : Level) : Statement (.sets ch val) := by
  apply BitVec.eq_of_getLsbD_eq
  intro i hi
  simp only [encode, BitVec.getLsbD_and, BitVec.getLsbD_append]
  interval_cases i <;> simp

theorem setr (ch : Chan) (val : Level) : Statement (.setr ch val) := by
  apply BitVec.eq_of_getLsbD_eq
  intro i hi
  simp only [encode, BitVec.getLsbD_and, BitVec.getLsbD_append]
  interval_cases i <;> simp

theorem regread (addr : BitVec 16) : Statement (.regread addr) := by
  apply BitVec.eq_of_getLsbD_eq
  intro i hi
  simp only [encode, BitVec.getLsbD_and, BitVec.getLsbD_append]
  interval_cases i <;> simp

end Sys2Proof.Laws.EncodeFits
end

