-- ==== Sys2Proof/Laws/Registry.lean ====
section
/-! SUPPORT. The loops over the registry under the invariants R35 and R36: the active slots, one removal, one frame (spec/42_registry_render.md R160 to R162). -/

namespace Sys2Proof.Machine

/-! ### The active slots -/

/-- What the loops of the registry rely on: the shape and the invariants R35, R36. -/
structure State.Compact (s : State) : Prop where
  shape : s.Shape
  registry : s.RegistryInv
  index : s.IndexInv

theorem State.Inv.compact {s : State} (h : s.Inv) : s.Compact := ⟨h.shape, h.registry, h.index⟩

/-- An active slot holds a voice of the engine whose index is that slot (R35, R36), so its check is true. -/
theorem State.Compact.slot_active {s : State} (h : s.Compact) {k : Nat} (hk : k < s.numActive) :
    ∃ id, s.slot k = some id ∧ s.isVoice id ∧ (s.voice id).idx = some k := by
  obtain ⟨hn, hsome, -, hvoice, hinj⟩ := h.registry
  obtain ⟨id, hid⟩ := Option.isSome_iff_exists.1 (hsome k hk)
  have hkC : k < s.cfg.C := lt_of_lt_of_le hk hn
  have hv : s.isVoice id := hvoice k hkC id hid
  refine ⟨id, hid, hv, ?_⟩
  obtain ⟨hnone, hsm⟩ := h.index id.ch id.rv hv
  cases hx : (s.voice id).idx with
  | none => exact absurd hid (hnone hx k hkC)
  | some j =>
    obtain ⟨hj, hjs⟩ := hsm j hx
    rw [hinj j hj k hk (hjs.trans hid.symm)]

theorem State.Compact.checkedSlot {s : State} (h : s.Compact) {k : Nat} (hk : k < s.numActive) :
    ∃ id, s.checkedSlot k = some id ∧ s.slot k = some id ∧ s.isVoice id ∧
      (s.voice id).idx = some k := by
  obtain ⟨id, h1, h2, h3⟩ := h.slot_active hk
  exact ⟨id, State.checkedSlot_eq_some.2 ⟨h1, h3⟩, h1, h2, h3⟩

theorem State.Compact.slot_inactive {s : State} (h : s.Compact) {k : Nat} (hk : s.numActive ≤ k) :
    s.slot k = none := by
  by_cases hC : k < s.cfg.C
  · exact h.registry.2.2.1 k hC hk
  · have := h.shape.2.2.2.1
    simp [State.slot, List.getElem?_eq_none (show s.slots.length ≤ k by omega)]

/-- A voice of the engine is active exactly when it is in a slot (R36). -/
theorem State.Compact.idx_iff {s : State} (h : s.Compact) {id : VoiceId} (hv : s.isVoice id)
    {k : Nat} : (s.voice id).idx = some k ↔ s.slot k = some id := by
  constructor
  · exact fun hx => ((h.index id.ch id.rv hv).2 k hx).2
  · intro hs
    have hk : k < s.numActive := by
      by_contra hk
      rw [h.slot_inactive (Nat.le_of_not_lt hk)] at hs
      exact absurd hs (by simp)
    obtain ⟨id', h1, -, h3⟩ := h.slot_active hk
    rw [hs] at h1
    cases h1
    exact h3

theorem State.Compact.slot_lt {s : State} (h : s.Compact) {k : Nat} {id : VoiceId}
    (hs : s.slot k = some id) : k < s.numActive := by
  by_contra hk
  rw [h.slot_inactive (Nat.le_of_not_lt hk)] at hs
  exact absurd hs (by simp)

theorem State.Compact.slot_isVoice {s : State} (h : s.Compact) {k : Nat} {id : VoiceId}
    (hs : s.slot k = some id) : s.isVoice id := by
  obtain ⟨id', h1, h2, -⟩ := h.slot_active (h.slot_lt hs)
  rw [hs] at h1
  cases h1
  exact h2

theorem State.Compact.slot_inj {s : State} (h : s.Compact) {j k : Nat} {id : VoiceId}
    (hj : s.slot j = some id) (hk : s.slot k = some id) : j = k :=
  h.registry.2.2.2.2 j (h.slot_lt hj) k (h.slot_lt hk) (hj.trans hk.symm)

/-- `Compact` from the two facts that say it all: which slots are filled with voices, and that slots and indexes agree. -/
theorem State.Compact.mk' {s : State} (hsh : s.Shape) (hn : s.numActive ≤ s.cfg.C)
    (hfull : ∀ k < s.numActive, ∃ id, s.slot k = some id ∧ s.isVoice id)
    (hempty : ∀ k, s.numActive ≤ k → s.slot k = none)
    (hidx : ∀ id, s.isVoice id → ∀ k, (s.voice id).idx = some k ↔ s.slot k = some id) :
    s.Compact := by
  have hlt : ∀ {k id}, s.slot k = some id → k < s.numActive := fun {k id} hs => by
    by_contra hk
    rw [hempty k (Nat.le_of_not_lt hk)] at hs
    exact absurd hs (by simp)
  refine ⟨hsh, ⟨hn, ?_, fun k _ hk => hempty k hk, ?_, ?_⟩, ?_⟩
  · intro k hk
    obtain ⟨id, hid, -⟩ := hfull k hk
    simp [hid]
  · intro k _ id hid
    obtain ⟨id', h1, h2⟩ := hfull k (hlt hid)
    rw [Option.mem_def.1 hid] at h1
    cases h1
    exact h2
  · intro j hj k hk hjk
    obtain ⟨id, hid, hv⟩ := hfull j hj
    have h1 := (hidx id hv j).2 hid
    have h2 := (hidx id hv k).2 (hjk ▸ hid)
    rw [h1] at h2
    exact Option.some.inj h2
  · intro ch v hv
    refine ⟨fun hnone k _ hs => ?_, fun k hk => ?_⟩
    · rw [(hidx ⟨ch, v⟩ hv k).2 hs] at hnone
      exact absurd hnone (by simp)
    · have := (hidx ⟨ch, v⟩ hv k).1 hk
      exact ⟨hlt this, this⟩

/-- `Compact` looks at sizes, slots, indexes and `numActive` only. -/
theorem State.Compact.congr {s t : State} (h : s.Compact) (hsh : t.Shape) (hc : t.cfg = s.cfg)
    (hn : t.numActive = s.numActive) (hs : ∀ k, t.slot k = s.slot k)
    (hv : ∀ id, (t.voice id).idx = (s.voice id).idx) : t.Compact := by
  refine State.Compact.mk' hsh (by rw [hn, hc]; exact h.registry.1) ?_ ?_ ?_
  · intro k hk
    obtain ⟨id, h1, h2, -⟩ := h.slot_active (hn ▸ hk)
    exact ⟨id, (hs k).trans h1, by simpa [State.isVoice, hc] using h2⟩
  · intro k hk
    rw [hs]
    exact h.slot_inactive (hn ▸ hk)
  · intro id hid k
    rw [hv, hs]
    exact h.idx_iff (by simpa [State.isVoice, hc] using hid)

theorem State.EnvFrame.compact {s t : State} (h : s.EnvFrame t) (hs : s.Compact) : t.Compact :=
  hs.congr (h.shape hs.shape) h.cfg h.numActive h.slot
    fun id => by obtain ⟨e, he⟩ := h.voice id; rw [he]

/-! ### The list of active ids -/

theorem State.mem_activeIds {s : State} {id : VoiceId} :
    id ∈ s.activeIds ↔ ∃ k < s.numActive, s.slot k = some id := by
  simp [State.activeIds]

theorem State.Compact.mem_activeIds {s : State} (h : s.Compact) {id : VoiceId} :
    id ∈ s.activeIds ↔ ∃ k, s.slot k = some id := by
  rw [State.mem_activeIds]
  exact ⟨fun ⟨k, _, hs⟩ => ⟨k, hs⟩, fun ⟨k, hs⟩ => ⟨k, h.slot_lt hs, hs⟩⟩

/-- The ids of the first `n` slots, when those slots are full. -/
theorem filterMap_range_full {α : Type} (f : Nat → Option α) (n : Nat)
    (h : ∀ k < n, (f k).isSome = true) :
    ((List.range n).filterMap f).length = n ∧
      ∀ k < n, ((List.range n).filterMap f)[k]? = f k := by
  induction n with
  | zero => simp
  | succ n ih =>
    obtain ⟨h1, h2⟩ := ih fun k hk => h k (by omega)
    obtain ⟨x, hx⟩ := Option.isSome_iff_exists.1 (h n (by omega))
    rw [List.range_succ, List.filterMap_append]
    simp only [List.filterMap_cons, hx, List.filterMap_nil]
    refine ⟨by simp [h1], fun k hk => ?_⟩
    rcases Nat.lt_succ_iff_lt_or_eq.1 hk with hlt | rfl
    · rw [List.getElem?_append_left (by omega), h2 k hlt]
    · simp [h1, hx]

theorem State.Compact.length_activeIds {s : State} (h : s.Compact) :
    s.activeIds.length = s.numActive :=
  (filterMap_range_full s.slot s.numActive h.registry.2.1).1

theorem State.Compact.getElem?_activeIds {s : State} (h : s.Compact) (k : Nat) :
    s.activeIds[k]? = s.slot k := by
  by_cases hk : k < s.numActive
  · exact (filterMap_range_full s.slot s.numActive h.registry.2.1).2 k hk
  · rw [h.slot_inactive (Nat.le_of_not_lt hk), List.getElem?_eq_none]
    rw [h.length_activeIds]
    omega

/-- Two compact registries with the same slots have the same ids. -/
theorem State.activeIds_congr {s t : State} (hn : t.numActive = s.numActive)
    (hs : ∀ k, t.slot k = s.slot k) : t.activeIds = s.activeIds := by
  have : t.slot = s.slot := funext hs
  simp [State.activeIds, hn, this]

theorem State.Compact.nodup_activeIds {s : State} (h : s.Compact) : s.activeIds.Nodup := by
  rw [List.nodup_iff_injective_getElem]
  intro a b hab
  have ha := h.getElem?_activeIds a
  have hb := h.getElem?_activeIds b
  rw [List.getElem?_eq_getElem a.2] at ha
  rw [List.getElem?_eq_getElem b.2] at hb
  have hab' : s.activeIds[a.1] = s.activeIds[b.1] := hab
  rw [hab'] at ha
  exact Fin.ext (h.slot_inj ha.symm hb.symm)

/-! ### Removing one voice (R160) -/

theorem Voice.eq_with_idx {x : Voice} {k : Option Nat} (h : x.idx = k) : x = { x with idx := k } := by
  subst h; rfl

/-- The inner loop: from position `i` on, `m` slots take what stands one above, and the voices that move take their new index. -/
theorem shiftLoop_spec {s : State} (hsh : s.Shape) (i m : Nat) (hm : i + m < s.cfg.C)
    (hfull : ∀ j, i ≤ j → j < i + m → ∃ id, s.slot (j + 1) = some id ∧ s.isVoice id)
    (hinj : ∀ j k id, s.slot j = some id → s.slot k = some id → j = k) :
    let t := (List.range' i m).foldl State.shiftSlot s
    t.numActive = s.numActive ∧
    (∀ k, t.slot k = if i ≤ k ∧ k < i + m then s.slot (k + 1) else s.slot k) ∧
    (∀ j, i ≤ j → j < i + m → ∀ id, s.slot (j + 1) = some id →
      t.voice id = { s.voice id with idx := some j }) ∧
    (∀ id, (∀ j, i ≤ j → j < i + m → s.slot (j + 1) ≠ some id) → t.voice id = s.voice id) := by
  induction m with
  | zero =>
    refine ⟨rfl, fun k => ?_, fun j h1 h2 => by omega, fun id _ => rfl⟩
    rw [if_neg (by omega)]; rfl
  | succ m ih =>
    obtain ⟨ih0, ih1, ih2, ih3⟩ := ih (by omega) fun j h1 h2 => hfull j h1 (by omega)
    have hfr := State.IdxFrame.shiftLoop s (List.range' i m)
    simp only [List.range'_concat, List.foldl_append, List.foldl_cons, List.foldl_nil, Nat.one_mul]
    set t := (List.range' i m).foldl State.shiftSlot s with ht
    obtain ⟨id, hid, hv⟩ := hfull (i + m) (by omega) (by omega)
    have htsh : t.Shape := hfr.shape hsh
    have hslot : t.slot (i + m + 1) = some id := by
      rw [ih1, if_neg (by omega)]; exact hid
    have hlen : i + m < t.slots.length := by
      rw [htsh.2.2.2.1, hfr.cfg]; omega
    have hstep : t.shiftSlot (i + m) = (t.setSlot (i + m) (some id)).setIdx id (some (i + m)) := by
      simp only [State.shiftSlot, hslot, State.slot_setSlot_self t hlen]
    have hvt : t.isVoice id := by simpa [State.isVoice, hfr.cfg] using hv
    rw [hstep]
    refine ⟨by simpa using ih0, fun k => ?_, fun j h1 h2 x hx => ?_, fun x hx => ?_⟩
    · rw [State.slot_setIdx]
      by_cases hk : k = i + m
      · subst hk
        rw [State.slot_setSlot_self t hlen, if_pos (by omega), hid]
      · rw [State.slot_setSlot_ne t hk, ih1]
        by_cases hk' : i ≤ k ∧ k < i + m
        · rw [if_pos hk', if_pos (by omega)]
        · rw [if_neg hk', if_neg (by omega)]
    · by_cases hj : j = i + m
      · subst hj
        rw [hid] at hx
        cases hx
        rw [State.voice_setIdx_self (htsh.setSlot _ _) hvt, State.voice_setSlot,
          ih3 id fun k hk1 hk2 hk => by have := hinj _ _ _ hk hid; omega]
      · have hne : x ≠ id := fun e => by subst e; have := hinj _ _ _ hx hid; omega
        rw [State.voice_setIdx_ne _ hne, State.voice_setSlot]
        exact ih2 j h1 (by omega) x hx
    · have hne : x ≠ id := fun e => by subst e; exact hx (i + m) (by omega) (by omega) hid
      rw [State.voice_setIdx_ne _ hne, State.voice_setSlot]
      exact ih3 x fun j h1 h2 => hx j h1 (by omega)

/-- The removal of the voice at position `i` (R160): the slots above move down by one, and every voice's index follows its slot. -/
theorem State.Compact.removeAt_spec {s : State} (h : s.Compact) {i : Nat} {id : VoiceId}
    (hid : s.slot i = some id) :
    (s.removeAt i id).numActive + 1 = s.numActive ∧
    (∀ k, (s.removeAt i id).slot k = if k < i then s.slot k else s.slot (k + 1)) ∧
    (∀ x, (s.removeAt i id).voice x = { s.voice x with
      idx := if x = id then none
        else (s.voice x).idx.map fun k => if i < k then k - 1 else k } ∨ ¬ s.isVoice x) := by
  have hi := h.slot_lt hid
  have hv := h.slot_isVoice hid
  have hC := h.registry.1
  obtain ⟨n, hn⟩ : ∃ n, s.numActive = n + 1 := ⟨s.numActive - 1, by omega⟩
  have hsh := h.shape.setIdx id none
  obtain ⟨h0, h1, h2, h3⟩ := shiftLoop_spec hsh i (n - i) (by simp; omega)
    (fun j _ hj2 => by
      obtain ⟨x, hx, hxv, -⟩ := h.slot_active (show j + 1 < s.numActive by omega)
      exact ⟨x, by simpa using hx, hxv⟩)
    (fun j k x hj hk => h.slot_inj (by simpa using hj) (by simpa using hk))
  have hfr := State.IdxFrame.shiftLoop (s.setIdx id none) (List.range' i (n - i))
  have hdef : s.removeAt i id =
      let t := (List.range' i (n - i)).foldl State.shiftSlot (s.setIdx id none)
      { t.setSlot (t.numActive - 1) none with numActive := t.numActive - 1 } := by
    simp only [State.removeAt, State.setIdx_numActive, hn, Nat.add_sub_cancel]
    rfl
  set t := (List.range' i (n - i)).foldl State.shiftSlot (s.setIdx id none) with ht
  have htn : t.numActive - 1 = n := by rw [h0]; simp [hn]
  have hlen : n < t.slots.length := by
    have := (hfr.shape hsh).2.2.2.1
    rw [this, hfr.cfg]; simp; omega
  rw [hdef]
  refine ⟨by simp [htn, hn], fun k => ?_, fun x => ?_⟩
  · change (t.setSlot (t.numActive - 1) none).slot k = _
    rw [htn]
    by_cases hk : k = n
    · subst hk
      rw [State.slot_setSlot_self t hlen, if_neg (by omega), h.slot_inactive (by omega)]
    · rw [State.slot_setSlot_ne t hk, h1]
      simp only [State.slot_setIdx]
      by_cases hk1 : k < i
      · rw [if_neg (by omega), if_pos hk1]
      · by_cases hk2 : k < n
        · rw [if_pos (by omega), if_neg hk1]
        · rw [if_neg (by omega), if_neg hk1, h.slot_inactive (by omega), h.slot_inactive (by omega)]
  · change t.voice x = _ ∨ _
    by_cases hxv : s.isVoice x
    · left
      by_cases hx : x = id
      · subst hx
        rw [h3 x fun j hj1 hj2 hs => by
          have := h.slot_inj (by simpa using hs) hid; omega, State.voice_setIdx_self h.shape hxv]
        simp
      · simp only [hx, if_false]
        cases hk : (s.voice x).idx with
        | none =>
          rw [h3 x fun j hj1 hj2 hs => by
            rw [(h.idx_iff hxv).2 (by simpa using hs)] at hk
            exact absurd hk (by simp), State.voice_setIdx_ne s hx]
          exact Voice.eq_with_idx hk
        | some k =>
          have hs := (h.idx_iff hxv).1 hk
          have hkn := h.slot_lt hs
          by_cases hik : i < k
          · obtain ⟨m, rfl⟩ : ∃ m, k = m + 1 := ⟨k - 1, by omega⟩
            rw [h2 m (by omega) (by omega) x (by simpa using hs), State.voice_setIdx_ne s hx]
            simp [hik]
          · have hki : k ≠ i := fun e => hx (by
              subst e; rw [hid] at hs; exact (Option.some.inj hs).symm)
            rw [h3 x fun j hj1 hj2 hs' => by
              have := h.slot_inj (show s.slot (j + 1) = some x by simpa using hs') hs; omega,
              State.voice_setIdx_ne s hx]
            exact Voice.eq_with_idx (by rw [hk, Option.map_some, if_neg hik])
    · exact .inr hxv

/-- A removal keeps the invariants R35 and R36. -/
theorem State.Compact.removeAt {s : State} (h : s.Compact) {i : Nat} {id : VoiceId}
    (hid : s.slot i = some id) : (s.removeAt i id).Compact := by
  obtain ⟨h1, h2, h3⟩ := h.removeAt_spec hid
  have hfr := State.IdxFrame.removeAt s i id
  have hn := h.registry.1
  have hi := h.slot_lt hid
  refine State.Compact.mk' (hfr.shape h.shape) (by rw [hfr.cfg]; omega) ?_ ?_ ?_
  · intro k hk
    rw [h2]
    by_cases hki : k < i
    · obtain ⟨x, hx, hxv, -⟩ := h.slot_active (show k < s.numActive by omega)
      exact ⟨x, by rw [if_pos hki, hx], by simpa [State.isVoice, hfr.cfg] using hxv⟩
    · obtain ⟨x, hx, hxv, -⟩ := h.slot_active (show k + 1 < s.numActive by omega)
      exact ⟨x, by rw [if_neg hki, hx], by simpa [State.isVoice, hfr.cfg] using hxv⟩
  · intro k hk
    rw [h2, if_neg (by omega), h.slot_inactive (by omega)]
  · intro x hx k
    have hxv : s.isVoice x := by simpa [State.isVoice, hfr.cfg] using hx
    have hvx := (h3 x).resolve_right (not_not.2 hxv)
    rw [hvx, h2]
    by_cases hxi : x = id
    · subst hxi
      simp only [if_true, reduceCtorEq, false_iff]
      split
      · intro hs; have := h.slot_inj hs hid; omega
      · intro hs; have := h.slot_inj hs hid; omega
    · simp only [hxi, if_false, Option.map_eq_some_iff]
      constructor
      · rintro ⟨j, hj, rfl⟩
        have hs := (h.idx_iff hxv).1 hj
        have hji : j ≠ i := fun e => hxi (by
          subst e; rw [hid] at hs; exact (Option.some.inj hs).symm)
        by_cases hij : i < j
        · rw [if_pos hij, if_neg (by omega), show j - 1 + 1 = j by omega, hs]
        · rw [if_neg hij, if_pos (by omega), hs]
      · intro hs
        by_cases hki : k < i
        · rw [if_pos hki] at hs
          exact ⟨k, (h.idx_iff hxv).2 hs, by rw [if_neg (by omega)]⟩
        · rw [if_neg hki] at hs
          exact ⟨k + 1, (h.idx_iff hxv).2 hs, by rw [if_pos (by omega)]; omega⟩

/-- A removal takes the voice out of the list of active ids (R161). -/
theorem State.Compact.activeIds_removeAt {s : State} (h : s.Compact) {i : Nat} {id : VoiceId}
    (hid : s.slot i = some id) : (s.removeAt i id).activeIds = s.activeIds.eraseIdx i := by
  apply List.ext_getElem?
  intro k
  rw [(h.removeAt hid).getElem?_activeIds, (h.removeAt_spec hid).2.1, List.getElem?_eraseIdx,
    h.getElem?_activeIds, h.getElem?_activeIds]

end Sys2Proof.Machine
end

