-- ==== Sys2Proof/Laws/Step.lean ====
section
/-! SUPPORT. What a step can do, said once: the cases of `step` and `look`, and of the note commands; `Host.Core.run` one step at a time. -/

namespace Sys2Proof.Machine

theorem next_inj {a b : State}
    (h : (Host.Outcome.next a : Host.Outcome State Fault Refusal) = .next b) : a = b := by
  injection h

theorem core_run_zero (s : State) : Sys2Proof.core.run 0 s = .next s := rfl

theorem Host_run_succ (M : Host.Core) (k : Nat) {s t : M.State} (h : M.step s = .next t) :
    M.run (k + 1) s = M.run k t := by
  simp [Host.Core.run, h]

theorem core_run_succ {s t : State} (k : Nat) (h : step s = .next t) :
    Sys2Proof.core.run (k + 1) s = Sys2Proof.core.run k t :=
  Host_run_succ Sys2Proof.core k h

/-- The command port is ready exactly when nothing waits and the sequencer is IDLE (R81, R82). -/
theorem State.ready_iff {s : State} :
    s.ready = true ↔ s.outQ = [] ∧ s.resp = none ∧ s.sequencer = .idle := by
  simp [State.ready, and_assoc]

theorem step_cases {s t : State} (h : step s = .next t) :
    t = s ∧ s.inputs = [] ∨
      ∃ p rest, s.inputs = p :: rest ∧ look p { s with inputs := rest } = .next t := by
  unfold step at h
  split at h
  · exact .inl ⟨(next_inj h).symm, ‹_›⟩
  · exact .inr ⟨_, _, ‹_›, h⟩

/-- Everything one look at the pins can do. -/
theorem look_cases {p : PortInput} {s t : State} (h : look p s = .next t) :
    (p.reset = true ∧ t = s.assertReset) ∨
    t = s ∨
    (∃ w ws, s.outQ = w :: ws ∧ p.sinkReady = true ∧ t = s.handWord w ws) ∨
    (∃ r, s.outQ = [] ∧ s.resp = some r ∧ p.hostReady = true ∧ t = s.handResponse r) ∨
    (∃ w i, p.cmd = some w ∧ s.ready = true ∧ decodeWord w = .instr i ∧ exec i s = .next t) ∨
    (∃ w e, p.cmd = some w ∧ s.ready = true ∧ decodeWord w = .undefined e ∧ t = s.ignoreWord) := by
  unfold look at h
  split at h
  · exact .inl ⟨‹_›, (next_inj h).symm⟩
  · split at h
    · rename_i w ws hq
      split at h
      · exact .inr (.inr (.inl ⟨w, ws, hq, ‹_›, (next_inj h).symm⟩))
      · exact .inr (.inl (next_inj h).symm)
    · rename_i hq
      split at h
      · rename_i r hr
        split at h
        · exact .inr (.inr (.inr (.inl ⟨r, hq, hr, ‹_›, (next_inj h).symm⟩)))
        · exact .inr (.inl (next_inj h).symm)
      · split at h
        · rename_i w hw
          split at h
          · rename_i hr
            unfold accept at h
            split at h
            · exact .inr (.inr (.inr (.inr (.inl ⟨w, _, hw, hr, ‹_›, h⟩))))
            · exact .inr (.inr (.inr (.inr (.inr ⟨w, _, hw, hr, ‹_›, (next_inj h).symm⟩))))
          · exact .inr (.inl (next_inj h).symm)
        · exact .inr (.inl (next_inj h).symm)

/-- The two outcomes of NOTEOFF (R149). -/
theorem State.noteOff_cases (s : State) (ch : Chan) (n : Midi7) :
    (∃ v, s.boundVoice ch n = some v ∧ ∃ d, s.noteOff ch n = (s.release ⟨ch, v⟩).respond .ok d) ∨
    (s.boundVoice ch n = none ∧ s.noteOff ch n = s.respond .nomatch 0#32) := by
  cases hb : s.boundVoice ch n with
  | none => exact .inr ⟨rfl, by simp [State.noteOff, hb]⟩
  | some v => exact .inl ⟨v, rfl, by simp only [State.noteOff, hb]; exact ⟨_, rfl⟩⟩

/-- The four outcomes of NOTEON with a velocity other than 0 (R141, R148). -/
theorem State.noteOn_cases (s : State) (ch : Chan) (n vel : Midi7) (hP : 1 ≤ s.cfg.P) :
    (∃ v, s.boundVoice ch n = some v ∧ ∃ d,
      s.noteOn ch n vel = ((s.bump ⟨ch, v⟩).noteonVoice ⟨ch, v⟩ n vel).respond .ok d) ∨
    (∃ v, s.boundVoice ch n = none ∧ s.numActive < s.cfg.C ∧ s.freeVoice ch = some v ∧ ∃ d,
      s.noteOn ch n vel =
        (((s.takeSlot ⟨ch, v⟩).bump ⟨ch, v⟩).noteonVoice ⟨ch, v⟩ n vel).respond .ok d) ∨
    (∃ v, s.boundVoice ch n = none ∧ s.numActive < s.cfg.C ∧ s.freeVoice ch = none ∧
      s.oldestVoice ch = some v ∧ ∃ d,
        s.noteOn ch n vel = ((s.bump ⟨ch, v⟩).noteonVoice ⟨ch, v⟩ n vel).respond .ok d) ∨
    (s.boundVoice ch n = none ∧ s.cfg.C ≤ s.numActive ∧
      s.noteOn ch n vel = s.respond .dropped 0#32) := by
  unfold State.noteOn
  rcases s.activate_cases ch n hP with ⟨v, hb, ha⟩ | ⟨v, hb, hn, hf, ha⟩ |
    ⟨v, hb, hn, hf, ho, ha⟩ | ⟨hb, hn, ha⟩ <;> rw [ha]
  · exact .inl ⟨v, hb, _, rfl⟩
  · exact .inr (.inl ⟨v, hb, hn, hf, _, rfl⟩)
  · exact .inr (.inr (.inl ⟨v, hb, hn, hf, ho, _, rfl⟩))
  · exact .inr (.inr (.inr ⟨hb, hn, rfl⟩))

end Sys2Proof.Machine
end

