-- ==== Sys2Proof/Tests/Slice0.lean ====
section
/-! SUPPORT. Tests of the model: the assembler's checks, words written out from the spec's encodings, one or two steps of each command, and for every statement with hypotheses a concrete case that meets them.
Expected values are those of spec/95_test_vectors.md or worked out by hand from the rule named. -/

namespace Sys2Proof.Tests

open Sys2Proof.Machine

/-! ### WellFormed: an ill-formed line for each check is refused (R86, R87) -/

theorem test_wf_channel : (AsmLine.noteon 16 69 100).wellFormed = false := by decide
theorem test_wf_note : (AsmLine.noteon 0 128 100).wellFormed = false := by decide
theorem test_wf_velocity : (AsmLine.noteon 0 69 128).wellFormed = false := by decide
theorem test_wf_roster : (AsmLine.voiceoff 0 256).wellFormed = false := by decide
theorem test_wf_level : (AsmLine.seta 0 0x1000000).wellFormed = false := by decide
theorem test_wf_address : (AsmLine.regread 0x10000).wellFormed = false := by decide
theorem test_wf_setenv : (AsmLine.setenv 0 1 1 0x1000000 1).wellFormed = false := by decide
theorem test_wf_midi : (AsmLine.midi 256 0 0).wellFormed = false ∧
    (AsmLine.midi 0x90 128 0).wellFormed = false ∧ (AsmLine.midi 0x90 0 128).wellFormed = false := by
  decide
theorem test_wf_limits_accepted : (AsmLine.noteon 15 127 127).wellFormed = true ∧
    (AsmLine.voiceoff 15 255).wellFormed = true ∧ (AsmLine.setr 15 0xFFFFFF).wellFormed = true ∧
    (AsmLine.regread 0xFFFF).wellFormed = true := by decide
theorem test_assemble_refuses_ill_formed : assemble (.noteoff 16 0) = none := by decide

/-! ### Decoding: a word of every command, bit by bit from R72 to R78 -/

theorem test_decode_nop : decodeWord 0b00000000000000000000000000000000#32 = .instr .nop := by decide
theorem test_decode_noteon :
    decodeWord 0b00011111011111110000000100000000#32 = .instr (.noteon 15#4 127#7 1#7) := by decide
theorem test_decode_noteoff :
    decodeWord 0b00100001010001010000000000000000#32 = .instr (.noteoff 1#4 69#7) := by decide
theorem test_decode_voiceoff :
    decodeWord 0b00111000000000000000000011111110#32 = .instr (.voiceoff 8#4 254#8) := by decide
theorem test_decode_releaseall :
    decodeWord 0b01000000000000000000000000000000#32 = .instr .releaseall := by decide
theorem test_decode_cleanup :
    decodeWord 0b01010000000000000000000000000000#32 = .instr .cleanup := by decide
theorem test_decode_advance :
    decodeWord 0b01100000000000000000000000000000#32 = .instr .advance := by decide
theorem test_decode_render :
    decodeWord 0b01110000000000000000000000000000#32 = .instr .render := by decide
theorem test_decode_seta :
    decodeWord 0b10000001100000000000000000000010#32 = .instr (.seta 1#4 0x800002#24) := by decide
theorem test_decode_setd :
    decodeWord 0b10010010000000000000000000000001#32 = .instr (.setd 2#4 1#24) := by decide
theorem test_decode_sets :
    decodeWord 0b10100000011111111111111111111111#32 = .instr (.sets 0#4 0x7FFFFF#24) := by decide
theorem test_decode_setr :
    decodeWord 0b10111111111111111111111111111111#32 = .instr (.setr 15#4 0xFFFFFF#24) := by decide
theorem test_decode_regread :
    decodeWord 0b11000000000000000111111100000010#32 = .instr (.regread 0x7F02#16) := by decide
/-- The undefined words of 95_test_vectors.md §2.1. -/
theorem test_decode_undefined :
    ([0x00000001#32, 0xD0000000#32, 0xE1234567#32, 0xFFFFFFFF#32, 0x10456401#32, 0x10C56400#32,
      0x1045E400#32, 0x20454000#32, 0x30000100#32, 0x4000000F#32, 0x50000001#32, 0x70000080#32,
      0xC0010000#32].all fun w => (decodeWord w).toOption.isNone) = true := by decide
/-- Byte order of R55: the word 0x10456400 arrives as 00, 64, 45, 10. -/
theorem test_decode_bytes : decodeBytes [0x00#8, 0x64#8, 0x45#8, 0x10#8, 0xAA#8] =
    (.instr (.noteon 0#4 69#7 100#7), [0xAA#8]) := by decide
theorem test_decode_truncated : decodeBytes [0x00#8, 0x64#8, 0x45#8] =
    (.undefined .truncated, [0x00#8, 0x64#8, 0x45#8]) := by decide
/-- R55 on the VF record 0x00000045643FFFFF of 95_test_vectors.md section 0. -/
theorem test_outword_bytes :
    bytesOfOutWord 0x00000045643FFFFF#64 =
      [0xFF#8, 0xFF#8, 0x3F#8, 0x64#8, 0x45#8, 0x00#8, 0x00#8, 0x00#8] ∧
    outWordOfBytes 0x02#8 0x00#8 0x00#8 0x00#8 0x00#8 0x00#8 0x00#8 0x80#8 =
      0x8000000000000002#64 := by decide
theorem test_encode_noteon : encode (.noteon 3#4 60#7 100#7) = 0x133C6400#32 := by decide
/-- 95_test_vectors.md S4.1. -/
theorem test_midi_lines : assemble (.midi 0x90 69 0) = some [0x20450000#32] ∧
    assemble (.midi 0x93 60 100) = some [0x133C6400#32] ∧ assemble (.midi 0xB0 64 127) = some [] := by
  decide
theorem test_line_of_text :
    assembleLine "NOTEON 0, 69, 0x64 ; start".toList = some [0x10456400#32] ∧
    assembleLine "NOTEON 16, 69, 100".toList = none ∧ assembleLine "; no command".toList = some [] := by
  decide

/-! ### Helpers -/

/-- The state an outcome holds, if it is a next state. -/
def after? : Host.Outcome State Fault Refusal → Option State
  | .next t => some t
  | .fault _ => none
  | .refused _ => none

/-- `s` after the commands of a list, each one's words and response taken. -/
def play : List Instr → State → State
  | [], s => s
  | i :: is, s => play is (((after? (exec i s)).getD s).drained)

/-- What command `i` responds in `s`. -/
def answer (i : Instr) (s : State) : Option Response := (after? (exec i s)).bind State.resp

/-- The words command `i` emits in `s`. -/
def emitted (i : Instr) (s : State) : List OutWord := ((after? (exec i s)).map State.outQ).getD []

/-- The reset state of a small engine. -/
def small : State := State.resetWith ⟨4, 2, 2⟩

/-- `small` with channel 0's voices bound to notes 60 and 62, and channel 15's first to note 64. -/
def held : State := play [.noteon 0#4 60#7 100#7, .noteon 0#4 62#7 80#7, .noteon 15#4 64#7 1#7] small

/-- `held` with note 62 released and one sample on: the voice in slot 1 is DONE. -/
def mixed : State := play [.noteoff 0#4 62#7, .advance] held

/-- An engine at capacity: two slots, both taken by channel 0. -/
def full : State := play [.noteon 0#4 60#7 100#7, .noteon 0#4 62#7 100#7] (State.resetWith ⟨2, 2, 1⟩)

/-- `mixed` in the middle of a block: the words of RENDER wait. -/
def rendering : State := (after? (exec .render mixed)).getD mixed

/-- Pins with nothing offered and nothing taken. -/
def quiet : PortInput := ⟨false, none, false, false⟩

/-- Pins with the sink and the host accepting. -/
def taking : PortInput := ⟨false, none, true, true⟩

/-- Pins with reset asserted. -/
def resetting : PortInput := ⟨true, some 0x10456400#32, true, true⟩

/-! ### One step of each command -/

theorem test_nop : answer .nop held = some ⟨.ok, 0#32⟩ := by decide
/-- A1: the first free voice, slot 0, path FREE. -/
theorem test_noteon_free : answer (.noteon 0#4 69#7 100#7) small = some ⟨.ok, 0x00000000#32⟩ ∧
    ((play [.noteon 0#4 69#7 100#7] small).voice ⟨0#4, 0⟩ =
      ⟨69#7, 100#7, some 0, 1#64, ⟨.attack, 0#24, 0xFFFFFF#24, 1#24, 0xFFFFFF#24⟩⟩) := by decide
/-- A3: the voice with the least sequence number is stolen and keeps its slot. -/
theorem test_noteon_steal : answer (.noteon 0#4 65#7 100#7) held = some ⟨.ok, 0x80000000#32⟩ ∧
    ((play [.noteon 0#4 65#7 100#7] held).voice ⟨0#4, 0⟩).note = 65#7 ∧
    ((play [.noteon 0#4 65#7 100#7] held).voice ⟨0#4, 0⟩).seq = 4#64 := by decide
/-- S8-1: the released voice's slot and roster index. -/
theorem test_noteoff : answer (.noteoff 0#4 62#7) held = some ⟨.ok, 0x00000101#32⟩ := by decide
theorem test_noteoff_nomatch : answer (.noteoff 1#4 62#7) held = some ⟨.nomatch, 0#32⟩ := by decide
theorem test_voiceoff : answer (.voiceoff 0#4 1#8) held = some ⟨.ok, 0x00000101#32⟩ := by decide
/-- N5: `rv = P`. -/
theorem test_voiceoff_badarg : answer (.voiceoff 0#4 2#8) held = some ⟨.badarg, 0#32⟩ := by decide
/-- R173: the DONE voice is not counted. -/
theorem test_releaseall : answer .releaseall mixed = some ⟨.ok, 0x00000002#32⟩ := by decide
/-- R160: the voice of slot 2 moves to slot 1. -/
theorem test_cleanup : answer .cleanup mixed = some ⟨.ok, 0x00000102#32⟩ ∧
    (play [.cleanup] mixed).slot 1 = some ⟨15#4, 0⟩ ∧
    ((play [.cleanup] mixed).voice ⟨15#4, 0⟩).idx = some 1 := by decide
/-- R84, R162: one VF record for each slot, then FE(0). -/
theorem test_advance : emitted .advance held =
    [0x0000003C64FFFFFF#64, 0x0001013E50FFFFFF#64, 0x0F00024001FFFFFF#64,
      0x8000000000000000#64] := by decide
/-- RG3: the block's cleanup comes before its first frame. -/
theorem test_render : answer .render mixed = some ⟨.ok, 0x00000102#32⟩ ∧
    emitted .render mixed =
      [0x0000003C64FFFFFF#64, 0x0F00014001FFFFFF#64, 0x8000000000000000#64,
       0x0000003C64FFFFFF#64, 0x0F00014001FFFFFF#64, 0x8000000000000001#64] := by decide
theorem test_seta : (play [.seta 15#4 4#24] small).param 15#4 =
    ⟨4#24, 0#24, 0xFFFFFF#24, 0#24⟩ := by decide
theorem test_setd : (play [.setd 0#4 2#24] small).param 0#4 =
    ⟨0#24, 2#24, 0xFFFFFF#24, 0#24⟩ := by decide
theorem test_sets : (play [.sets 3#4 0#24] small).param 3#4 =
    ⟨0#24, 0#24, 0#24, 0#24⟩ := by decide
theorem test_setr : (play [.setr 15#4 0xFFFFFF#24] small).param 15#4 =
    ⟨0#24, 0#24, 0xFFFFFF#24, 0xFFFFFF#24⟩ := by decide
/-- R51: VSTAT of an ATTACK voice, note 60, velocity 100, slot 0. -/
theorem test_regread_vstat : answer (.regread 0x1000#16) held = some ⟨.ok, 0x803C6400#32⟩ := by
  decide
theorem test_regread_unmapped : answer (.regread 0x0008#16) held = some ⟨.badarg, 0#32⟩ := by decide
/-- R192. -/
theorem test_undefined_word :
    (after? (step (held.withFetchWord 32 0xD0000000))).bind State.resp = some ⟨.ignored, 0#32⟩ := by
  decide
/-- E1: the attack of length 4 from level 0, and its last sample, which enters a decay of length 2. -/
theorem test_envelope_attack :
    (Envelope.reset.attack ⟨4#24, 2#24, 0x7FFFFF#24, 4#24⟩) =
      ⟨.attack, 0#24, 0x3FFFFF#24, 4#24, 0xFFFFFF#24⟩ ∧
    (Envelope.next ⟨.attack, 0xBFFFFD#24, 0x3FFFFF#24, 1#24, 0xFFFFFF#24⟩
      ⟨4#24, 2#24, 0x7FFFFF#24, 4#24⟩) =
      ⟨.decay, 0xFFFFFF#24, 0x400000#24, 2#24, 0x7FFFFF#24⟩ := by decide
/-- The first step after reset runs the offered word. -/
theorem test_first_step :
    (after? (step (State.reset.withFetchWord 32 0x10456400))).bind State.resp =
      some ⟨.ok, 0x00000000#32⟩ := by decide
/-- R32: while the first word of frame 1 waits, the sequencer is at position 0 of frame 1. -/
theorem test_sequencer_frame :
    ((after? (Sys2Proof.core.run 3 { rendering with inputs := [taking, taking, taking] })).map
      State.sequencer) = some (.rendering 1#16 0#8) := by decide

/-! ### Witnesses: for each statement with hypotheses, a case that meets them -/

theorem held_inv : held.Inv :=
  ⟨by decide, by decide, by decide, by decide, by decide, by decide⟩
theorem mixed_inv : mixed.Inv :=
  ⟨by decide, by decide, by decide, by decide, by decide, by decide⟩
theorem rendering_inv : rendering.Inv :=
  ⟨by decide, by decide, by decide, by decide, by decide, by decide⟩
theorem small_inv : small.Inv :=
  ⟨by decide, by decide, by decide, by decide, by decide, by decide⟩
theorem full_inv : full.Inv :=
  ⟨by decide, by decide, by decide, by decide, by decide, by decide⟩

theorem witness_ResetValues : Config.valid ⟨1, 1, 1⟩ ∧ Config.valid ⟨255, 255, 65535⟩ ∧
    Config.valid Config.ofVectors ∧ (0 < 1 ∧ 254 < 255) := by decide
theorem witness_ResetAbandonsTheCommand :
    let s := { rendering with inputs := [resetting, quiet] }
    s.inputs = resetting :: [quiet] ∧ resetting.reset = true ∧ s.outQ ≠ [] := by decide
theorem witness_EncodeOfDecode :
    decodeWord 0x10456400#32 = .instr (.noteon 0#4 69#7 100#7) := by decide
theorem witness_DecodeFollowsOpcodeMap :
    0x00000000#32 &&& 0xFFFFFFFF#32 = 0x00000000#32 ∧
    0x1F7F7F00#32 &&& 0xF08080FF#32 = 0x10000000#32 ∧
    0x2F7F0000#32 &&& 0xF080FFFF#32 = 0x20000000#32 ∧
    0x3F0000FF#32 &&& 0xF0FFFF00#32 = 0x30000000#32 ∧
    0x40000000#32 &&& 0xFFFFFFFF#32 = 0x40000000#32 ∧
    0x50000000#32 &&& 0xFFFFFFFF#32 = 0x50000000#32 ∧
    0x60000000#32 &&& 0xFFFFFFFF#32 = 0x60000000#32 ∧
    0x70000000#32 &&& 0xFFFFFFFF#32 = 0x70000000#32 ∧
    0x8FFFFFFF#32 &&& 0xF0000000#32 = 0x80000000#32 ∧
    0x9FFFFFFF#32 &&& 0xF0000000#32 = 0x90000000#32 ∧
    0xAFFFFFFF#32 &&& 0xF0000000#32 = 0xA0000000#32 ∧
    0xBFFFFFFF#32 &&& 0xF0000000#32 = 0xB0000000#32 ∧
    0xC000FFFF#32 &&& 0xFFFF0000#32 = 0xC0000000#32 := by decide
/-- One word under each disjunct, at a limit of its range. -/
theorem witness_UndefinedWords : 0xD0000000#32 ≤ 0xD0000000#32 ∧
    ((0x48000000#32).extractLsb' 28 4 = 0x4#4 ∧ 0x48000000#32 &&& 0x0FFFFFFF#32 ≠ 0#32) ∧
    ((0x10800000#32).extractLsb' 28 4 = 0x1#4 ∧ 0x10800000#32 &&& 0x008080FF#32 ≠ 0#32) ∧
    ((0x20000100#32).extractLsb' 28 4 = 0x2#4 ∧ 0x20000100#32 &&& 0x0080FFFF#32 ≠ 0#32) ∧
    ((0x30000100#32).extractLsb' 28 4 = 0x3#4 ∧ 0x30000100#32 &&& 0x00FFFF00#32 ≠ 0#32) ∧
    ((0xC8000000#32).extractLsb' 28 4 = 0xC#4 ∧ 0xC8000000#32 &&& 0x0FFF0000#32 ≠ 0#32) ∧
    ([0x48000000#32, 0x10800000#32, 0x20000100#32, 0x30000100#32, 0xC8000000#32].all fun w =>
      (decodeWord w).toOption.isNone) = true := by decide
theorem witness_TransportIsLittleEndian : (0x10456400#32).extractLsb' 0 8 = 0x00#8 ∧
    (0x10456400#32).extractLsb' 8 8 = 0x64#8 ∧ (0x10456400#32).extractLsb' 16 8 = 0x45#8 ∧
    (0x10456400#32).extractLsb' 24 8 = 0x10#8 ∧
    (0x8001014864000000#64).extractLsb' 0 8 = 0x00#8 ∧
    (0x8001014864000000#64).extractLsb' 8 8 = 0x00#8 ∧
    (0x8001014864000000#64).extractLsb' 16 8 = 0x00#8 ∧
    (0x8001014864000000#64).extractLsb' 24 8 = 0x64#8 ∧
    (0x8001014864000000#64).extractLsb' 32 8 = 0x48#8 ∧
    (0x8001014864000000#64).extractLsb' 40 8 = 0x01#8 ∧
    (0x8001014864000000#64).extractLsb' 48 8 = 0x01#8 ∧
    (0x8001014864000000#64).extractLsb' 56 8 = 0x80#8 := by decide
theorem witness_AssemblerChecksOperands : (15 ≤ 15 ∧ 127 ≤ 127 ∧ 127 ≤ 127) ∧
    assemble (.setenv 15 1 2 3 4) =
      some [0x8F000001#32, 0x9F000002#32, 0xAF000003#32, 0xBF000004#32] ∧
    assemble (.voiceoff 15 255) = some [0x3F0000FF#32] ∧ assemble (.voiceoff 15 256) = none := by
  decide
theorem witness_PseudoCommandsExpand :
    (0x9F ≤ 255 ∧ 127 ≤ 127 ∧ 1 ≤ 127 ∧ 0x9F / 16 = 9 ∧ 0 < 1) ∧
    (0x90 ≤ 255 ∧ 0x90 / 16 = 9 ∧ (0 : Nat) = 0) ∧ (0x8F ≤ 255 ∧ 0x8F / 16 = 8) ∧
    (0xFF ≤ 255 ∧ 0xFF / 16 ≠ 8 ∧ 0xFF / 16 ≠ 9) := by decide
theorem witness_StepRunsTheOfferedCommand :
    let s := { held with inputs := [offer 0x60000000#32, quiet] }
    s.inputs = offer 0x60000000#32 :: [quiet] ∧ (offer 0x60000000#32).reset = false ∧
    (offer 0x60000000#32).cmd = some 0x60000000#32 ∧ s.ready = true ∧
    decodeWord 0x60000000#32 = .instr .advance ∧ decodeTableWord 32 0x60000000 = some .advance := by
  decide
theorem witness_UndefinedWordIsIgnored :
    let s := { held with inputs := [offer 0xD0000000#32] }
    s.inputs = offer 0xD0000000#32 :: [] ∧ (offer 0xD0000000#32).reset = false ∧
    (offer 0xD0000000#32).cmd = some 0xD0000000#32 ∧ s.ready = true ∧
    decodeWord 0xD0000000#32 = .undefined .reservedOpcode := by decide
theorem witness_BusyPortTakesNoCommand : rendering.sequencer = .rendering 0#16 0#8 ∧
    rendering.outQ ≠ [] ∧ rendering.resp ≠ none ∧ rendering.ready = false := by decide
theorem witness_UnacceptedWordHoldsTheEngine :
    let s := { rendering with inputs := [quiet, quiet] ++ [taking] }
    s.outQ ≠ [] ∧ s.inputs = [quiet, quiet] ++ [taking] ∧
    (∀ p ∈ [quiet, quiet], p.reset = false ∧ p.sinkReady = false) ∧
    rendering.outQ = 0x0000003C64FFFFFF#64 :: rendering.outQ.tail ∧
    taking.reset = false ∧ taking.sinkReady = true := by decide
/-- NOP has answered and nothing has been taken. -/
theorem witness_UntakenResponseHoldsTheEngine :
    let s := { held with resp := some ⟨.ok, 0#32⟩, inputs := [quiet, quiet] ++ [taking] }
    s.outQ = [] ∧ s.resp ≠ none ∧ s.inputs = [quiet, quiet] ++ [taking] ∧
    (∀ p ∈ [quiet, quiet], p.reset = false ∧ p.hostReady = false) ∧
    s.resp = some ⟨.ok, 0#32⟩ ∧ taking.reset = false ∧ taking.hostReady = true := by decide
theorem witness_WordsThenResponseDrain :
    let s := { rendering with inputs := List.replicate 7 taking ++ [quiet] }
    s.PortInv ∧ s.resp = some ⟨.ok, 0x00000102#32⟩ ∧
    (List.replicate 7 taking).length = s.outQ.length + 1 ∧
    s.inputs = List.replicate 7 taking ++ [quiet] ∧
    (∀ p ∈ List.replicate 7 taking, p.reset = false ∧ p.sinkReady = true ∧ p.hostReady = true) := by
  decide
theorem witness_IdleEngineKeepsItsState : held.inputs = [] ∧
    (let s := { held with inputs := [taking] }
     s.ready = true ∧ s.inputs = taking :: [] ∧ taking.reset = false ∧ taking.cmd = none) := by
  decide
theorem witness_AttackAndReleaseRamp : mixed.Shape ∧ mixed.isVoice ⟨15#4, 1⟩ ∧
    (⟨15#4, 0⟩ : VoiceId) ≠ ⟨15#4, 1⟩ := by decide
/-- One envelope in range for each clause, `rem` at the limit of the clause. -/
theorem witness_NextAdvancesOneSample :
    (([⟨.attack, 0x7FFFFE#24, 0x3FFFFF#24, 2#24, 0xFFFFFF#24⟩,
       ⟨.attack, 0xBFFFFD#24, 0x3FFFFF#24, 1#24, 0xFFFFFF#24⟩,
       ⟨.decay, 0xFFFFFF#24, 0x400000#24, 2#24, 0x7FFFFF#24⟩,
       ⟨.decay, 0xBFFFFF#24, 0x400000#24, 1#24, 0x7FFFFF#24⟩,
       ⟨.decay, 0x7FFFFF#24, 0x400000#24, 0#24, 0x7FFFFF#24⟩,
       ⟨.release, 0x400001#24, 0x1FFFFF#24, 2#24, 0#24⟩,
       ⟨.release, 0x200002#24, 0x1FFFFF#24, 1#24, 0#24⟩,
       Envelope.reset] : List Envelope).all fun e => decide e.inRange) = true := by decide
/-- The lengths of E1: a clause with `j` at its last value inside and its first value outside. -/
theorem witness_PhaseLengths :
    3 < max (4#24).toNat 1 ∧ 0 < max (0#24).toNat 1 ∧ 1 < max (2#24).toNat 1 ∧
    max (2#24).toNat 1 ≤ 2 ∧
    (⟨.attack, 0xFFFFFF#24, 0#24, 1#24, 0xFFFFFF#24⟩ : Envelope).lvl = 0xFFFFFF#24 := by decide
theorem witness_RampLevels : 3 < max (4#24).toNat 1 ∧ 2 + 1 < max (4#24).toNat 1 ∧
    3 + 1 = max (4#24).toNat 1 ∧ 0 + 1 = max (0#24).toNat 1 ∧
    (⟨.attack, 0xFFFFFF#24, 0#24, 1#24, 0xFFFFFF#24⟩ : Envelope).lvl = 0xFFFFFF#24 := by decide
theorem witness_ParameterWrites : small.Shape ∧ (0#4 : Chan) ≠ 15#4 := by decide
theorem witness_ParametersReadAtEntryOnly :
    (⟨1#24, 2#24, 3#24, 4#24⟩ : EnvParams).attack = (⟨1#24, 0#24, 0#24, 0#24⟩ : EnvParams).attack ∧
    (⟨1#24, 2#24, 3#24, 4#24⟩ : EnvParams).release = (⟨0#24, 0#24, 0#24, 4#24⟩ : EnvParams).release ∧
    ((⟨1#24, 2#24, 3#24, 4#24⟩ : EnvParams).decay = (⟨0#24, 2#24, 3#24, 0#24⟩ : EnvParams).decay ∧
      (⟨1#24, 2#24, 3#24, 4#24⟩ : EnvParams).sustain = (⟨0#24, 2#24, 3#24, 0#24⟩ : EnvParams).sustain) ∧
    ((⟨.attack, 0#24, 1#24, 2#24, 0xFFFFFF#24⟩ : Envelope).ph = .attack ∧ 1 < (2#24).toNat) ∧
    (⟨.decay, 0#24, 1#24, 1#24, 0#24⟩ : Envelope).ph ≠ .attack := by decide
theorem witness_NoteonRetriggersBoundNote : full.Shape ∧ (80#7 : Midi7) ≠ 0#7 ∧ 1 < full.cfg.P ∧
    full.bound ⟨0#4, 1⟩ 62#7 = true ∧ (∀ u < 1, full.bound ⟨0#4, u⟩ 62#7 = false) := by decide
theorem witness_NoteonTakesFreeVoice : held.Shape ∧ (1#7 : Midi7) ≠ 0#7 ∧ 1 < held.cfg.P ∧
    (∀ u < held.cfg.P, held.bound ⟨15#4, u⟩ 60#7 = false) ∧ held.numActive < held.cfg.C ∧
    held.active ⟨15#4, 1⟩ = false ∧ (∀ u < 1, held.active ⟨15#4, u⟩ = true) := by decide
theorem witness_NoteonStealsOldestVoice : held.Inv ∧ (1#7 : Midi7) ≠ 0#7 ∧ 0 < held.cfg.P ∧
    (∀ u < held.cfg.P, held.bound ⟨0#4, u⟩ 65#7 = false) ∧ held.numActive < held.cfg.C ∧
    (∀ u < held.cfg.P, held.active ⟨0#4, u⟩ = true) ∧
    (∀ u < held.cfg.P, (held.voice ⟨0#4, 0⟩).seq ≤ (held.voice ⟨0#4, u⟩).seq) ∧
    (∀ u < 0, (held.voice ⟨0#4, 0⟩).seq < (held.voice ⟨0#4, u⟩).seq) :=
  ⟨held_inv, by decide, by decide, by decide, by decide, by decide, by decide, by decide⟩
theorem witness_NoteonDropsAtCapacity : (1#7 : Midi7) ≠ 0#7 ∧ full.numActive = full.cfg.C ∧
    (∀ u < full.cfg.P, full.bound ⟨0#4, u⟩ 65#7 = false) := by decide
theorem witness_NoteoffReleasesBoundVoice : held.Shape ∧ 1 < held.cfg.P ∧
    held.bound ⟨0#4, 1⟩ 62#7 = true ∧ (∀ u < 1, held.bound ⟨0#4, u⟩ 62#7 = false) ∧
    (⟨0#4, 0⟩ : VoiceId) ≠ ⟨0#4, 1⟩ ∧
    (∀ u < held.cfg.P, held.bound ⟨15#4, u⟩ 62#7 = false) := by decide
theorem witness_VoiceoffReleasesNamedVoice : held.Shape ∧ held.cfg.P ≤ (2#8).toNat ∧
    ((1#8).toNat < held.cfg.P ∧ held.active ⟨15#4, (1#8).toNat⟩ = false) ∧
    ((1#8).toNat < held.cfg.P ∧ held.active ⟨0#4, (1#8).toNat⟩ = true) := by decide
theorem witness_FreshNotesFillTheRegistry : small.Inv ∧ small.numActive = 0 ∧
    small.cfg.P ≤ small.cfg.C ∧ (1#7 : Midi7) ≠ 0#7 ∧ [60#7, (0#7 : Midi7)].Nodup ∧
    [60#7, (0#7 : Midi7)].length ≤ small.cfg.P :=
  ⟨small_inv, by decide, by decide, by decide, by decide, by decide⟩
/-- CLEANUP lowers the number, NOTEON raises it. -/
theorem witness_WhoChangesNumActive : mixed.Shape ∧
    ((after? (exec .cleanup mixed)).map fun t => decide (t.numActive < mixed.numActive)) = some true ∧
    ((after? (exec (.noteon 15#4 60#7 1#7) mixed)).map fun t =>
      decide (mixed.numActive < t.numActive)) = some true := by decide
theorem witness_CleanupCompactsTheRegistry : mixed.Inv ∧
    (mixed.activeIds.filter fun id => !mixed.isDone id) = [⟨0#4, 0⟩, ⟨15#4, 0⟩] ∧
    (⟨0#4, 1⟩ : VoiceId) ∉ mixed.activeIds.filter (fun id => !mixed.isDone id) :=
  ⟨mixed_inv, by decide, by decide⟩
theorem witness_AdvanceRunsOneFrame : mixed.Inv ∧
    mixed.activeIds = [⟨0#4, 0⟩, ⟨0#4, 1⟩, ⟨15#4, 0⟩] := ⟨mixed_inv, by decide⟩
theorem witness_RenderRunsOneBlock : mixed.Inv ∧ (after? (exec .cleanup mixed)).isSome = true :=
  ⟨mixed_inv, by decide⟩
theorem witness_RenderWordCounts : mixed.Inv ∧ mixed.outQ = [] ∧
    (after? (exec .render mixed)) = some rendering := ⟨mixed_inv, by decide, by decide⟩
theorem witness_RenderKeepsThePortBusy : mixed.cfg.valid ∧ Config.valid ⟨1, 1, 1⟩ := by decide
theorem witness_ReleaseallReleasesSoundingVoices : mixed.Inv ∧
    (mixed.activeIds.filter fun id => (mixed.voice id).env.sounding) = [⟨0#4, 0⟩, ⟨15#4, 0⟩] :=
  ⟨mixed_inv, by decide⟩
/-- Every clause of the map at the ends of its range, and the addresses next to them. -/
theorem witness_RegreadFollowsTheMap : held.cfg.valid ∧ held.numActive ≤ held.cfg.C ∧
    ([0x0000#16, 0x0007#16, 0x0100#16, 0x0103#16, 0x0200#16, 0x0201#16, 0x0202#16, 0x0203#16,
      0x023F#16, 0x1000#16, 0x1F01#16, 0x2000#16, 0x3F01#16, 0x4000#16, 0x5F01#16, 0x6000#16,
      0x7000#16, 0x7F01#16].all fun a => decide (regMapped held.cfg a)) = true ∧
    ([0x0008#16, 0x00FF#16, 0x0104#16, 0x01FF#16, 0x0240#16, 0x0FFF#16, 0x1002#16, 0x7F02#16,
      0x7FFF#16, 0x8000#16, 0xFFFF#16].all fun a => decide (¬ regMapped held.cfg a)) = true ∧
    held.slot 0 = some ⟨0#4, 0⟩ ∧ held.isVoice ⟨0#4, 0⟩ ∧ held.slot 3 = none ∧
    (0x1F01#16).toNat = 0x1000 + 256 * (15#4 : Chan).toNat + 1 := by decide
theorem witness_VstatFields :
    (∀ k ∈ (held.voice ⟨15#4, 0⟩).idx, k < 255) ∧ (held.voice ⟨15#4, 0⟩).idx = some 2 ∧
    (held.voice ⟨15#4, 1⟩).idx = none ∧ (∀ k ∈ some 254, k < 255) := by decide
theorem witness_OutputRecordFields : (255 < 256 ∧ (⟨1#7, 1#7, some 254, 0#64, Envelope.reset⟩ : Voice).idx =
    some 254 ∧ 254 < 255) ∧ 65535 < 65536 := by decide
theorem witness_ResponseDataLayouts : (254 < 255 ∧ 255 < 256) ∧ 0 < 256 := by decide
theorem witness_NonOkChangesNothing :
    answer (.noteoff 0#4 69#7) held = some ⟨.nomatch, 0#32⟩ ∧ RespCode.nomatch ≠ .ok := by decide
/-- One cause of each code. -/
theorem witness_CausesOfResponseCodes : full.Inv ∧
    answer (.noteon 0#4 65#7 1#7) full = some ⟨.dropped, 0#32⟩ ∧
    answer (.noteon 0#4 65#7 0#7) full = some ⟨.nomatch, 0#32⟩ ∧
    answer (.noteoff 1#4 60#7) full = some ⟨.nomatch, 0#32⟩ ∧
    answer (.voiceoff 1#4 1#8) full = some ⟨.nomatch, 0#32⟩ ∧
    answer (.voiceoff 0#4 2#8) full = some ⟨.badarg, 0#32⟩ ∧
    answer (.regread 0x0102#16) full = some ⟨.badarg, 0#32⟩ :=
  ⟨full_inv, by decide, by decide, by decide, by decide, by decide, by decide⟩
theorem witness_OnlyFramesEmitWords : emitted .advance held ≠ held.outQ := by decide
theorem witness_ErrIsSticky : ({ held with err := true } : State).err = true ∧
    (after? (exec .cleanup { held with err := true })).isSome = true := by decide
/-- Slot 1 names a voice whose index is 0; slot 0 is sound. -/
theorem witness_FailedCheckSetsErrAndSkips :
    let s := held.setSlot 1 (some ⟨0#4, 0⟩)
    1 < s.numActive ∧ (∀ id ∈ s.slot 1, (s.voice id).idx ≠ some 1) ∧
    (∀ j < 1, (s.slot j).any fun id =>
      decide ((s.voice id).idx = some j) && !s.isDone id) = true ∧
    (after? (exec .cleanup s)).map State.err = some true := by decide
theorem witness_ErrStaysClearUnderTheInvariants : rendering.Inv ∧ rendering.err = false ∧
    (after? (step rendering)).isSome = true := ⟨rendering_inv, by decide, by decide⟩
theorem witness_SizesNeverChange : (after? (step rendering)).isSome = true := by decide
theorem witness_InvariantsHoldAtReset : Config.valid ⟨255, 255, 65535⟩ ∧ Config.valid ⟨1, 1, 1⟩ := by
  decide
/-- A step that runs a command, in a state that meets the invariants. -/
theorem witness_EveryStepKeepsTheInvariants : State.Inv { mixed with inputs := [offer 0x70000000#32] } ∧
    ((after? (step { mixed with inputs := [offer 0x70000000#32] })).map State.ready) = some false :=
  ⟨⟨by decide, by decide, by decide, by decide, by decide, by decide⟩, by decide⟩
theorem witness_EveryStepKeepsSequenceOrder : held.Inv ∧ held.SequenceInv ∧
    held.seqCtr.toNat + 1 < 2 ^ 64 ∧
    ((after? (step { held with inputs := [offer 0x10416400#32] })).map State.seqCtr) =
      some 4#64 := ⟨held_inv, by decide, by decide, by decide⟩

end Sys2Proof.Tests
end

/-! What every command leaves unchanged, in any state, legal or not: the sizes, the pins and the trace; `ERR` is never cleared, and waiting words stay in front of new ones (spec/10_state.md R14, R33, R34; spec/30_encoding.md R84). -/

namespace Sys2Proof.Machine

/-! ### The note commands -/

theorem State.VoicesOnly.trans {s t u : State} (h : s.VoicesOnly t) (k : t.VoicesOnly u) :
    s.VoicesOnly u where
  outQ := k.outQ.trans h.outQ
  inputs := k.inputs.trans h.inputs
  trace := k.trace.trans h.trace
  cfg := k.cfg.trans h.cfg
  params := k.params.trans h.params
  err := k.err.trans h.err
  sequencer := k.sequencer.trans h.sequencer

theorem State.VoicesOnly.bump (s : State) (id : VoiceId) : s.VoicesOnly (s.bump id) :=
  ⟨⟨rfl, rfl, rfl⟩, rfl, rfl, rfl, rfl⟩

theorem State.VoicesOnly.takeSlot (s : State) (id : VoiceId) : s.VoicesOnly (s.takeSlot id) :=
  ⟨⟨rfl, rfl, rfl⟩, rfl, rfl, rfl, rfl⟩

theorem State.VoicesOnly.release (s : State) (id : VoiceId) : s.VoicesOnly (s.release id) :=
  ⟨⟨rfl, rfl, rfl⟩, rfl, rfl, rfl, rfl⟩

theorem State.VoicesOnly.noteonVoice (s : State) (id : VoiceId) (n vel : Midi7) :
    s.VoicesOnly (s.noteonVoice id n vel) :=
  ⟨⟨rfl, rfl, rfl⟩, rfl, rfl, rfl, rfl⟩

theorem State.VoicesOnly.respond (s : State) (c : RespCode) (d : Word) :
    s.VoicesOnly (s.respond c d) :=
  ⟨⟨rfl, rfl, rfl⟩, rfl, rfl, rfl, rfl⟩

/-- Unlike `State.activate_cases`, this needs no voice in the roster. -/
theorem State.VoicesOnly.activate (s : State) (ch : Chan) (n : Midi7) :
    s.VoicesOnly (s.activate ch n).1 := by
  have unchanged : s.VoicesOnly s := ⟨⟨rfl, rfl, rfl⟩, rfl, rfl, rfl, rfl⟩
  unfold State.activate
  split
  · exact .bump s _
  · split
    · split
      · exact (State.VoicesOnly.takeSlot s _).trans (.bump _ _)
      · split
        · exact .bump s _
        · exact unchanged
    · exact unchanged

theorem State.VoicesOnly.noteOn (s : State) (ch : Chan) (n vel : Midi7) :
    s.VoicesOnly (s.noteOn ch n vel) := by
  have hact := State.VoicesOnly.activate s ch n
  unfold State.noteOn
  split <;> rename_i hval <;> rw [hval] at hact
  · exact (hact.trans (.noteonVoice _ _ n vel)).trans (.respond _ _ _)
  · exact hact.trans (.respond _ _ _)

theorem State.VoicesOnly.noteOff (s : State) (ch : Chan) (n : Midi7) :
    s.VoicesOnly (s.noteOff ch n) := by
  obtain ⟨v, -, d, hv⟩ | ⟨-, hv⟩ := s.noteOff_cases ch n <;> rw [hv]
  · exact (State.VoicesOnly.release s _).trans (.respond _ _ d)
  · exact .respond s _ _

/-! ### Every command -/

/-- What every command keeps (R14, R33, R34). -/
structure State.CommandFrame (s t : State) : Prop where
  cfg : t.cfg = s.cfg
  inputs : t.inputs = s.inputs
  trace : t.trace = s.trace
  err : s.err = true → t.err = true
  outQ : ∃ ws, t.outQ = s.outQ ++ ws

/-- What every command other than ADVANCE and RENDER keeps: no word is emitted. -/
structure State.QuietFrame (s t : State) : Prop extends State.NoOutput s t where
  cfg : t.cfg = s.cfg
  err : s.err = true → t.err = true

theorem State.QuietFrame.commandFrame {s t : State} (h : s.QuietFrame t) : s.CommandFrame t :=
  ⟨h.cfg, h.inputs, h.trace, h.err, [], by rw [h.outQ, List.append_nil]⟩

theorem State.VoicesOnly.quietFrame {s t : State} (h : s.VoicesOnly t) : s.QuietFrame t :=
  ⟨h.toNoOutput, h.cfg, fun he => h.err.trans he⟩

theorem State.QuietFrame.respond (s : State) (c : RespCode) (d : Word) :
    s.QuietFrame (s.respond c d) := (State.VoicesOnly.respond s c d).quietFrame

theorem State.QuietFrame.respond_setParam (s : State) (ch : Chan) (p : EnvParams) (c : RespCode)
    (d : Word) : s.QuietFrame ((s.setParam ch p).respond c d) :=
  ⟨⟨rfl, rfl, rfl⟩, rfl, id⟩

theorem execNoteon_quietFrame {ch : Chan} {n vel : Midi7} {s t : State}
    (h : execNoteon ch n vel s = .next t) : s.QuietFrame t := by
  obtain rfl := next_inj h
  split
  · exact (State.VoicesOnly.noteOff s ch n).quietFrame
  · exact (State.VoicesOnly.noteOn s ch n vel).quietFrame

theorem execVoiceoff_quietFrame {ch : Chan} {rv : BitVec 8} {s t : State}
    (h : execVoiceoff ch rv s = .next t) : s.QuietFrame t := by
  obtain rfl := next_inj h
  dsimp only
  split
  · exact .respond s _ _
  · split
    · exact ((State.VoicesOnly.release s _).trans (.respond _ _ _)).quietFrame
    · exact .respond s _ _

theorem execReleaseall_quietFrame {s t : State} (h : execReleaseall s = .next t) :
    s.QuietFrame t := by
  obtain rfl := next_inj h
  obtain ⟨hf, hq⟩ := releaseLoop_frame (s, 0) (List.range s.numActive)
  exact ⟨⟨hq, hf.inputs, hf.trace⟩, hf.cfg, hf.err⟩

theorem execCleanup_quietFrame {s t : State} (h : execCleanup s = .next t) : s.QuietFrame t := by
  obtain rfl := next_inj h
  have hf := State.IdxFrame.cleanupPass s
  exact ⟨⟨hf.outQ, hf.inputs, hf.trace⟩, hf.cfg, hf.err⟩

theorem execRegread_quietFrame {addr : BitVec 16} {s t : State}
    (h : execRegread addr s = .next t) : s.QuietFrame t := by
  obtain rfl := next_inj h
  split <;> exact .respond s _ _

/-- A command that is not a frame command emits nothing (R84). -/
theorem exec_quietFrame {i : Instr} {s t : State} (h : exec i s = .next t)
    (hadv : i ≠ .advance) (hren : i ≠ .render) : s.QuietFrame t := by
  cases i with
  | nop => exact next_inj h ▸ .respond s _ _
  | noteon ch n vel => exact execNoteon_quietFrame h
  | noteoff ch n => exact next_inj h ▸ (State.VoicesOnly.noteOff s ch n).quietFrame
  | voiceoff ch rv => exact execVoiceoff_quietFrame h
  | releaseall => exact execReleaseall_quietFrame h
  | cleanup => exact execCleanup_quietFrame h
  | advance => exact absurd rfl hadv
  | render => exact absurd rfl hren
  | seta ch val => exact next_inj h ▸ .respond_setParam s ch _ _ _
  | setd ch val => exact next_inj h ▸ .respond_setParam s ch _ _ _
  | sets ch val => exact next_inj h ▸ .respond_setParam s ch _ _ _
  | setr ch val => exact next_inj h ▸ .respond_setParam s ch _ _ _
  | regread addr => exact execRegread_quietFrame h

theorem execAdvance_commandFrame {s t : State} (h : execAdvance s = .next t) :
    s.CommandFrame t := by
  obtain rfl := next_inj h
  have hf := State.EnvFrame.frame s 0
  exact ⟨hf.cfg, hf.inputs, hf.trace, hf.err, hf.outQ⟩

/-- RENDER's cleanup pass emits nothing; its frames append. -/
theorem execRender_commandFrame {s t : State} (h : execRender s = .next t) :
    s.CommandFrame t := by
  obtain rfl := next_inj h
  have hc := State.IdxFrame.cleanupPass s
  have hf := State.EnvFrame.frames s.cleanupPass.1 (List.range s.cleanupPass.1.cfg.F)
  obtain ⟨ws, hws⟩ := hf.outQ
  exact ⟨hf.cfg.trans hc.cfg, hf.inputs.trans hc.inputs, hf.trace.trans hc.trace,
    fun he => hf.err (hc.err he), ws, hws.trans (by rw [hc.outQ])⟩

theorem exec_commandFrame {i : Instr} {s t : State} (h : exec i s = .next t) :
    s.CommandFrame t := by
  by_cases hadv : i = .advance
  · subst hadv; exact execAdvance_commandFrame h
  by_cases hren : i = .render
  · subst hren; exact execRender_commandFrame h
  exact (exec_quietFrame h hadv hren).commandFrame

/-- Settles O49: ADVANCE and RENDER append their frames' words, and every other command is quiet. -/
theorem onlyFramesEmitWords : Obligations.OnlyFramesEmitWords := by
  intro i s t h
  refine ⟨(exec_commandFrame h).outQ, fun hne => ?_⟩
  by_contra hi
  obtain ⟨hadv, hren⟩ := not_or.1 hi
  exact hne (exec_quietFrame h hadv hren).outQ

/-! ### Every step -/

theorem look_cfg {p : PortInput} {s t : State} (h : look p s = .next t) : t.cfg = s.cfg := by
  obtain ⟨-, rfl⟩ | rfl | ⟨w, ws, -, -, rfl⟩ | ⟨r, -, -, -, rfl⟩ | ⟨w, i, -, -, -, hexec⟩ |
    ⟨w, e, -, -, -, rfl⟩ := look_cases h
  case inr.inr.inr.inr.inl => exact (exec_commandFrame hexec).cfg
  all_goals rfl

/-- Settles O53: a look resets to the same sizes, moves a word or a response, or runs a command. -/
theorem sizesNeverChange : Obligations.SizesNeverChange := by
  intro s t h
  obtain ⟨rfl, -⟩ | ⟨p, rest, -, hlook⟩ := step_cases h
  · rfl
  · exact (look_cfg hlook).trans rfl

end Sys2Proof.Machine

/-! The state after reset, for every legal size, and the invariants there; `ERR` stays set; every step keeps the order of the activation numbers (spec/10_state.md R27, R33, R35 to R40; spec/41_voice_alloc.md R146). -/

namespace Sys2Proof.Machine

/-! ### The reset state -/

/-- Outside the roster too: the record read there is the reset record. -/
@[simp] theorem State.voice_resetWith (g : Config) (id : VoiceId) :
    (State.resetWith g).voice id = Voice.reset := by
  have hch : id.ch.toNat < NCH := id.ch.isLt
  by_cases hv : id.rv < g.P <;> simp [State.voice, State.resetWith, hch, hv]

@[simp] theorem State.slot_resetWith (g : Config) (k : Nat) : (State.resetWith g).slot k = none := by
  by_cases hk : k < g.C <;> simp [State.slot, State.resetWith, hk]

@[simp] theorem State.param_resetWith (g : Config) (ch : Chan) :
    (State.resetWith g).param ch = EnvParams.reset := by
  have hch : ch.toNat < NCH := ch.isLt
  simp [State.param, State.resetWith, hch]

/-- Settles O1: every record, slot and parameter read after reset is the one `State.resetWith` writes. -/
theorem resetValues : Obligations.ResetValues := by
  intro g _ s
  have hvoice : ∀ id, s.voice id = Voice.reset := State.voice_resetWith g
  have hparam : ∀ ch, s.param ch = EnvParams.reset := State.param_resetWith g
  refine ⟨rfl, fun ch v _ => ?_, rfl, fun k _ => State.slot_resetWith g k, rfl, fun ch => ?_,
    rfl, rfl, rfl, rfl, rfl⟩
  · rw [hvoice]
    exact ⟨rfl, rfl, rfl, rfl, rfl, rfl, rfl, rfl, rfl⟩
  · rw [hparam]
    exact ⟨rfl, rfl, rfl, rfl⟩

theorem State.active_resetWith (g : Config) (id : VoiceId) :
    (State.resetWith g).active id = false := by
  simp [State.active, Voice.reset]

theorem State.shape_resetWith {g : Config} (hg : g.valid) : (State.resetWith g).Shape := by
  refine ⟨hg, List.length_replicate, fun r hr => ?_, List.length_replicate, List.length_replicate⟩
  rw [List.eq_of_mem_replicate hr]
  exact List.length_replicate

/-- No slot is filled and no voice has an index, so R35 and R36 hold. -/
theorem State.compact_resetWith {g : Config} (hg : g.valid) : (State.resetWith g).Compact :=
  .mk' (State.shape_resetWith hg) (Nat.zero_le _) (fun _ hk => absurd hk (Nat.not_lt_zero _))
    (fun k _ => State.slot_resetWith g k) (by simp [Voice.reset])

/-- No voice is active, so no two are bound to one note (R37). -/
theorem State.bindingInv_resetWith (g : Config) : (State.resetWith g).BindingInv := by
  intro ch u _ v _ hu
  simp [State.active_resetWith] at hu

theorem Envelope.inRange_reset : Envelope.reset.inRange := by
  simp [Envelope.inRange, Envelope.reset]

theorem State.envelopeInv_resetWith (g : Config) : (State.resetWith g).EnvelopeInv := by
  intro ch v _
  rw [State.voice_resetWith]
  exact Envelope.inRange_reset

theorem State.inv_resetWith {g : Config} (hg : g.valid) : (State.resetWith g).Inv :=
  have hcompact := State.compact_resetWith hg
  { shape := hcompact.shape
    registry := hcompact.registry
    index := hcompact.index
    binding := State.bindingInv_resetWith g
    envelope := State.envelopeInv_resetWith g
    ports := ⟨fun h => absurd rfl h, rfl⟩ }

/-- Every number is 0, the counter's value, and no voice is active (R39). -/
theorem State.sequenceInv_resetWith (g : Config) : (State.resetWith g).SequenceInv := by
  refine ⟨fun ch v _ => ?_, fun ch u _ v _ hu => ?_⟩
  · rw [State.voice_resetWith]
    exact BitVec.le_refl 0#64
  · simp [State.active_resetWith] at hu

/-- Settles O54: after reset no voice is active, no slot is filled and every envelope is DONE. -/
theorem invariantsHoldAtReset : Obligations.InvariantsHoldAtReset :=
  fun g hg => ⟨State.inv_resetWith hg, State.sequenceInv_resetWith g⟩

/-! ### The error bit -/

/-- Settles O50: what every command keeps includes a set `ERR`. -/
theorem errIsSticky : Obligations.ErrIsSticky :=
  fun _ _ _ h => (exec_commandFrame h).err

/-! ### A cleanup pass under R35 and R36 -/

/-- What removing a voice at its slot keeps, a cleanup pass keeps: under R35 and R36 every check of the pass is true, so it does nothing but remove. -/
theorem State.Compact.cleanupLoop_keeps {p : State → Prop} {s : State} (h : s.Compact) (hp : p s)
    (hremove : ∀ (t : State) i id, t.Compact → t.slot i = some id → t.isDone id = true → p t →
      p (t.removeAt i id)) (fuel i r : Nat) :
    (cleanupLoop fuel i r s).1.Compact ∧ p (cleanupLoop fuel i r s).1 := by
  induction fuel generalizing i r s with
  | zero => exact ⟨h, hp⟩
  | succ fuel ih =>
    unfold cleanupLoop
    split
    case isFalse => exact ⟨h, hp⟩
    case isTrue hi =>
      obtain ⟨id, hcheck, hslot, -, -⟩ := h.checkedSlot hi
      simp only [hcheck]
      split
      case isTrue hdone => exact ih (h.removeAt hslot) (hremove s i id h hslot hdone hp) _ _
      case isFalse => exact ih h hp _ _

/-! ### Transitions without an activation -/

/-- What a transition without an activation keeps of the order of activation numbers (R27, R146): the counter and every number; and no voice becomes active. -/
structure State.SeqFrame (s t : State) : Prop where
  cfg : t.cfg = s.cfg
  seqCtr : t.seqCtr = s.seqCtr
  seq : ∀ id, (t.voice id).seq = (s.voice id).seq
  active : ∀ id, s.isVoice id → t.active id = true → s.active id = true

theorem State.SeqFrame.trans {s t u : State} (h : s.SeqFrame t) (k : t.SeqFrame u) :
    s.SeqFrame u where
  cfg := k.cfg.trans h.cfg
  seqCtr := k.seqCtr.trans h.seqCtr
  seq id := (k.seq id).trans (h.seq id)
  active id hv hu := h.active id hv (k.active id (by rwa [State.isVoice, h.cfg]) hu)

theorem State.SeqFrame.of_rosters {s t : State} (hc : t.cfg = s.cfg) (hn : t.seqCtr = s.seqCtr)
    (hr : t.rosters = s.rosters) : s.SeqFrame t where
  cfg := hc
  seqCtr := hn
  seq id := by rw [State.voice_congr hr]
  active id _ ha := by rwa [State.active, State.voice_congr hr] at ha

theorem State.SeqFrame.refl (s : State) : s.SeqFrame s := .of_rosters rfl rfl rfl

theorem State.SeqFrame.respond (s : State) (c : RespCode) (d : Word) : s.SeqFrame (s.respond c d) :=
  .of_rosters rfl rfl rfl

theorem State.SeqFrame.respond_setParam (s : State) (ch : Chan) (p : EnvParams) (c : RespCode)
    (d : Word) : s.SeqFrame ((s.setParam ch p).respond c d) :=
  .of_rosters rfl rfl rfl

theorem State.EnvFrame.seqFrame {s t : State} (h : s.EnvFrame t) : s.SeqFrame t where
  cfg := h.cfg
  seqCtr := h.seqCtr
  seq id := by obtain ⟨e, he⟩ := h.voice id; rw [he]
  active id _ ha := by obtain ⟨e, he⟩ := h.voice id; rwa [State.active, he] at ha

theorem State.SeqFrame.release (s : State) (id : VoiceId) : s.SeqFrame (s.release id) :=
  (State.EnvFrame.setEnv s id _).seqFrame

/-- Writing a note and a velocity, then an attack, touches neither indexes nor numbers (R130). -/
theorem State.SeqFrame.noteonVoice (s : State) (id : VoiceId) (n vel : Midi7) :
    s.SeqFrame (s.noteonVoice id n vel) := by
  set x := { s.voice id with note := n, vel := vel }
  have hkept : ∀ other, ((s.setVoice id x).voice other).seq = (s.voice other).seq ∧
      ((s.setVoice id x).voice other).idx = (s.voice other).idx := by
    intro other
    obtain h | ⟨rfl, h⟩ := s.voice_setVoice_cases id other x <;> rw [h]
    · exact ⟨rfl, rfl⟩
    · exact ⟨rfl, rfl⟩
  have hset : s.SeqFrame (s.setVoice id x) :=
    { cfg := rfl
      seqCtr := rfl
      seq := fun other => (hkept other).1
      active := fun other _ ha => by rwa [State.active, (hkept other).2] at ha }
  exact hset.trans (State.EnvFrame.setEnv _ id _).seqFrame

/-- A removal makes one voice inactive; the voices whose slots shift stay active. -/
theorem State.Compact.removeAt_seqFrame {s : State} (h : s.Compact) {i : Nat} {id : VoiceId}
    (hid : s.slot i = some id) : s.SeqFrame (s.removeAt i id) := by
  have hframe := State.IdxFrame.removeAt s i id
  obtain ⟨-, -, hvoice⟩ := h.removeAt_spec hid
  refine ⟨hframe.cfg, hframe.seqCtr, fun x => ?_, fun x hx ha => ?_⟩
  · obtain ⟨k, hk⟩ := hframe.voice x
    rw [hk]
  · rw [State.active, (hvoice x).resolve_right (not_not.2 hx)] at ha
    by_cases hxi : x = id
    · simp [hxi] at ha
    · simpa [hxi, State.active] using ha

theorem State.Compact.cleanupPass_seqFrame {s : State} (h : s.Compact) :
    s.SeqFrame s.cleanupPass.1 :=
  (h.cleanupLoop_keeps (p := fun t => s.SeqFrame t) (.refl s)
    (fun _ _ _ ht hslot _ hst => hst.trans (ht.removeAt_seqFrame hslot)) _ _ _).2

/-- Fewer voices to compare, and the same numbers (R39). -/
theorem State.SeqFrame.sequenceInv {s t : State} (h : s.SeqFrame t) (hs : s.SequenceInv) :
    t.SequenceInv := by
  obtain ⟨hle, hinj⟩ := hs
  refine ⟨fun ch v hv => ?_, fun ch u hu v hv hau hav heq => ?_⟩
  · rw [h.seq, h.seqCtr]
    exact hle ch v (h.cfg ▸ hv)
  · rw [h.cfg] at hu hv
    rw [h.seq, h.seq] at heq
    exact hinj ch u hu v hv (h.active _ hu hau) (h.active _ hv hav) heq

/-! ### An activation -/

/-- What an activation of voice `id` does to the activation numbers (R146): the counter goes up by one and `id` gets its new value; no other number changes, and no other voice becomes active. -/
structure State.Activates (s t : State) (id : VoiceId) : Prop where
  cfg : t.cfg = s.cfg
  seqCtr : t.seqCtr = s.seqCtr + 1#64
  self : (t.voice id).seq = s.seqCtr + 1#64
  seq : ∀ x, x ≠ id → (t.voice x).seq = (s.voice x).seq
  active : ∀ x, x ≠ id → s.isVoice x → t.active x = true → s.active x = true

theorem State.Activates.bump {s : State} (hsh : s.Shape) {id : VoiceId} (hv : s.isVoice id) :
    s.Activates (s.bump id) id where
  cfg := rfl
  seqCtr := rfl
  self := by rw [State.voice_bump_self hsh hv]
  seq x hx := by rw [State.voice_bump_ne s hx]
  active x hx _ ha := by rwa [State.active, State.voice_bump_ne s hx] at ha

theorem State.Activates.takeSlot_bump {s : State} (hsh : s.Shape) {id : VoiceId}
    (hv : s.isVoice id) : s.Activates ((s.takeSlot id).bump id) id where
  cfg := rfl
  seqCtr := rfl
  self := by rw [State.voice_bump_self (hsh.takeSlot id) hv, State.takeSlot_seqCtr]
  seq x hx := by rw [State.voice_bump_ne _ hx, State.voice_takeSlot_ne s hx]
  active x hx _ ha := by
    rwa [State.active, State.voice_bump_ne _ hx, State.voice_takeSlot_ne s hx] at ha

theorem State.Activates.trans_seqFrame {s t u : State} {id : VoiceId} (h : s.Activates t id)
    (k : t.SeqFrame u) : s.Activates u id where
  cfg := k.cfg.trans h.cfg
  seqCtr := k.seqCtr.trans h.seqCtr
  self := (k.seq id).trans h.self
  seq x hx := (k.seq x).trans (h.seq x hx)
  active x hx hv hu := h.active x hx hv (k.active x (by rwa [State.isVoice, h.cfg]) hu)

/-- Below its last value the counter grows by a bump. -/
theorem lt_succ_of_le {a c : BitVec 64} (hc : c.toNat + 1 < 2 ^ 64) (h : a ≤ c) : a < c + 1#64 := by
  bv_omega

/-- The activated voice's number is above every number given before, so it is no other's (R39). -/
theorem State.Activates.sequenceInv {s t : State} {id : VoiceId} (h : s.Activates t id)
    (hctr : s.seqCtr.toNat + 1 < 2 ^ 64) (hs : s.SequenceInv) : t.SequenceInv := by
  obtain ⟨hle, hinj⟩ := hs
  have hself : (t.voice id).seq = t.seqCtr := h.self.trans h.seqCtr.symm
  have hlt : ∀ ch, ∀ v < t.cfg.P, (⟨ch, v⟩ : VoiceId) ≠ id → (t.voice ⟨ch, v⟩).seq < t.seqCtr := by
    intro ch v hv hne
    rw [h.seq _ hne, h.seqCtr]
    exact lt_succ_of_le hctr (hle ch v (h.cfg ▸ hv))
  refine ⟨fun ch v hv => ?_, fun ch u hu v hv hau hav heq => ?_⟩
  · by_cases hvi : (⟨ch, v⟩ : VoiceId) = id
    · rw [hvi, hself]
      exact BitVec.le_refl _
    · exact BitVec.le_of_lt (hlt ch v hv hvi)
  · by_cases hui : (⟨ch, u⟩ : VoiceId) = id <;> by_cases hvi : (⟨ch, v⟩ : VoiceId) = id
    · exact congrArg VoiceId.rv (hui.trans hvi.symm)
    · exact absurd (heq.symm.trans (hui ▸ hself)) (BitVec.ne_of_lt (hlt ch v hv hvi))
    · exact absurd (heq.trans (hvi ▸ hself)) (BitVec.ne_of_lt (hlt ch u hu hui))
    · rw [h.seq _ hui, h.seq _ hvi] at heq
      rw [h.cfg] at hu hv
      exact hinj ch u hu v hv (h.active _ hui hu hau) (h.active _ hvi hv hav) heq

/-! ### Every command -/

theorem State.Shape.one_le_P {s : State} (h : s.Shape) : 1 ≤ s.cfg.P := by
  obtain ⟨⟨-, ⟨hP, -⟩, -⟩, -⟩ := h
  exact hP

theorem State.SeqFrame.noteOff (s : State) (ch : Chan) (n : Midi7) :
    s.SeqFrame (s.noteOff ch n) := by
  obtain ⟨v, -, d, hv⟩ | ⟨-, hv⟩ := s.noteOff_cases ch n <;> rw [hv]
  · exact (State.SeqFrame.release s _).trans (.respond _ _ d)
  · exact .respond s _ _

/-- NOTEON activates the voice it retriggers, fills or steals, or is dropped (R141, R148). -/
theorem State.noteOn_seq {s : State} (hsh : s.Shape) (ch : Chan) (n vel : Midi7) :
    s.SeqFrame (s.noteOn ch n vel) ∨ ∃ id, s.Activates (s.noteOn ch n vel) id := by
  have sounded : ∀ (t : State) id d, t.SeqFrame ((t.noteonVoice id n vel).respond .ok d) :=
    fun t id d => (State.SeqFrame.noteonVoice t id n vel).trans (.respond _ _ d)
  obtain ⟨v, hb, d, hon⟩ | ⟨v, -, -, hf, d, hon⟩ | ⟨v, -, -, -, ho, d, hon⟩ | ⟨-, -, hon⟩ :=
    s.noteOn_cases ch n vel hsh.one_le_P <;> rw [hon]
  · obtain ⟨hv, -⟩ := State.boundVoice_eq_some.1 hb
    exact .inr ⟨⟨ch, v⟩, (State.Activates.bump hsh hv).trans_seqFrame (sounded _ _ d)⟩
  · obtain ⟨hv, -⟩ := State.freeVoice_eq_some.1 hf
    exact .inr ⟨⟨ch, v⟩, (State.Activates.takeSlot_bump hsh hv).trans_seqFrame (sounded _ _ d)⟩
  · obtain ⟨hv, -⟩ := State.oldestVoice_eq_some.1 ho
    exact .inr ⟨⟨ch, v⟩, (State.Activates.bump hsh hv).trans_seqFrame (sounded _ _ d)⟩
  · exact .inl (.respond s _ _)

theorem execNoteon_seq {ch : Chan} {n vel : Midi7} {s t : State} (hsh : s.Shape)
    (h : execNoteon ch n vel s = .next t) : s.SeqFrame t ∨ ∃ id, s.Activates t id := by
  obtain rfl := next_inj h
  split
  · exact .inl (.noteOff s ch n)
  · exact s.noteOn_seq hsh ch n vel

theorem execVoiceoff_seqFrame {ch : Chan} {rv : BitVec 8} {s t : State}
    (h : execVoiceoff ch rv s = .next t) : s.SeqFrame t := by
  obtain rfl := next_inj h
  dsimp only
  split
  · exact .respond s _ _
  · split
    · exact (State.SeqFrame.release s _).trans (.respond _ _ _)
    · exact .respond s _ _

theorem execRegread_seqFrame {addr : BitVec 16} {s t : State}
    (h : execRegread addr s = .next t) : s.SeqFrame t := by
  obtain rfl := next_inj h
  split <;> exact .respond s _ _

theorem execReleaseall_seqFrame {s t : State} (h : execReleaseall s = .next t) :
    s.SeqFrame t := by
  obtain rfl := next_inj h
  exact (releaseLoop_frame (s, 0) (List.range s.numActive)).1.seqFrame.trans (.respond _ _ _)

theorem execCleanup_seqFrame {s t : State} (hs : s.Compact) (h : execCleanup s = .next t) :
    s.SeqFrame t := by
  obtain rfl := next_inj h
  exact hs.cleanupPass_seqFrame.trans (.respond _ _ _)

theorem execAdvance_seqFrame {s t : State} (h : execAdvance s = .next t) : s.SeqFrame t := by
  obtain rfl := next_inj h
  exact (State.EnvFrame.frame s 0).seqFrame.trans (.respond _ _ _)

theorem execRender_seqFrame {s t : State} (hs : s.Compact) (h : execRender s = .next t) :
    s.SeqFrame t := by
  obtain rfl := next_inj h
  have hframes := State.EnvFrame.frames s.cleanupPass.1 (List.range s.cleanupPass.1.cfg.F)
  exact (hs.cleanupPass_seqFrame.trans hframes.seqFrame).trans (.of_rosters rfl rfl rfl)

/-- A command activates at most one voice (R27, R146). -/
theorem exec_seq {i : Instr} {s t : State} (hs : s.Compact) (h : exec i s = .next t) :
    s.SeqFrame t ∨ ∃ id, s.Activates t id := by
  cases i with
  | noteon ch n vel => exact execNoteon_seq hs.shape h
  | nop => exact .inl (next_inj h ▸ .respond s _ _)
  | noteoff ch n => exact .inl (next_inj h ▸ .noteOff s ch n)
  | voiceoff ch rv => exact .inl (execVoiceoff_seqFrame h)
  | releaseall => exact .inl (execReleaseall_seqFrame h)
  | cleanup => exact .inl (execCleanup_seqFrame hs h)
  | advance => exact .inl (execAdvance_seqFrame h)
  | render => exact .inl (execRender_seqFrame hs h)
  | seta ch val => exact .inl (next_inj h ▸ .respond_setParam s ch _ _ _)
  | setd ch val => exact .inl (next_inj h ▸ .respond_setParam s ch _ _ _)
  | sets ch val => exact .inl (next_inj h ▸ .respond_setParam s ch _ _ _)
  | setr ch val => exact .inl (next_inj h ▸ .respond_setParam s ch _ _ _)
  | regread addr => exact .inl (execRegread_seqFrame h)

/-! ### Every step -/

theorem look_sequenceInv {p : PortInput} {s t : State} (hs : s.Compact) (hseq : s.SequenceInv)
    (hctr : s.seqCtr.toNat + 1 < 2 ^ 64) (h : look p s = .next t) : t.SequenceInv := by
  obtain ⟨-, rfl⟩ | rfl | ⟨w, ws, -, -, rfl⟩ | ⟨r, -, -, -, rfl⟩ | ⟨w, i, -, -, -, hexec⟩ |
    ⟨w, e, -, -, -, rfl⟩ := look_cases h
  · exact State.sequenceInv_resetWith s.cfg
  · exact hseq
  · exact hseq
  · exact hseq
  · obtain hframe | ⟨id, hact⟩ := exec_seq hs hexec
    · exact hframe.sequenceInv hseq
    · exact hact.sequenceInv hctr hseq
  · exact hseq

/-- Settles O56: a step keeps every activation number and makes no voice active, or it activates one voice with a number greater than all before, or it resets. -/
theorem everyStepKeepsSequenceOrder : Obligations.EveryStepKeepsSequenceOrder := by
  intro s t hinv hseq hctr h
  obtain ⟨rfl, -⟩ | ⟨p, rest, -, hlook⟩ := step_cases h
  · exact hseq
  · have hs : ({ s with inputs := rest } : State).Compact :=
      hinv.compact.congr hinv.shape rfl rfl (fun _ => rfl) fun _ => rfl
    exact look_sequenceInv hs hseq hctr hlook

end Sys2Proof.Machine

/-! The output stream and the response port drained by a sink and a host that accept (spec/20_memory.md R58; spec/30_encoding.md R81 to R84). -/

namespace Sys2Proof.Machine

/-! ### One transfer out of the engine -/

/-- The sink takes the oldest word that waits (R84). -/
theorem step_handWord {s : State} {p : PortInput} {rest : List PortInput} {w : OutWord}
    {ws : List OutWord} (hin : s.inputs = p :: rest) (hq : s.outQ = w :: ws)
    (hreset : p.reset = false) (hsink : p.sinkReady = true) :
    step s = .next (({ s with inputs := rest } : State).handWord w ws) := by
  simp [step, look, hin, hq, hreset, hsink]

/-- The host takes the response once no word waits (R58, R83). -/
theorem step_handResponse {s : State} {p : PortInput} {rest : List PortInput} {r : Response}
    (hin : s.inputs = p :: rest) (hq : s.outQ = []) (hr : s.resp = some r)
    (hreset : p.reset = false) (hhost : p.hostReady = true) :
    step s = .next (({ s with inputs := rest } : State).handResponse r) := by
  simp [step, look, hin, hq, hr, hreset, hhost]

/-! ### The drained port -/

/-- What R82 says of the sequencer where no word waits. -/
theorem State.PortInv.idle_of_outQ_nil {s : State} (h : s.PortInv) (hq : s.outQ = []) :
    s.sequencer = .idle := by
  obtain ⟨-, hmatch⟩ := h
  cases hs : s.sequencer with
  | idle => rfl
  | rendering f i => simp [hs, hq, Sequencer.matches] at hmatch

/-- The acceptance of the last waiting word ends the block (R32, R172). -/
@[simp] theorem Sequencer.afterWord_nil (q : Sequencer) (w : OutWord) (n : Nat) :
    q.afterWord w [] n = .idle := by
  cases q <;> rfl

/-- Handing over the oldest word changes nothing of what is left when all is drained. -/
theorem State.drained_handWord {s : State} {w : OutWord} {ws : List OutWord}
    (hq : s.outQ = w :: ws) : (s.handWord w ws).drained = s.drained := by
  simp [State.drained, State.handWord, hq]

theorem State.handResponse_eq_drained {s : State} {r : Response} (hq : s.outQ = [])
    (hr : s.resp = some r) (hidle : s.sequencer = .idle) : s.handResponse r = s.drained := by
  simp [State.drained, State.handResponse, hq, hr, hidle]

/-- As many looks as there are words, and one more, drain the port (R58). -/
theorem run_drains {ps : List PortInput} :
    ∀ {rest : List PortInput} {s : State} {r : Response}, (s.outQ = [] → s.sequencer = .idle) →
      s.resp = some r → ps.length = s.outQ.length + 1 → s.inputs = ps ++ rest →
      (∀ p ∈ ps, p.reset = false ∧ p.sinkReady = true ∧ p.hostReady = true) →
        Sys2Proof.core.run ps.length s = .next { s.drained with inputs := rest } := by
  induction ps with
  | nil => intro rest s r _ _ hlen; simp at hlen
  | cons p ps ih =>
    intro rest s r hidle hr hlen hin htake
    obtain ⟨⟨hreset, hsink, hhost⟩, htake⟩ := List.forall_mem_cons.1 htake
    cases hq : s.outQ with
    | nil =>
      obtain rfl : ps = [] := by simpa [hq] using hlen
      calc Sys2Proof.core.run 1 s
        _ = .next (({ s with inputs := rest } : State).handResponse r) :=
          core_run_succ 0 (step_handResponse hin hq hr hreset hhost)
        _ = .next { s.handResponse r with inputs := rest } := rfl
        _ = .next { s.drained with inputs := rest } := by
          rw [State.handResponse_eq_drained hq hr (hidle hq)]
    | cons w ws =>
      have hdrained : (s.handWord w ws).drained = s.drained := State.drained_handWord hq
      have hnil : ws = [] → s.sequencer.afterWord w ws s.numActive = .idle := by
        rintro rfl; exact Sequencer.afterWord_nil ..
      calc Sys2Proof.core.run (ps.length + 1) s
        _ = Sys2Proof.core.run ps.length (({ s with inputs := ps ++ rest } : State).handWord w ws) :=
          core_run_succ _ (step_handWord hin hq hreset hsink)
        _ = .next { (s.handWord w ws).drained with inputs := rest } :=
          ih hnil hr (by simpa [hq] using hlen) rfl htake
        _ = .next { s.drained with inputs := rest } := by rw [hdrained]

/-- Settles O16: the run ends in `State.drained`, by induction on the looks. -/
theorem wordsThenResponseDrain : Obligations.WordsThenResponseDrain := by
  intro ps rest s r hports hr hlen hin htake
  refine ⟨_, run_drains hports.idle_of_outQ_nil hr hlen hin htake, ?_, rfl,
    ⟨rfl, rfl, rfl, rfl, rfl, rfl, rfl, rfl⟩, rfl⟩
  simp [State.drained, hr]

end Sys2Proof.Machine

/-! Byte transports, and what REGREAD answers: the register map address by address, the fields of a VSTAT word, and that a read changes nothing (spec/20_memory.md R51, R52, R54, R55; spec/43_host_access.md R191). -/

namespace Sys2Proof.Machine

/-! ### Byte transports (R55) -/

/-- The bytes of an output word are its own, from the least significant up. -/
theorem bytesOfOutWord_eq (w : OutWord) :
    bytesOfOutWord w = [w.extractLsb' 0 8, w.extractLsb' 8 8, w.extractLsb' 16 8,
      w.extractLsb' 24 8, w.extractLsb' 32 8, w.extractLsb' 40 8, w.extractLsb' 48 8,
      w.extractLsb' 56 8] := by
  simp [bytesOfOutWord, bytesOfWord, extractLsb'_outWord]

/-- Settles O8: a word's bytes make the word again. -/
theorem transportIsLittleEndian : Obligations.TransportIsLittleEndian := by
  constructor
  · rintro _ _ _ _ rest w c rfl rfl rfl rfl
    have hword := wordOfBytes_extract w
    exact ⟨rfl, hword, rfl, by rw [decodeBytes, hword]⟩
  · rintro _ _ _ _ _ _ _ _ w q rfl rfl rfl rfl rfl rfl rfl rfl
    exact ⟨bytesOfOutWord_eq w, outWordOfBytes_extract w,
      congrArg (· ++ bytesOfOutput q) (bytesOfOutWord_eq w)⟩

/-! ### REGREAD's response (R191) -/

/-- What REGREAD answers. -/
def State.regReadResponse (s : State) (a : BitVec 16) : Response :=
  match s.regRead a with
  | some w => ⟨.ok, w⟩
  | none => ⟨.badarg, 0#32⟩

theorem exec_regread (s : State) (a : BitVec 16) :
    exec (.regread a) s = .next { s with resp := some (s.regReadResponse a) } := by
  cases h : s.regRead a <;> simp [exec, execRegread, State.regReadResponse, State.respond, h]

/-- Settles O41: the register map does not read the response. -/
theorem regreadHasNoSideEffect : Obligations.RegreadHasNoSideEffect := by
  intro s a
  exact ⟨_, s.regReadResponse a, exec_regread s a, rfl, exec_regread _ a⟩

/-! ### The fields of VSTAT (R51) -/

theorem toNat_idxByte {k : Nat} (hk : k < 255) : (idxByte (some k)).toNat = k := by
  rw [idxByte, BitVec.toNat_ofNat, Nat.mod_eq_of_lt (by omega)]

/-- Settles O43: each field is the part of the concatenation that lies there. -/
theorem vstatFields : Obligations.VstatFields := by
  intro x hidx
  have hlow : (vstatWord x).extractLsb' 0 8 = idxByte x.idx := BitVec.extractLsb'_append_eq_right
  have hphase : (vstatWord x).extractLsb' 28 3 = phaseCode x.env := by
    simp only [vstatWord, BitVec.extractLsb'_append_eq_ite]; simp
  refine ⟨?_, hphase.trans ?_, ?_, ?_, ?_, ?_, fun hnone => ?_, fun k hk => ?_⟩
  · simp only [vstatWord, BitVec.getLsbD_append]; simp
  · cases hph : x.env.ph <;> simp [phaseCode, hph]
  · simp only [vstatWord, BitVec.extractLsb'_append_eq_ite]; simp
  · simp only [vstatWord, BitVec.extractLsb'_append_eq_ite]; simp
  · simp only [vstatWord, BitVec.getLsbD_append]; simp
  · simp only [vstatWord, BitVec.extractLsb'_append_eq_ite]; simp
  · rw [hlow, hnone]; rfl
  · rw [hlow, Option.mem_def.1 hk, toNat_idxByte (hidx k hk)]

/-! ### The register map (R51, R52) -/

theorem State.regRead_global (s : State) {a : BitVec 16} {k : Nat} (hk : k < 8)
    (ha : a = BitVec.ofNat 16 k) : s.regRead a = some (s.globalWord k) := by
  have hnat : a.toNat = k := by rw [ha, BitVec.toNat_ofNat, Nat.mod_eq_of_lt (by omega)]
  simp only [State.regRead, hnat]
  rw [if_pos hk]

theorem State.regRead_slot {s : State} (hg : s.cfg.valid) {a : BitVec 16} {k : Nat}
    (hk : k < s.cfg.C) (ha : a.toNat = 0x100 + k) : s.regRead a = some (slotWord (s.slot k)) := by
  obtain ⟨⟨-, hC⟩, -⟩ := hg
  simp only [State.regRead, ha]
  rw [if_neg (by omega), if_pos (by omega), Nat.add_sub_cancel_left]

theorem State.regRead_param {s : State} (hg : s.cfg.valid) {a : BitVec 16} {ch : Chan} {j : Nat}
    (hj : j < 4) (ha : a.toNat = 0x200 + 4 * ch.toNat + j) :
    s.regRead a = some (paramWord (s.param ch) j) := by
  obtain ⟨⟨-, hC⟩, -⟩ := hg
  have hch : (0x200 + 4 * ch.toNat + j - 0x200) / 4 = ch.toNat := by omega
  have hoff : (0x200 + 4 * ch.toNat + j - 0x200) % 4 = j := by omega
  have hlt : ch.toNat < 16 := ch.isLt
  simp only [State.regRead, ha]
  rw [if_neg (by omega), if_neg (by omega), if_pos (by omega), hch, hoff, BitVec.ofNat_toNat,
    BitVec.setWidth_eq]

/-- The banks of the voice records, from VSTAT at 1 to VSEQHI at 7. -/
theorem State.regRead_voice {s : State} (hg : s.cfg.valid) {a : BitVec 16} {ch : Chan} {v : Nat}
    (b : Nat) (hb : 1 ≤ b ∧ b < 8) (hv : v < s.cfg.P)
    (ha : a.toNat = 0x1000 * b + 256 * ch.toNat + v) :
    s.regRead a = some (voiceWord (s.voice ⟨ch, v⟩) b) := by
  obtain ⟨⟨-, hC⟩, ⟨-, hP⟩, -⟩ := hg
  have hlt : ch.toNat < 16 := ch.isLt
  have hch : BitVec.ofNat 4 ((0x1000 * b + 256 * ch.toNat + v) / 256) = ch := by
    apply BitVec.eq_of_toNat_eq
    rw [BitVec.toNat_ofNat]
    omega
  have hrv : (0x1000 * b + 256 * ch.toNat + v) % 256 = v := by omega
  have hbank : (0x1000 * b + 256 * ch.toNat + v) / 4096 = b := by omega
  simp only [State.regRead, ha]
  rw [if_neg (by omega), if_neg (by omega), if_neg (by omega), if_pos (by omega), hch, hrv, hbank]

theorem State.regRead_isSome_iff (s : State) (a : BitVec 16) :
    (s.regRead a).isSome = true ↔ regMapped s.cfg a := by
  simp only [State.regRead, regMapped]
  split_ifs
  · exact iff_of_true rfl (by omega)
  · exact iff_of_true rfl (by omega)
  · exact iff_of_true rfl (by omega)
  · exact iff_of_true rfl (by omega)
  · exact iff_of_false Bool.false_ne_true (by omega)

/-! ### The words of the map (R51) -/

theorem toNat_append_eq_add {m n : Nat} (x : BitVec m) (y : BitVec n) :
    (x ++ y).toNat = x.toNat * 2 ^ n + y.toNat := by
  rw [BitVec.toNat_append, ← Nat.shiftLeft_add_eq_or_of_lt y.isLt, Nat.shiftLeft_eq]

theorem toNat_setWidth_ofNat {k n : Nat} (hk : k ≤ 32) (hn : n < 2 ^ k) :
    ((BitVec.ofNat k n).setWidth 32).toNat = n := by
  rw [BitVec.toNat_setWidth_of_le hk, BitVec.toNat_ofNat, Nat.mod_eq_of_lt hn]

theorem toNat_setWidth_level (x : Level) : (x.setWidth 32).toNat = x.toNat :=
  BitVec.toNat_setWidth_of_le (by decide)

theorem toNat_lowHalf (x : BitVec 64) : (x.extractLsb' 0 32).toNat = x.toNat % 2 ^ 32 := by
  rw [BitVec.extractLsb'_toNat, Nat.shiftRight_zero]

theorem toNat_highHalf (x : BitVec 64) : (x.extractLsb' 32 32).toNat = x.toNat / 2 ^ 32 := by
  have hx := x.isLt
  rw [BitVec.extractLsb'_toNat, Nat.shiftRight_eq_div_pow, Nat.mod_eq_of_lt (by omega)]

theorem toNat_slotWord {id : VoiceId} (hv : id.rv < 256) :
    (slotWord (some id)).toNat = 2 ^ 31 + id.ch.toNat * 2 ^ 8 + id.rv := by
  simp only [slotWord, toNat_append_eq_add, BitVec.toNat_ofNat]
  omega

/-- What R51 says of the eight words at the addresses 0 to 7. -/
theorem State.globalWord_values {s : State} (hg : s.cfg.valid) (hn : s.numActive ≤ s.cfg.C) :
    s.globalWord 0 = (if s.err then 1#32 else 0#32) ∧
    (s.globalWord 1).toNat = s.numActive ∧
    (s.globalWord 2).toNat = s.cfg.C ∧
    (s.globalWord 3).toNat = s.cfg.P ∧
    (s.globalWord 4).toNat = s.cfg.F ∧
    s.globalWord 5 = 0x00FFFFFF#32 ∧
    (s.globalWord 6).toNat = s.seqCtr.toNat % 2 ^ 32 ∧
    (s.globalWord 7).toNat = s.seqCtr.toNat / 2 ^ 32 := by
  obtain ⟨⟨-, hC⟩, ⟨-, hP⟩, -, hF⟩ := hg
  refine ⟨?_, toNat_setWidth_ofNat (by decide) (by omega),
    toNat_setWidth_ofNat (by decide) (by omega), toNat_setWidth_ofNat (by decide) (by omega),
    toNat_setWidth_ofNat (by decide) (by omega), rfl, toNat_lowHalf s.seqCtr,
    toNat_highHalf s.seqCtr⟩
  cases h : s.err <;> simp [State.globalWord, h]

theorem toNat_paramWord (p : EnvParams) :
    (paramWord p 0).toNat = p.attack.toNat ∧ (paramWord p 1).toNat = p.decay.toNat ∧
    (paramWord p 2).toNat = p.sustain.toNat ∧ (paramWord p 3).toNat = p.release.toNat :=
  ⟨toNat_setWidth_level _, toNat_setWidth_level _, toNat_setWidth_level _, toNat_setWidth_level _⟩

theorem toNat_voiceWord (x : Voice) :
    (voiceWord x 2).toNat = x.env.lvl.toNat ∧ (voiceWord x 3).toNat = x.env.rem.toNat ∧
    (voiceWord x 4).toNat = x.env.stp.toNat ∧ (voiceWord x 5).toNat = x.env.tgt.toNat ∧
    (voiceWord x 6).toNat = x.seq.toNat % 2 ^ 32 ∧ (voiceWord x 7).toNat = x.seq.toNat / 2 ^ 32 :=
  ⟨toNat_setWidth_level _, toNat_setWidth_level _, toNat_setWidth_level _, toNat_setWidth_level _,
    toNat_lowHalf x.seq, toNat_highHalf x.seq⟩

/-! ### What REGREAD answers -/

theorem State.regReadResponse_code (s : State) (a : BitVec 16) :
    (s.regReadResponse a).code = .ok ↔ regMapped s.cfg a := by
  rw [← State.regRead_isSome_iff, State.regReadResponse]
  cases s.regRead a <;> simp

theorem State.regReadResponse_of_not_mapped {s : State} {a : BitVec 16}
    (h : ¬ regMapped s.cfg a) : s.regReadResponse a = ⟨.badarg, 0#32⟩ := by
  rw [← State.regRead_isSome_iff, Bool.not_eq_true, Option.isSome_eq_false_iff,
    Option.isNone_iff_eq_none] at h
  rw [State.regReadResponse, h]

theorem State.regReadResponse_data {s : State} {a : BitVec 16} {w : Word}
    (h : s.regRead a = some w) : (s.regReadResponse a).data = w := by
  rw [State.regReadResponse, h]

/-- Settles O42: the response's data is the word of `regRead`, group by group of the map. -/
theorem regreadFollowsTheMap : Obligations.RegreadFollowsTheMap := by
  intro s a hg hn
  have ⟨_, ⟨_, hP⟩, _⟩ := hg
  obtain ⟨hstatus, hactive, hsizeC, hsizeP, hsizeF, hpeak, hseqlo, hseqhi⟩ :=
    State.globalWord_values hg hn
  have hglobal (k : Nat) (hk : k < 8) (ha : a = BitVec.ofNat 16 k) :
      (s.regReadResponse a).data = s.globalWord k :=
    State.regReadResponse_data (s.regRead_global hk ha)
  have hvoice {ch : Chan} {v : Nat} (b : Nat) (hb : 1 ≤ b ∧ b < 8) (hv : v < s.cfg.P)
      (ha : a.toNat = 0x1000 * b + 256 * ch.toNat + v) :
      (s.regReadResponse a).data = voiceWord (s.voice ⟨ch, v⟩) b :=
    State.regReadResponse_data (State.regRead_voice hg b hb hv ha)
  have hparam {ch : Chan} (j : Nat) (hj : j < 4) (ha : a.toNat = 0x200 + 4 * ch.toNat + j) :
      (s.regReadResponse a).data = paramWord (s.param ch) j :=
    State.regReadResponse_data (State.regRead_param hg hj ha)
  refine ⟨_, (s.regReadResponse a).code, (s.regReadResponse a).data, exec_regread s a, rfl,
    s.regReadResponse_code a, fun h => ?_, fun ha => ?_, fun ha => ?_, fun ha => ?_, fun ha => ?_,
    fun ha => ?_, fun ha => ?_, fun ha => ?_, fun ha => ?_, fun k hk ha => ?_, fun ch => ?_,
    fun ch v hv => ?_⟩
  · rw [State.regReadResponse_of_not_mapped h]; exact ⟨rfl, rfl⟩
  · rw [hglobal 0 (by decide) ha, hstatus]
  · rw [hglobal 1 (by decide) ha, hactive]
  · rw [hglobal 2 (by decide) ha, hsizeC]
  · rw [hglobal 3 (by decide) ha, hsizeP]
  · rw [hglobal 4 (by decide) ha, hsizeF]
  · rw [hglobal 5 (by decide) ha, hpeak]
  · rw [hglobal 6 (by decide) ha, hseqlo]
  · rw [hglobal 7 (by decide) ha, hseqhi]
  · rw [State.regReadResponse_data (State.regRead_slot hg hk ha)]
    refine ⟨fun hnull => by rw [hnull]; rfl, fun id hid hv => ?_⟩
    rw [hid, toNat_slotWord (by omega)]
  · obtain ⟨hattack, hdecay, hsustain, hrelease⟩ := toNat_paramWord (s.param ch)
    refine ⟨fun ha => ?_, fun ha => ?_, fun ha => ?_, fun ha => ?_⟩
    · rw [hparam 0 (by decide) ha, hattack]
    · rw [hparam 1 (by decide) ha, hdecay]
    · rw [hparam 2 (by decide) ha, hsustain]
    · rw [hparam 3 (by decide) ha, hrelease]
  · obtain ⟨hlvl, hrem, hstp, htgt, hlo, hhi⟩ := toNat_voiceWord (s.voice ⟨ch, v⟩)
    refine ⟨hvoice 1 (by decide) hv, fun ha => ?_, fun ha => ?_, fun ha => ?_, fun ha => ?_,
      fun ha => ?_, fun ha => ?_⟩
    · rw [hvoice 2 (by decide) hv ha, hlvl]
    · rw [hvoice 3 (by decide) hv ha, hrem]
    · rw [hvoice 4 (by decide) hv ha, hstp]
    · rw [hvoice 5 (by decide) hv ha, htgt]
    · rw [hvoice 6 (by decide) hv ha, hlo]
    · rw [hvoice 7 (by decide) hv ha, hhi]

end Sys2Proof.Machine

/-! Decoding and encoding are inverse: a word is a command's word exactly when it fits the command's row of the opcode map, and the undefined words are those no row fits (spec/30_encoding.md R71 to R79). -/

namespace Sys2Proof

/-! ### The rows of the opcode map (R78) -/

/-- Every row fixes the whole opcode, at a value that is not reserved, and its other fixed bits are zeros. -/
theorem opcodeTable_fixed_bits : ∀ r ∈ opcodeTable,
    opOf r.mask = 0xF#4 ∧ opOf r.matchBits < 0xD#4 ∧ r.matchBits &&& 0x0FFFFFFF#32 = 0#32 := by
  decide

theorem opcodeTable_opcodes_nodup : (opcodeTable.map fun r => opOf r.matchBits).Nodup := by
  decide

/-- Rows that fit one word are one row: the opcode tells them apart (R71). -/
theorem eq_of_fits {r r' : OpcodeRow} (hr : r ∈ opcodeTable) (hr' : r' ∈ opcodeTable) {w : Word}
    (h : w &&& r.mask = r.matchBits) (h' : w &&& r'.mask = r'.matchBits) : r = r' := by
  obtain ⟨hmask, -⟩ := opcodeTable_fixed_bits r hr
  obtain ⟨hmask', -⟩ := opcodeTable_fixed_bits r' hr'
  exact List.inj_on_of_nodup_map opcodeTable_opcodes_nodup hr hr'
    ((opOf_of_fits h hmask).symm.trans (opOf_of_fits h' hmask'))

/-- Inside the mask, the word of a row's command has the row's fixed bits. -/
theorem encode_build_and_mask {r : OpcodeRow} (hr : r ∈ opcodeTable) (w : Word) :
    encode (r.build w) &&& r.mask = r.matchBits := by
  revert r
  simp only [opcodeTable, List.forall_mem_cons, List.not_mem_nil, false_imp_iff, implies_true,
    and_true]
  exact ⟨Laws.EncodeFits.nop, Laws.EncodeFits.noteon _ _ _, Laws.EncodeFits.noteoff _ _,
    Laws.EncodeFits.voiceoff _ _, Laws.EncodeFits.releaseall, Laws.EncodeFits.cleanup,
    Laws.EncodeFits.advance, Laws.EncodeFits.render, Laws.EncodeFits.seta _ _,
    Laws.EncodeFits.setd _ _, Laws.EncodeFits.sets _ _, Laws.EncodeFits.setr _ _,
    Laws.EncodeFits.regread _⟩

/-- Outside the mask, it has the bits of the word its operands were read from: the fields of R77 cover every bit there. -/
theorem encode_build_and_not_mask {r : OpcodeRow} (hr : r ∈ opcodeTable) (w : Word) :
    encode (r.build w) &&& ~~~r.mask = w &&& ~~~r.mask := by
  revert r
  simp only [opcodeTable, List.forall_mem_cons, List.not_mem_nil, false_imp_iff, implies_true,
    and_true]
  refine ⟨?_, ?_, ?_, ?_, ?_, ?_, ?_, ?_, ?_, ?_, ?_, ?_, ?_⟩ <;>
  · apply BitVec.eq_of_getLsbD_eq
    intro i hi
    simp only [encode, chOf, noteOf, velOf, rvOf, valOf, addrOf, BitVec.getLsbD_and,
      BitVec.getLsbD_append, BitVec.getLsbD_extractLsb']
    interval_cases i <;> simp

/-- Two words that agree inside a mask and outside it are one word. -/
theorem eq_of_and_mask {v w k : Word} (hin : v &&& k = w &&& k)
    (hout : v &&& ~~~k = w &&& ~~~k) : v = w := by
  ext i hi
  have hin := congrArg (·[i]) hin
  have hout := congrArg (·[i]) hout
  simp only [BitVec.getElem_and, BitVec.getElem_not] at hin hout
  cases hk : k[i]
  · simpa [hk] using hout
  · simpa [hk] using hin

theorem encode_build_of_fits {r : OpcodeRow} (hr : r ∈ opcodeTable) {w : Word}
    (h : w &&& r.mask = r.matchBits) : encode (r.build w) = w :=
  eq_of_and_mask ((encode_build_and_mask hr w).trans h.symm) (encode_build_and_not_mask hr w)

/-- Every command has a row, which reads the command's operands back from its word (R77). -/
theorem exists_row_build_encode (i : Instr) : ∃ r ∈ opcodeTable, r.build (encode i) = i := by
  cases i with
  | nop => exact ⟨opcodeTable[0], List.getElem_mem _, rfl⟩
  | noteon ch note vel => exact ⟨opcodeTable[1], List.getElem_mem _, by simp [opcodeTable]⟩
  | noteoff ch note => exact ⟨opcodeTable[2], List.getElem_mem _, by simp [opcodeTable]⟩
  | voiceoff ch rv => exact ⟨opcodeTable[3], List.getElem_mem _, by simp [opcodeTable]⟩
  | releaseall => exact ⟨opcodeTable[4], List.getElem_mem _, rfl⟩
  | cleanup => exact ⟨opcodeTable[5], List.getElem_mem _, rfl⟩
  | advance => exact ⟨opcodeTable[6], List.getElem_mem _, rfl⟩
  | render => exact ⟨opcodeTable[7], List.getElem_mem _, rfl⟩
  | seta ch val => exact ⟨opcodeTable[8], List.getElem_mem _, by simp [opcodeTable]⟩
  | setd ch val => exact ⟨opcodeTable[9], List.getElem_mem _, by simp [opcodeTable]⟩
  | sets ch val => exact ⟨opcodeTable[10], List.getElem_mem _, by simp [opcodeTable]⟩
  | setr ch val => exact ⟨opcodeTable[11], List.getElem_mem _, by simp [opcodeTable]⟩
  | regread addr => exact ⟨opcodeTable[12], List.getElem_mem _, by simp [opcodeTable]⟩

/-! ### What `decode` answers (R79) -/

theorem decodeWord_eq_instr_iff {w : Word} {i : Instr} :
    decodeWord w = .instr i ↔
      ∃ r ∈ opcodeTable, w &&& r.mask = r.matchBits ∧ r.build w = i := by
  unfold decodeWord
  cases hf : opcodeTable.find? fun r => r.fits w with
  | none =>
    have hnone := List.find?_eq_none.1 hf
    simp only [reduceCtorEq, false_iff]
    rintro ⟨r, hr, hfit, -⟩
    exact hnone r hr ((OpcodeRow.fits_iff ..).2 hfit)
  | some r =>
    have hr := List.mem_of_find?_eq_some hf
    have hfit : w &&& r.mask = r.matchBits :=
      (OpcodeRow.fits_iff ..).1 (List.find?_some (p := fun r : OpcodeRow => r.fits w) hf)
    simp only [Decoded.instr.injEq]
    constructor
    · exact fun h => ⟨r, hr, hfit, h⟩
    · rintro ⟨r', hr', hfit', rfl⟩
      rw [eq_of_fits hr hr' hfit hfit']

theorem decodeWord_undefined_iff {w : Word} :
    (∃ e, decodeWord w = .undefined e) ↔ ∀ r ∈ opcodeTable, w &&& r.mask ≠ r.matchBits := by
  cases hd : decodeWord w with
  | instr i =>
    obtain ⟨r, hr, hfit, -⟩ := decodeWord_eq_instr_iff.1 hd
    simp only [reduceCtorEq, exists_false, false_iff]
    exact fun h => h r hr hfit
  | undefined e =>
    refine iff_of_true ⟨e, rfl⟩ fun r hr hfit => ?_
    have hinstr := decodeWord_eq_instr_iff.2 ⟨r, hr, hfit, rfl⟩
    exact nomatch hd.symm.trans hinstr

/-- Settles O3: the word has the fixed bits of its command's row, and the row's fields read the operands back. -/
theorem decodeOfEncode : Obligations.DecodeOfEncode := by
  intro i
  obtain ⟨r, hr, hbuild⟩ := exists_row_build_encode i
  have hfit := encode_build_and_mask hr (encode i)
  rw [hbuild] at hfit
  exact decodeWord_eq_instr_iff.2 ⟨r, hr, hfit, hbuild⟩

/-- Settles O4: a word that fits a row is determined by the row's fixed bits and by the operands. -/
theorem encodeOfDecode : Obligations.EncodeOfDecode := by
  intro w i h
  obtain ⟨r, hr, hfit, rfl⟩ := decodeWord_eq_instr_iff.1 h
  exact encode_build_of_fits hr hfit

theorem fits_iff_decodeWord {r : OpcodeRow} (hr : r ∈ opcodeTable) (w : Word) :
    w &&& r.mask = r.matchBits ↔ decodeWord w = .instr (r.build w) := by
  constructor
  · exact fun h => decodeWord_eq_instr_iff.2 ⟨r, hr, h, rfl⟩
  · intro h
    rw [← encodeOfDecode w _ h]
    exact encode_build_and_mask hr w

/-- Settles O5: `fits_iff_decodeWord` at each of the thirteen rows. -/
theorem decodeFollowsOpcodeMap : Obligations.DecodeFollowsOpcodeMap := by
  intro w
  have hrow (k : Fin 13) : w &&& opcodeTable[k].mask = opcodeTable[k].matchBits ↔
      decodeWord w = .instr (opcodeTable[k].build w) :=
    fits_iff_decodeWord (List.getElem_mem _) w
  exact ⟨hrow 0, hrow 1, hrow 2, hrow 3, hrow 4, hrow 5, hrow 6, hrow 7, hrow 8, hrow 9, hrow 10,
    hrow 11, hrow 12⟩

/-- Settles O7: the words are concrete. -/
theorem writtenWordsDecode : Obligations.WrittenWordsDecode := by
  unfold Obligations.WrittenWordsDecode
  decide

/-! ### Undefined words (R79) -/

/-- The bits above 27 are the opcode (R71). -/
theorem and_opcode_bits (w : Word) : w &&& ~~~0x0FFFFFFF#32 = opOf w ++ 0#28 := by
  apply BitVec.eq_of_getLsbD_eq
  intro i hi
  simp only [opOf, BitVec.getLsbD_and, BitVec.getLsbD_append, BitVec.getLsbD_extractLsb']
  interval_cases i <;> simp

/-- A word fits a row when it has the row's opcode and its reserved-zero bits are 0. -/
theorem fits_iff_opOf {r : OpcodeRow} (hr : r ∈ opcodeTable) (w : Word) :
    w &&& r.mask = r.matchBits ↔
      opOf w = opOf r.matchBits ∧ w &&& (r.mask &&& 0x0FFFFFFF#32) = 0#32 := by
  obtain ⟨hmask, -, hzero⟩ := opcodeTable_fixed_bits r hr
  rw [← BitVec.and_assoc]
  constructor
  · exact fun h => ⟨opOf_of_fits h hmask, h ▸ hzero⟩
  · rintro ⟨hop, hw⟩
    have hopw : opOf (w &&& r.mask) = opOf r.matchBits := (opOf_of_fits rfl hmask).symm.trans hop
    refine eq_of_and_mask (hw.trans hzero.symm) ?_
    rw [and_opcode_bits, and_opcode_bits, hopw]

theorem reserved_opcode_iff (w : Word) : 0xD0000000#32 ≤ w ↔ 0xD#4 ≤ opOf w := by
  rw [BitVec.le_def, BitVec.le_def, opOf, BitVec.extractLsb'_toNat, Nat.shiftRight_eq_div_pow]
  simp only [BitVec.toNat_ofNat]
  omega

theorem opcode_cases (o : BitVec 4) : 0xD#4 ≤ o ∨ o = 0x0#4 ∨ o = 0x1#4 ∨ o = 0x2#4 ∨ o = 0x3#4 ∨
    o = 0x4#4 ∨ o = 0x5#4 ∨ o = 0x6#4 ∨ o = 0x7#4 ∨ o = 0x8#4 ∨ o = 0x9#4 ∨ o = 0xA#4 ∨
    o = 0xB#4 ∨ o = 0xC#4 := by
  revert o; decide

/-- Settles O6: no row has a reserved opcode, and under any other opcode one row alone has to fit. -/
theorem undefinedWords : Obligations.UndefinedWords := by
  intro w
  have hrows : (∃ e, decodeWord w = .undefined e) ↔ ∀ r ∈ opcodeTable,
      opOf w = opOf r.matchBits → w &&& (r.mask &&& 0x0FFFFFFF#32) ≠ 0#32 := by
    rw [decodeWord_undefined_iff]
    exact forall₂_congr fun r hr => by rw [Ne, fits_iff_opOf hr, not_and]
  rw [hrows, reserved_opcode_iff, ← opOf]
  generalize opOf w = o
  obtain hres | rfl | rfl | rfl | rfl | rfl | rfl | rfl | rfl | rfl | rfl | rfl | rfl | rfl :=
    opcode_cases o
  case inl =>
    refine iff_of_true (fun r hr hop => ?_) (.inl hres)
    obtain ⟨-, hlt, -⟩ := opcodeTable_fixed_bits r hr
    exact absurd (hop ▸ hres) (BitVec.not_le.2 hlt)
  all_goals simp [opcodeTable, opOf]

end Sys2Proof

/-! The assembler's checks and pseudo-commands, and the layouts of output words and response data (spec/30_encoding.md R83 to R87). -/

namespace Sys2Proof.Machine

/-! ### The assembler (R86, R87) -/

theorem assemble_eq_none_iff (l : AsmLine) : assemble l = none ↔ l.wellFormed = false := by
  cases h : l.wellFormed <;> simp [assemble, h]

theorem toNat_encode_noteon (ch : Chan) (note vel : Midi7) :
    (encode (.noteon ch note vel)).toNat =
      0x10000000 + ch.toNat * 2 ^ 24 + note.toNat * 2 ^ 16 + vel.toNat * 2 ^ 8 := by
  simp only [encode, toNat_append_eq_add, BitVec.toNat_ofNat]
  omega

/-- An accepted NOTEON is one word with the operands in their fields. -/
theorem assemble_noteon {ch note vel : Nat} (hch : ch ≤ 15) (hnote : note ≤ 127)
    (hvel : vel ≤ 127) : ∃ w, assemble (.noteon ch note vel) = some [w] ∧
      w.toNat = 0x10000000 + ch * 2 ^ 24 + note * 2 ^ 16 + vel * 2 ^ 8 := by
  have hok : (AsmLine.noteon ch note vel).wellFormed = true := by
    simp [AsmLine.wellFormed, chanFits, midi7Fits, hch, hnote, hvel]
  refine ⟨_, if_pos hok, ?_⟩
  rw [toNat_encode_noteon, BitVec.toNat_ofNat, BitVec.toNat_ofNat, BitVec.toNat_ofNat,
    Nat.mod_eq_of_lt (by omega), Nat.mod_eq_of_lt (by omega), Nat.mod_eq_of_lt (by omega)]

/-- An assembled word is the word of a command. -/
theorem decodeWord_of_mem_assemble {l : AsmLine} {ws : List Word} (h : assemble l = some ws)
    {w : Word} (hw : w ∈ ws) : ∃ i, decodeWord w = .instr i := by
  simp only [assemble, Option.ite_none_right_eq_some, Option.some.injEq] at h
  obtain ⟨-, rfl⟩ := h
  obtain ⟨i, -, rfl⟩ := List.mem_map.1 hw
  exact ⟨i, decodeOfEncode i⟩

/-- Settles O9: a line is rejected when its check fails, and only words of commands are emitted. -/
theorem assemblerChecksOperands : Obligations.AssemblerChecksOperands := by
  unfold Obligations.AssemblerChecksOperands
  simp only [assemble_eq_none_iff, AsmLine.wellFormed, chanFits, midi7Fits, byteFits, levelFits,
    addrFits, Bool.and_eq_false_iff, decide_eq_false_iff_not, Nat.not_le, or_assoc, implies_true,
    true_and]
  exact ⟨fun _ _ _ => assemble_noteon, fun _ _ h _ => decodeWord_of_mem_assemble h⟩

/-- The two nibbles of a MIDI status byte (R87). -/
theorem midi_status_nibbles {status : Nat} (h : status ≤ 255) :
    status &&& 0xF = status % 16 ∧ status &&& 0xF0 = status / 16 * 16 := by
  have hhigh : ∀ hi < 16, ∀ lo < 16, (hi * 16 + lo) &&& 0xF0 = hi * 16 := by decide
  refine ⟨Nat.and_two_pow_sub_one_eq_mod status 4, ?_⟩
  simpa only [Nat.div_add_mod'] using hhigh (status / 16) (by omega) (status % 16) (by omega)

/-- Settles O10: MIDI's cases are those of the status byte's high nibble. -/
theorem pseudoCommandsExpand : Obligations.PseudoCommandsExpand := by
  refine ⟨fun _ _ _ _ _ => rfl, rfl, fun status d1 d2 hs _ _ => ?_⟩
  obtain ⟨hch, hcmd⟩ := midi_status_nibbles hs
  simp only [expand, expandMidi, hch, hcmd]
  refine ⟨fun h9 hd => ?_, fun h => ?_, fun h8 h9 => ?_⟩
  · rw [if_pos (by omega)]
  · rw [if_neg (by omega), if_pos (by omega)]
  · rw [if_neg (by omega), if_neg (by omega)]

/-! ### Output words (R84) -/

theorem vfWord_rv (id : VoiceId) (x : Voice) (amp : Level) :
    (vfWord id x amp).extractLsb' 48 8 = BitVec.ofNat 8 id.rv := by
  simp (disch := decide) only [vfWord, BitVec.extractLsb'_append_eq_of_le,
    BitVec.extractLsb'_append_eq_of_add_le]
  simp

theorem vfWord_idx (id : VoiceId) (x : Voice) (amp : Level) :
    (vfWord id x amp).extractLsb' 40 8 = idxByte x.idx := by
  simp (disch := decide) only [vfWord, BitVec.extractLsb'_append_eq_of_le,
    BitVec.extractLsb'_append_eq_of_add_le]
  simp

theorem toNat_feWord {f : Nat} (hf : f < 65536) : (feWord f).toNat = 2 ^ 63 + f := by
  simp only [feWord, toNat_append_eq_add, BitVec.toNat_ofNat]
  omega

/-- Settles O44: each field is the part of the concatenation that lies there. -/
theorem outputRecordFields : Obligations.OutputRecordFields := by
  refine ⟨fun id x amp k hrv hidx hk => ?_, fun f hf => toNat_feWord hf⟩
  have hfield48 : ((vfWord id x amp).extractLsb' 48 8).toNat = id.rv := by
    rw [vfWord_rv, BitVec.toNat_ofNat, Nat.mod_eq_of_lt hrv]
  have hfield40 : ((vfWord id x amp).extractLsb' 40 8).toNat = k := by
    rw [vfWord_idx, hidx, toNat_idxByte hk]
  refine ⟨?_, ?_, hfield48, hfield40, ?_, ?_, ?_, ?_, ?_⟩
  all_goals
    simp (disch := decide) only [vfWord, BitVec.extractLsb'_append_eq_of_le,
      BitVec.extractLsb'_append_eq_of_add_le, BitVec.getLsbD_append]
    simp

/-! ### Response data (R83, R85) -/

theorem toNat_noteonData (p : Path) {k v : Nat} (hk : k < 255) (hv : v < 256) :
    (noteonData p (some k) v).toNat = (pathBits p).toNat * 2 ^ 30 + k * 2 ^ 8 + v := by
  simp only [noteonData, toNat_append_eq_add, toNat_idxByte hk, BitVec.toNat_ofNat]
  omega

theorem toNat_releasedData {k v : Nat} (hk : k < 255) (hv : v < 256) :
    (releasedData (some k) v).toNat = k * 2 ^ 8 + v := by
  simp only [releasedData, toNat_append_eq_add, toNat_idxByte hk, BitVec.toNat_ofNat]
  omega

theorem toNat_removedData {r n : Nat} (hr : r < 256) (hn : n < 256) :
    (removedData r n).toNat = r * 2 ^ 8 + n := by
  simp only [removedData, toNat_append_eq_add, BitVec.toNat_ofNat]
  omega

theorem toNat_countData {n : Nat} (hn : n < 256) : (countData n).toNat = n := by
  simp only [countData, toNat_append_eq_add, BitVec.toNat_ofNat]
  omega

/-- Settles O45: the number each layout makes of its fields. -/
theorem responseDataLayouts : Obligations.ResponseDataLayouts :=
  ⟨fun _ _ hk hv => ⟨toNat_noteonData .free hk hv, toNat_noteonData .retrig hk hv,
      toNat_noteonData .steal hk hv, toNat_releasedData hk hv⟩,
    fun _ _ hr hn => toNat_removedData hr hn, fun _ hn => toNat_countData hn,
    rfl, rfl, rfl, rfl, rfl⟩

end Sys2Proof.Machine

/-! The command port: when a word is taken, that every command answers once, and what it leaves when the answer is not OK (spec/30_encoding.md R81 to R83; spec/60_exceptions.md R200). -/

namespace Sys2Proof.Machine

/-! ### A ready port (R81) -/

theorem look_accept {s : State} {p : PortInput} {w : Word} (hready : s.ready = true)
    (hreset : p.reset = false) (hcmd : p.cmd = some w) : look p s = accept w s := by
  obtain ⟨hq, hr, -⟩ := State.ready_iff.1 hready
  simp [look, hreset, hcmd, hq, hr, hready]

theorem step_accept {s : State} {p : PortInput} {rest : List PortInput} {w : Word}
    (hin : s.inputs = p :: rest) (hreset : p.reset = false) (hcmd : p.cmd = some w)
    (hready : s.ready = true) : step s = accept w { s with inputs := rest } := by
  rw [step, hin]
  exact look_accept (s := { s with inputs := rest }) hready hreset hcmd

theorem accept_instr {w : Word} {i : Instr} (h : decodeWord w = .instr i) (s : State) :
    accept w s = exec i s := by
  rw [accept, h]

/-- The opcode table's word comes off a transport as it went on (R55). -/
theorem decodeWord_of_decodeTableWord {nbits w : Nat} {i : Instr}
    (h : decodeTableWord nbits w = some i) : decodeWord (tableWord nbits w) = .instr i := by
  rw [decodeTableWord, bytesOfWord, decodeBytes, wordOfBytes_extract] at h
  cases hd : decodeWord (tableWord nbits w) <;> rw [hd] at h
  case instr j => exact congrArg Decoded.instr (Option.some.inj h)
  case undefined e => exact nomatch h

/-- Settles O11: with nothing waiting, a look accepts the word offered. -/
theorem stepRunsTheOfferedCommand : Obligations.StepRunsTheOfferedCommand := by
  constructor
  · intro s p rest w i hin hreset hcmd hready hdec
    rw [step_accept hin hreset hcmd hready, accept_instr hdec]
  · intro s nbits w i h
    have hdec := decodeWord_of_decodeTableWord h
    exact (step_accept (s := s.withFetchWord nbits w) rfl rfl rfl rfl).trans (accept_instr hdec _)

/-! ### A busy port (R82) -/

theorem look_of_not_ready {s : State} (h : s.ready = false) (p : PortInput) (c : Option Word) :
    look { p with cmd := c } s = look p s := by
  obtain ⟨reset, cmd, sinkReady, hostReady⟩ := p
  cases c <;> cases cmd <;> simp [look, h]

/-- Settles O13: a look reads the offered word on a ready port only. -/
theorem busyPortTakesNoCommand : Obligations.BusyPortTakesNoCommand := by
  refine ⟨fun s f i hs => ?_, fun s hs => ?_, fun s p rest c hs => ?_⟩
  · simp [State.ready, hs]
  · rw [← Bool.not_eq_true, State.ready_iff]
    rintro ⟨hq, hr, -⟩
    exact hs.elim (· hq) (· hr)
  · exact (look_of_not_ready (s := { s with inputs := rest }) hs p c).symm

/-- The last frame of a block leaves its FE record waiting (R172). -/
theorem frames_outQ_ne_nil (s : State) {F : Nat} (hF : 1 ≤ F) :
    ((List.range F).foldl State.frame s).outQ ≠ [] := by
  obtain ⟨k, rfl⟩ := Nat.exists_eq_add_of_le' hF
  simp [List.range_succ, State.frame_outQ]

theorem Sequencer.inBlock_of_ne_nil {q : List OutWord} (hq : q ≠ []) (f : BitVec 16) (n : Nat) :
    ∃ i, Sequencer.inBlock f q n = .rendering f i := by
  cases q with
  | nil => exact absurd rfl hq
  | cons w ws => exact ⟨_, rfl⟩

/-- Settles O38: a block has at least one frame, so its words wait and the sequencer is RENDERING. -/
theorem renderKeepsThePortBusy : Obligations.RenderKeepsThePortBusy := by
  rintro s ⟨-, -, hF, -⟩
  have hcfg : s.cleanupPass.1.cfg = s.cfg := (State.IdxFrame.cleanupPass s).cfg
  have hq := frames_outQ_ne_nil s.cleanupPass.1 (hcfg ▸ hF)
  obtain ⟨i, hi⟩ := Sequencer.inBlock_of_ne_nil hq 0#16
    ((List.range s.cleanupPass.1.cfg.F).foldl State.frame s.cleanupPass.1).numActive
  obtain ⟨hrendering, -⟩ := busyPortTakesNoCommand
  exact ⟨_, i, rfl, hi, hq, hrendering _ _ _ hi⟩

/-! ### Every command answers (R83, R200) -/

/-- A command that starts at `s` has answered: OK, or by nothing but another response with data 0. -/
def State.Answered (s t : State) : Prop :=
  (∃ d, t.resp = some ⟨.ok, d⟩) ∨ ∃ c, t = s.respond c 0#32

theorem State.Answered.ok (s t : State) (d : Word) : s.Answered (t.respond .ok d) := .inl ⟨d, rfl⟩

theorem State.Answered.unchanged (s : State) (c : RespCode) : s.Answered (s.respond c 0#32) :=
  .inr ⟨c, rfl⟩

/-- `activate` changes nothing when it finds no voice (R145), in any state. -/
theorem State.activate_none {s t : State} {ch : Chan} {n : Midi7}
    (h : s.activate ch n = (t, none)) : t = s := by
  unfold State.activate at h
  split at h
  · simp at h
  · split at h
    · split at h
      · simp at h
      · split at h
        · simp at h
        · exact (congrArg Prod.fst h).symm
    · exact (congrArg Prod.fst h).symm

theorem State.Answered.noteOn (s : State) (ch : Chan) (n vel : Midi7) :
    s.Answered (s.noteOn ch n vel) := by
  unfold State.noteOn
  split
  · exact .ok s _ _
  · rename_i t hnone
    rw [State.activate_none hnone]
    exact .unchanged s _

theorem State.Answered.noteOff (s : State) (ch : Chan) (n : Midi7) :
    s.Answered (s.noteOff ch n) := by
  obtain ⟨v, -, d, hv⟩ | ⟨-, hv⟩ := s.noteOff_cases ch n <;> rw [hv]
  · exact .ok s _ d
  · exact .unchanged s _

theorem execNoteon_answers (ch : Chan) (n vel : Midi7) (s : State) :
    ∃ t, execNoteon ch n vel s = .next t ∧ s.Answered t := by
  refine ⟨_, rfl, ?_⟩
  split
  · exact .noteOff s ch n
  · exact .noteOn s ch n vel

theorem execVoiceoff_answers (ch : Chan) (rv : BitVec 8) (s : State) :
    ∃ t, execVoiceoff ch rv s = .next t ∧ s.Answered t := by
  refine ⟨_, rfl, ?_⟩
  dsimp only
  split
  · exact .unchanged s _
  · split
    · exact .ok s _ _
    · exact .unchanged s _

theorem execRegread_answers (addr : BitVec 16) (s : State) :
    ∃ t, execRegread addr s = .next t ∧ s.Answered t := by
  refine ⟨_, rfl, ?_⟩
  split
  · exact .ok s s _
  · exact .unchanged s _

/-- Every command completes, in any state. -/
theorem exec_answers (i : Instr) (s : State) : ∃ t, exec i s = .next t ∧ s.Answered t := by
  cases i with
  | nop => exact ⟨_, rfl, .ok s _ _⟩
  | noteon ch n vel => exact execNoteon_answers ch n vel s
  | noteoff ch n => exact ⟨_, rfl, .noteOff s ch n⟩
  | voiceoff ch rv => exact execVoiceoff_answers ch rv s
  | releaseall => exact ⟨_, rfl, .ok s _ _⟩
  | cleanup => exact ⟨_, rfl, .ok s _ _⟩
  | advance => exact ⟨_, rfl, .ok s _ _⟩
  | render => exact ⟨_, rfl, .inl ⟨_, rfl⟩⟩
  | seta ch val => exact ⟨_, rfl, .ok s _ _⟩
  | setd ch val => exact ⟨_, rfl, .ok s _ _⟩
  | sets ch val => exact ⟨_, rfl, .ok s _ _⟩
  | setr ch val => exact ⟨_, rfl, .ok s _ _⟩
  | regread addr => exact execRegread_answers addr s

theorem accept_next (w : Word) (s : State) : ∃ t, accept w s = .next t := by
  unfold accept
  split
  · obtain ⟨t, ht, -⟩ := exec_answers _ s
    exact ⟨t, ht⟩
  · exact ⟨_, rfl⟩

theorem look_next (p : PortInput) (s : State) : ∃ t, look p s = .next t := by
  unfold look
  split
  · exact ⟨_, rfl⟩
  · split
    · exact ⟨_, rfl⟩
    · split
      · exact ⟨_, rfl⟩
      · split
        · split
          · exact accept_next _ s
          · exact ⟨_, rfl⟩
        · exact ⟨_, rfl⟩

/-- Settles O46: every command has answered where it ends, and a step runs at most one. -/
theorem everyCommandCompletes : Obligations.EveryCommandCompletes := by
  refine ⟨fun i s => ?_, fun s => ?_⟩
  · obtain ⟨t, ht, ⟨d, hd⟩ | ⟨c, rfl⟩⟩ := exec_answers i s
    · exact ⟨t, _, ht, hd⟩
    · exact ⟨_, _, ht, rfl⟩
  · unfold step
    split
    · exact ⟨_, rfl⟩
    · exact look_next _ _

/-- Settles O47: an answer other than OK is all that the command does. -/
theorem nonOkChangesNothing : Obligations.NonOkChangesNothing := by
  intro i s t r hexec hresp hcode
  obtain ⟨u, hu, hans⟩ := exec_answers i s
  obtain rfl := next_inj (hexec.symm.trans hu)
  obtain ⟨d, hd⟩ | ⟨c, rfl⟩ := hans
  · obtain rfl : r = ⟨.ok, d⟩ := Option.some.inj (hresp.symm.trans hd)
    exact absurd rfl hcode
  · exact ⟨⟨rfl, rfl, rfl, rfl, rfl, rfl, rfl, rfl⟩, ⟨rfl, rfl, rfl⟩⟩

end Sys2Proof.Machine

/-! The envelope: what one sample does, how far a ramp is after `j` samples, and when the parameters are read (spec/40_envelope.md R101 to R116). -/

namespace Sys2Proof.Machine

/-! ### Entering a ramp (R101 to R103) -/

theorem absDiff_cast (a b : Nat) : (absDiff a b : ℤ) = |(a : ℤ) - b| := by
  rcases le_total a b with h | h
  · rw [abs_of_nonpos (by omega), absDiff]; omega
  · rw [abs_of_nonneg (by omega), absDiff]; omega

theorem absDiff_peak (l : Level) : absDiff PEAK.toNat l.toNat = 0xFFFFFF - l.toNat := by
  have := l.isLt
  simp only [absDiff, PEAK, BitVec.toNat_ofNat]
  omega

theorem absDiff_comm (a b : Nat) : absDiff a b = absDiff b a := Nat.add_comm ..

/-- Settles O18: neither `rem` nor `stp` is cut by its 24 bits. -/
theorem enterStartsARamp : Obligations.EnterStartsARamp := by
  intro e ph tgt N
  refine ⟨rfl, rfl, rfl, e.enter_rem ph tgt N, ?_⟩
  rw [Envelope.enter_stp, Int.natCast_div, absDiff_cast, rampLen]

/-- Settles O19: both write one envelope back. -/
theorem attackAndReleaseRamp : Obligations.AttackAndReleaseRamp := by
  intro s id hshape hv
  exact ⟨State.voice_setEnv_self hshape hv _, State.voice_setEnv_self hshape hv _,
    fun _ hne => ⟨s.voice_setEnv_ne hne _, s.voice_setEnv_ne hne _⟩, rfl, rfl⟩

/-! ### The parameters (R112 to R116) -/

/-- What the four commands share: a parameter write and an OK change nothing else. -/
theorem respond_setParam_frame {s t : State} (h : s.Shape) {ch : Chan} {q : EnvParams}
    (ht : t = (s.setParam ch q).respond .ok 0#32) : t.param ch = q ∧
      (∀ c, c ≠ ch → t.param c = s.param c) ∧
      t = { s with params := t.params, resp := some ⟨.ok, 0#32⟩ } := by
  subst ht
  exact ⟨State.param_setParam_self h ch q, fun _ hc => s.param_setParam_ne hc q, rfl⟩

/-- Settles O23: each command is a write of its channel's parameters with one of them replaced. -/
theorem parameterWrites : Obligations.ParameterWrites := by
  intro s ch val h
  exact ⟨⟨_, rfl, respond_setParam_frame h rfl⟩, ⟨_, rfl, respond_setParam_frame h rfl⟩,
    ⟨_, rfl, respond_setParam_frame h rfl⟩, ⟨_, rfl, respond_setParam_frame h rfl⟩⟩

/-! ### One sample (R104 to R107) -/

/-- In a ramp that is not at its last sample, `next` moves the level and counts down (R104 to R106). -/
theorem Envelope.next_of_one_lt_rem {e : Envelope} (p : EnvParams) (hp : e.ph ≠ .done)
    (hr : 1 < e.rem.toNat) :
    e.next p = { e with lvl := if e.ph = .attack then e.lvl + e.stp else e.lvl - e.stp
                        rem := e.rem - 1#24 } := by
  have h1 : 1#24 < e.rem := (lt_one_iff_toNat _).2 hr
  cases h : e.ph with
  | attack => simp [Envelope.next, h, h1]
  | decay => simp [Envelope.next, h, h1]
  | release => simp [Envelope.next, h, h1]
  | done => exact absurd h hp

/-- The attack's last sample enters the decay from the target (R104). -/
theorem Envelope.next_attack_last {e : Envelope} (p : EnvParams) (hp : e.ph = .attack)
    (hr : e.rem.toNat = 1) :
    e.next p = ({ e with lvl := e.tgt } : Envelope).enter .decay p.sustain p.decay := by
  simp [Envelope.next, hp, lt_one_iff_toNat, hr]

/-- The decay's last sample starts the sustain hold (R105). -/
theorem Envelope.next_decay_last {e : Envelope} (p : EnvParams) (hp : e.ph = .decay)
    (hr : e.rem.toNat = 1) : e.next p = { e with lvl := e.tgt, rem := 0#24 } := by
  have h1 : e.rem = 1#24 := BitVec.eq_of_toNat_eq hr
  simp [Envelope.next, hp, h1]

/-- Sustain hold (R105). -/
theorem Envelope.next_decay_hold {e : Envelope} (p : EnvParams) (hp : e.ph = .decay)
    (hr : e.rem.toNat = 0) : e.next p = e := by
  have h0 : e.rem = 0#24 := BitVec.eq_of_toNat_eq hr
  simp [Envelope.next, hp, h0]

/-- The release's last sample clears the envelope (R106). -/
theorem Envelope.next_release_last {e : Envelope} (p : EnvParams) (hp : e.ph = .release)
    (hr : e.rem.toNat = 1) : e.next p = Envelope.reset := by
  simp [Envelope.next, hp, lt_one_iff_toNat, hr, Envelope.reset]

theorem Envelope.next_done {e : Envelope} (p : EnvParams) (hp : e.ph = .done) : e.next p = e := by
  simp [Envelope.next, hp]

/-! ### A ramp in progress (R111) -/

/-- `t` is `j` samples further on in the ramp of `e`, before its last sample. -/
structure Envelope.MidRamp (e t : Envelope) (j : Nat) : Prop where
  ph : t.ph = e.ph
  tgt : t.tgt = e.tgt
  stp : t.stp = e.stp
  rem : t.rem.toNat + j = e.rem.toNat
  rises : e.ph = .attack → t.lvl.toNat = e.lvl.toNat + j * e.stp.toNat
  falls : e.ph = .decay ∨ e.ph = .release → t.lvl.toNat + j * e.stp.toNat = e.lvl.toNat

theorem Envelope.MidRamp.refl (e : Envelope) : e.MidRamp e 0 :=
  ⟨rfl, rfl, rfl, rfl, by simp, by simp⟩

theorem Envelope.MidRamp.trans {e t u : Envelope} {j k : Nat} (h : e.MidRamp t j)
    (h' : t.MidRamp u k) : e.MidRamp u (j + k) where
  ph := h'.ph.trans h.ph
  tgt := h'.tgt.trans h.tgt
  stp := h'.stp.trans h.stp
  rem := by have := h.rem; have := h'.rem; omega
  rises hp := by
    rw [h'.rises (h.ph.trans hp), h.rises hp, h.stp]
    ring
  falls hp := by
    have hu := h'.falls (h.ph ▸ hp)
    rw [h.stp] at hu
    rw [← h.falls hp, ← hu]
    ring

/-- An envelope in range with samples to come is not DONE (R38). -/
theorem Envelope.inRange.ph_ne_done {e : Envelope} (h : e.inRange) (hr : 0 < e.rem.toNat) :
    e.ph ≠ .done := by
  intro hp
  obtain ⟨-, -, -, hdone⟩ := h
  simp [(hdone hp).2] at hr

theorem Envelope.next_midRamp {e : Envelope} (p : EnvParams) (h : e.inRange)
    (hr : 1 < e.rem.toNat) : e.MidRamp (e.next p) 1 := by
  have hnext := Envelope.next_of_one_lt_rem p (h.ph_ne_done (by omega)) hr
  obtain ⟨hup, hdown⟩ := Envelope.next_exact p h hr
  refine ⟨by rw [hnext], by rw [hnext], by rw [hnext], ?_, ?_, ?_⟩
  · rw [hnext, toNat_sub_one hr]
    omega
  · simpa using hup
  · simpa using hdown

theorem Envelope.samples_inRange {e : Envelope} (p : EnvParams) (h : e.inRange) (j : Nat) :
    (e.samples p j).inRange := by
  induction j with
  | zero => exact h
  | succ j ih => exact Envelope.next_inRange p ih

/-- Until its last sample, a ramp keeps its phase, step and target, and the level is `j` steps from where it began (R111). -/
theorem Envelope.samples_midRamp {e : Envelope} (p : EnvParams) (h : e.inRange) {j : Nat}
    (hj : j < e.rem.toNat) : e.MidRamp (e.samples p j) j := by
  induction j with
  | zero => exact .refl e
  | succ j ih =>
    have hmid := ih (by omega)
    have hrem := hmid.rem
    exact hmid.trans (Envelope.next_midRamp p (Envelope.samples_inRange p h j) (by omega))

/-- The last sample of a ramp is a `next` of an envelope with `rem = 1` (R109). -/
theorem Envelope.samples_rem {e : Envelope} (p : EnvParams) (h : e.inRange)
    (hr : 1 ≤ e.rem.toNat) : ∃ t : Envelope, e.samples p e.rem.toNat = t.next p ∧
      t.ph = e.ph ∧ t.tgt = e.tgt ∧ t.rem.toNat = 1 := by
  obtain ⟨k, hk⟩ := Nat.exists_eq_add_of_le' hr
  have hmid := Envelope.samples_midRamp p h (show k < e.rem.toNat by omega)
  have hrem := hmid.rem
  exact ⟨e.samples p k, by rw [hk]; rfl, hmid.ph, hmid.tgt, by omega⟩

/-- Once `next` changes nothing, no later sample does. -/
theorem Envelope.samples_of_next_eq {e : Envelope} {p : EnvParams} {n j : Nat}
    (h : (e.samples p n).next p = e.samples p n) (hj : n ≤ j) :
    e.samples p j = e.samples p n := by
  induction j, hj using Nat.le_induction with
  | base => rfl
  | succ j _ ih => rw [Envelope.samples, ih, h]

/-! ### What a sample reads and does -/

/-- Settles O20: the samples of a ramp in progress, then the last sample phase by phase. -/
theorem nextAdvancesOneSample : Obligations.NextAdvancesOneSample := by
  refine ⟨fun e p h => ?_, fun s id hshape hv => ?_⟩
  · have hmid (hr : 1 < e.rem.toNat) := Envelope.next_midRamp p h hr
    have hkeep (hr : 1 < e.rem.toNat) : (e.next p).rem.toNat + 1 = e.rem.toNat ∧
        (e.next p).stp = e.stp ∧ (e.next p).tgt = e.tgt :=
      ⟨(hmid hr).rem, (hmid hr).stp, (hmid hr).tgt⟩
    have hfall (hph : e.ph = .decay ∨ e.ph = .release) (hr : 1 < e.rem.toNat) :
        (e.next p).lvl.toNat + e.stp.toNat = e.lvl.toNat := by simpa using (hmid hr).falls hph
    refine ⟨fun hp hr => ?_, fun hp hr => ?_, fun hp hr => ?_,
      fun hp hr => Envelope.next_decay_last p hp hr, fun hp hr => Envelope.next_decay_hold p hp hr,
      fun hp hr => ?_, fun hp hr => Envelope.next_release_last p hp hr, fun hp => ?_⟩
    · exact ⟨(hmid hr).ph.trans hp, by simpa using (hmid hr).rises hp, hkeep hr⟩
    · obtain ⟨hattack, -⟩ := h
      obtain ⟨htgt, -⟩ := hattack hp
      rw [Envelope.next_attack_last p hp hr, htgt]
      refine ⟨rfl, rfl, rfl, Envelope.enter_rem .., ?_⟩
      rw [Envelope.enter_stp, absDiff_comm, absDiff_peak, rampLen]
    · exact ⟨(hmid hr).ph.trans hp, hfall (.inl hp) hr, hkeep hr⟩
    · exact ⟨(hmid hr).ph.trans hp, hfall (.inr hp) hr, hkeep hr⟩
    · obtain ⟨-, -, -, hdone⟩ := h
      rw [Envelope.next_done p hp]
      exact ⟨rfl, (hdone hp).1⟩
  · have hself := State.voice_setEnv_self hshape hv ((s.voice id).env.next (s.param id.ch))
    exact ⟨(congrArg (·.env.lvl) hself).symm, hself⟩

/-- Settles O24: a parameter stands in `next` only where the attack's last sample enters the decay. -/
theorem parametersReadAtEntryOnly : Obligations.ParametersReadAtEntryOnly := by
  refine ⟨fun e p q h => ?_, fun e p q h => ?_, fun e p q hd hs => ?_, fun e p q h => ?_⟩
  · rw [Envelope.attack, h, Envelope.attack]
  · rw [Envelope.release, h, Envelope.release]
  · rw [Envelope.next, hd, hs, Envelope.next]
  · obtain ⟨hp, hr⟩ | hp := h
    · have hdone : e.ph ≠ .done := by simp [hp]
      rw [Envelope.next_of_one_lt_rem p hdone hr, Envelope.next_of_one_lt_rem q hdone hr]
    · cases h : e.ph with
      | attack => exact absurd h hp
      | decay => simp [Envelope.next, h]
      | release => simp [Envelope.next, h]
      | done => simp [Envelope.next, h]

/-! ### Whole ramps (R109 to R111) -/

/-- Settles O21: a ramp in range lasts `rem` samples, and its last is the `next` that leaves it. -/
theorem phaseLengths : Obligations.PhaseLengths := by
  refine ⟨fun e p => ?_, fun e p hpeak => ?_, fun e p => ?_⟩
  · have hin := e.attack_inRange p
    have hrem : (e.attack p).rem.toNat = rampLen p.attack := Envelope.enter_rem ..
    obtain ⟨t, hlast, hph, htgt, hone⟩ :=
      Envelope.samples_rem p hin (hrem ▸ rampLen_pos p.attack)
    rw [hrem, Envelope.next_attack_last p hph hone, htgt] at hlast
    exact ⟨fun j hj => (Envelope.samples_midRamp p hin (hj.trans_eq hrem.symm)).ph,
      congrArg Envelope.ph hlast, congrArg Envelope.lvl hlast⟩
  · have hin := e.decay_inRange p hpeak
    have hrem := e.enter_rem .decay p.sustain p.decay
    obtain ⟨t, hlast, hph, htgt, hone⟩ :=
      Envelope.samples_rem p hin (hrem ▸ rampLen_pos p.decay)
    rw [hrem, Envelope.next_decay_last p hph hone] at hlast
    have hhold := Envelope.next_decay_hold p ((congrArg Envelope.ph hlast).trans hph)
      (congrArg (·.rem.toNat) hlast)
    refine ⟨fun j hj => ?_, fun j hj => ?_⟩
    · have hmid := Envelope.samples_midRamp p hin (hj.trans_eq hrem.symm)
      refine ⟨hmid.ph, fun hzero => hj.ne ?_⟩
      simpa [hzero, hrem, rampLen] using hmid.rem
    · rw [Envelope.samples_of_next_eq hhold hj, hlast]
      exact ⟨hph, rfl, htgt⟩
  · have hin := e.release_inRange p
    have hrem : (e.release p).rem.toNat = rampLen p.release := Envelope.enter_rem ..
    obtain ⟨t, hlast, hph, -, hone⟩ :=
      Envelope.samples_rem p hin (hrem ▸ rampLen_pos p.release)
    rw [hrem, Envelope.next_release_last p hph hone] at hlast
    have hdone := Envelope.next_done p (congrArg Envelope.ph hlast)
    refine ⟨fun j hj => (Envelope.samples_midRamp p hin (hj.trans_eq hrem.symm)).ph,
      fun j hj => ?_⟩
    have hj := (Envelope.samples_of_next_eq hdone hj).trans hlast
    exact ⟨congrArg Envelope.ph hj, congrArg Envelope.lvl hj⟩

/-- The level `j` samples into an attack (R111). -/
theorem Envelope.attack_samples_lvl (e : Envelope) (p : EnvParams) {j : Nat}
    (hj : j < rampLen p.attack) : ((e.attack p).samples p j).lvl.toNat =
      e.lvl.toNat + j * ((0xFFFFFF - e.lvl.toNat) / rampLen p.attack) := by
  have hrem : (e.attack p).rem.toNat = rampLen p.attack := Envelope.enter_rem ..
  have hstp : (e.attack p).stp.toNat = (0xFFFFFF - e.lvl.toNat) / rampLen p.attack := by
    rw [Envelope.attack, Envelope.enter_stp, absDiff_peak]
  rw [← hstp]
  exact (Envelope.samples_midRamp p (e.attack_inRange p) (hj.trans_eq hrem.symm)).rises rfl

/-- The level `j` samples into a decay from PEAK (R111). -/
theorem Envelope.decay_samples_lvl {e : Envelope} (p : EnvParams) (hpeak : e.lvl = PEAK) {j : Nat}
    (hj : j < rampLen p.decay) : ((e.enter .decay p.sustain p.decay).samples p j).lvl.toNat +
      j * ((0xFFFFFF - p.sustain.toNat) / rampLen p.decay) = 0xFFFFFF := by
  have hrem := e.enter_rem .decay p.sustain p.decay
  have hstp := e.enter_stp .decay p.sustain p.decay
  have hlvl :=
    (Envelope.samples_midRamp p (e.decay_inRange p hpeak) (hj.trans_eq hrem.symm)).falls (.inl rfl)
  rw [hpeak, absDiff_comm, absDiff_peak] at hstp
  rw [hstp, Envelope.enter_lvl, hpeak] at hlvl
  exact hlvl

/-- The level `j` samples into a release (R110, R111). -/
theorem Envelope.release_samples_lvl (e : Envelope) (p : EnvParams) {j : Nat}
    (hj : j < rampLen p.release) : ((e.release p).samples p j).lvl.toNat +
      j * (e.lvl.toNat / rampLen p.release) = e.lvl.toNat := by
  have hrem : (e.release p).rem.toNat = rampLen p.release := Envelope.enter_rem ..
  have hstp : (e.release p).stp.toNat = e.lvl.toNat / rampLen p.release := by
    rw [Envelope.release, Envelope.enter_stp]
    simp [absDiff]
  rw [← hstp]
  exact (Envelope.samples_midRamp p (e.release_inRange p) (hj.trans_eq hrem.symm)).falls (.inr rfl)

/-- Before its last sample, a release drops by one step (R110). -/
theorem Envelope.release_drop (e : Envelope) (p : EnvParams) {j : Nat}
    (hj : j + 1 < rampLen p.release) :
    ((e.release p).samples p j).lvl.toNat - ((e.release p).samples p (j + 1)).lvl.toNat =
      e.lvl.toNat / rampLen p.release := by
  have hnow := e.release_samples_lvl p (Nat.lt_of_succ_lt hj)
  have hthen := e.release_samples_lvl p hj
  rw [Nat.add_one_mul] at hthen
  generalize e.lvl.toNat / rampLen p.release = q at *
  omega

/-- What the floor leaves over for the last of `k + 1` steps is at most `k` (R110). -/
theorem last_step_le {l L k : Nat} (h : l + k * (L / (k + 1)) = L) : l ≤ L / (k + 1) + k := by
  have hdiv := Nat.div_add_mod' L (k + 1)
  have hmod : L % (k + 1) < k + 1 := Nat.mod_lt L (Nat.succ_pos k)
  rw [Nat.mul_add_one, Nat.mul_comm] at hdiv
  omega

/-- At the last sample of a release no more is left than one step and the floor's remainder (R110). -/
theorem Envelope.release_lvl_before_last_le (e : Envelope) (p : EnvParams) {j : Nat}
    (hj : j + 1 = rampLen p.release) : ((e.release p).samples p j).lvl.toNat ≤
      e.lvl.toNat / rampLen p.release + (rampLen p.release - 1) := by
  have hlvl := e.release_samples_lvl p (show j < rampLen p.release by omega)
  rw [← hj] at hlvl ⊢
  exact last_step_le hlvl

/-- Settles O22: the levels are `MidRamp`'s, and a release's last step is what the others leave. -/
theorem rampLevels : Obligations.RampLevels :=
  ⟨fun e p _ hj => e.attack_samples_lvl p hj,
    fun _ p _ hpeak hj => Envelope.decay_samples_lvl p hpeak hj,
    fun e p _ => ⟨fun hj => e.release_samples_lvl p hj, fun hj => e.release_drop p hj,
      fun hj => (Nat.sub_le _ _).trans (e.release_lvl_before_last_le p hj)⟩⟩

end Sys2Proof.Machine

/-! The note commands: NOTEON along the paths of `activate`, NOTEOFF and VOICEOFF with the whole next state, fresh notes into an empty registry, and who changes `numActive` (spec/41_voice_alloc.md R130 to R151; spec/42_registry_render.md R174). -/

namespace Sys2Proof.Machine

/-! ### A voice struck: `bump`, then `noteon` (R130, R146) -/

/-- What NOTEON does to the voice that `activate` found, whatever the path: its number is bumped and the note begins. -/
def State.strike (s : State) (id : VoiceId) (n vel : Midi7) : State :=
  (s.bump id).noteonVoice id n vel

theorem State.voice_strike_self {s : State} (h : s.Shape) {id : VoiceId} (hv : s.isVoice id)
    (n vel : Midi7) : (s.strike id n vel).voice id =
      { note := n, vel := vel, idx := (s.voice id).idx, seq := s.seqCtr + 1#64,
        env := (s.voice id).env.attack (s.param id.ch) } := by
  rw [State.strike, State.voice_noteonVoice_self (h.bump id) hv, State.voice_bump_self h hv,
    State.param_bump]

theorem State.voice_strike_ne (s : State) {id other : VoiceId} (h : other ≠ id) (n vel : Midi7) :
    (s.strike id n vel).voice other = s.voice other := by
  rw [State.strike, State.voice_noteonVoice_ne _ h, State.voice_bump_ne s h]

theorem State.Shape.strike {s : State} (h : s.Shape) (id : VoiceId) (n vel : Midi7) :
    (s.strike id n vel).Shape := (h.bump id).noteonVoice id n vel

theorem State.VoicesOnly.strike (s : State) (id : VoiceId) (n vel : Midi7) :
    s.VoicesOnly (s.strike id n vel) :=
  (State.VoicesOnly.bump s id).trans (.noteonVoice _ id n vel)

/-! ### The paths of `activate` (R141) -/

theorem State.activate_retrig {s : State} {ch : Chan} {n : Midi7} {v : Nat}
    (hb : s.boundVoice ch n = some v) : s.activate ch n = (s.bump ⟨ch, v⟩, some (.retrig, v)) := by
  simp [State.activate, hb]

theorem State.activate_free {s : State} {ch : Chan} {n : Midi7} {v : Nat}
    (hb : s.boundVoice ch n = none) (hn : s.numActive < s.cfg.C) (hf : s.freeVoice ch = some v) :
    s.activate ch n = ((s.takeSlot ⟨ch, v⟩).bump ⟨ch, v⟩, some (.free, v)) := by
  simp [State.activate, hb, hn, hf]

theorem State.activate_steal {s : State} {ch : Chan} {n : Midi7} {v : Nat}
    (hb : s.boundVoice ch n = none) (hn : s.numActive < s.cfg.C) (hf : s.freeVoice ch = none)
    (ho : s.oldestVoice ch = some v) : s.activate ch n = (s.bump ⟨ch, v⟩, some (.steal, v)) := by
  simp [State.activate, hb, hn, hf, ho]

theorem State.activate_drop {s : State} {ch : Chan} {n : Midi7}
    (hb : s.boundVoice ch n = none) (hn : s.cfg.C ≤ s.numActive) :
    s.activate ch n = (s, none) := by
  simp [State.activate, hb, Nat.not_lt.2 hn]

/-! ### The commands in terms of what they do -/

theorem exec_noteon {vel : Midi7} (hvel : vel ≠ 0#7) (ch : Chan) (n : Midi7) (s : State) :
    exec (.noteon ch n vel) s = .next (s.noteOn ch n vel) := by
  simp [exec, execNoteon, hvel]

theorem exec_noteon_zero (ch : Chan) (n : Midi7) (s : State) :
    exec (.noteon ch n 0#7) s = .next (s.noteOff ch n) := by
  simp [exec, execNoteon]

/-- NOTEON when `activate` finds a voice: `t` is `s`, or `s` with a slot taken (R148). -/
theorem exec_noteon_of_activate {s t : State} {ch : Chan} {n vel : Midi7} {path : Path} {v : Nat}
    (hvel : vel ≠ 0#7) (hsh : t.Shape) (hv : v < t.cfg.P)
    (h : s.activate ch n = (t.bump ⟨ch, v⟩, some (path, v))) :
    exec (.noteon ch n vel) s = .next ((t.strike ⟨ch, v⟩ n vel).respond .ok
      (noteonData path (t.voice ⟨ch, v⟩).idx v)) := by
  have hidx := congrArg Voice.idx (State.voice_strike_self (id := ⟨ch, v⟩) hsh hv n vel)
  rw [exec_noteon hvel, State.noteOn, h, ← hidx]
  rfl

theorem exec_noteon_drop {s : State} {ch : Chan} {n vel : Midi7} (hvel : vel ≠ 0#7)
    (h : s.activate ch n = (s, none)) :
    exec (.noteon ch n vel) s = .next (s.respond .dropped 0#32) := by
  rw [exec_noteon hvel, State.noteOn, h]

theorem exec_noteoff_bound {s : State} {ch : Chan} {n : Midi7} {v : Nat} (hsh : s.Shape)
    (hb : s.boundVoice ch n = some v) :
    exec (.noteoff ch n) s =
      .next ((s.release ⟨ch, v⟩).respond .ok (releasedData (s.voice ⟨ch, v⟩).idx v)) := by
  obtain ⟨hv, -⟩ := State.boundVoice_eq_some.1 hb
  have hidx := congrArg Voice.idx (State.voice_release_self (id := ⟨ch, v⟩) hsh hv)
  simp only [exec, execNoteoff, State.noteOff, hb, State.noteoffVoice, hidx]

theorem exec_noteoff_unbound {s : State} {ch : Chan} {n : Midi7}
    (hb : s.boundVoice ch n = none) :
    exec (.noteoff ch n) s = .next (s.respond .nomatch 0#32) := by
  simp only [exec, execNoteoff, State.noteOff, hb]

theorem exec_voiceoff_badarg {s : State} {ch : Chan} {rv : BitVec 8} (h : s.cfg.P ≤ rv.toNat) :
    exec (.voiceoff ch rv) s = .next (s.respond .badarg 0#32) := by
  simp [exec, execVoiceoff, h]

theorem exec_voiceoff_inactive {s : State} {ch : Chan} {rv : BitVec 8} (hv : rv.toNat < s.cfg.P)
    (ha : s.active ⟨ch, rv.toNat⟩ = false) :
    exec (.voiceoff ch rv) s = .next (s.respond .nomatch 0#32) := by
  simp [exec, execVoiceoff, hv, ha]

theorem exec_voiceoff_active {s : State} {ch : Chan} {rv : BitVec 8} (hsh : s.Shape)
    (hv : rv.toNat < s.cfg.P) (ha : s.active ⟨ch, rv.toNat⟩ = true) :
    exec (.voiceoff ch rv) s = .next ((s.release ⟨ch, rv.toNat⟩).respond .ok
      (releasedData (s.voice ⟨ch, rv.toNat⟩).idx rv.toNat)) := by
  have hidx := congrArg Voice.idx (State.voice_release_self (id := ⟨ch, rv.toNat⟩) hsh hv)
  simp only [exec, execVoiceoff, Nat.not_le.2 hv, ha, if_true, if_false, State.noteoffVoice, hidx]

/-! ### The whole next state -/

/-- A command that only answers changes nothing else. -/
theorem exists_unchanged {i : Instr} {s : State} {c : RespCode} {d : Word}
    (h : exec i s = .next (s.respond c d)) :
    ∃ t, exec i s = .next t ∧ s.SameEngine t ∧ s.NoOutput t ∧ t.resp = some ⟨c, d⟩ :=
  ⟨_, h, ⟨rfl, rfl, rfl, rfl, rfl, rfl, rfl, rfl⟩, ⟨rfl, rfl, rfl⟩, rfl⟩

/-- A command that strikes a voice in its slot changes nothing but that voice and the counter. -/
theorem exists_struck {i : Instr} {s : State} {id : VoiceId} {n vel : Midi7} {d : Word}
    (hsh : s.Shape) (hv : s.isVoice id)
    (h : exec i s = .next ((s.strike id n vel).respond .ok d)) :
    ∃ t, exec i s = .next t ∧
      t.voice id = { note := n, vel := vel, idx := (s.voice id).idx, seq := s.seqCtr + 1#64,
                     env := (s.voice id).env.attack (s.param id.ch) } ∧
      (∀ other, other ≠ id → t.voice other = s.voice other) ∧
      t.seqCtr = s.seqCtr + 1#64 ∧ t.slots = s.slots ∧ t.numActive = s.numActive ∧
      s.VoicesOnly t ∧ t.resp = some ⟨.ok, d⟩ :=
  ⟨_, h, State.voice_strike_self hsh hv n vel, fun _ hne => s.voice_strike_ne hne n vel,
    rfl, rfl, rfl, (State.VoicesOnly.strike s id n vel).trans (.respond _ _ _), rfl⟩

/-- A command that releases a voice changes nothing but that voice's envelope (R131). -/
theorem exists_released {i : Instr} {s : State} {id : VoiceId} {d : Word}
    (hsh : s.Shape) (hv : s.isVoice id)
    (h : exec i s = .next ((s.release id).respond .ok d)) :
    ∃ t, exec i s = .next t ∧
      t.voice id = { s.voice id with env := (s.voice id).env.release (s.param id.ch) } ∧
      (∀ other, other ≠ id → t.voice other = s.voice other) ∧
      t.seqCtr = s.seqCtr ∧ t.slots = s.slots ∧ t.numActive = s.numActive ∧
      s.VoicesOnly t ∧ t.resp = some ⟨.ok, d⟩ :=
  ⟨_, h, State.voice_release_self hsh hv, fun _ hne => s.voice_release_ne hne,
    rfl, rfl, rfl, (State.VoicesOnly.release s id).trans (.respond _ _ _), rfl⟩

/-! ### NOTEON (R142 to R148) -/

/-- Settles O25: the RETRIG path strikes the bound voice, before any test of the capacity. -/
theorem noteonRetriggersBoundNote : Obligations.NoteonRetriggersBoundNote := by
  intro s ch n vel v hsh hvel hv hbound hleast
  have hb := State.boundVoice_eq_some.2 ⟨hv, hbound, hleast⟩
  exact exists_struck hsh hv (exec_noteon_of_activate hvel hsh hv (State.activate_retrig hb))

/-- Settles O26: the FREE path gives the voice its slot, then strikes it. -/
theorem noteonTakesFreeVoice : Obligations.NoteonTakesFreeVoice := by
  intro s ch n vel v hsh hvel hv hunbound hn hinactive hleast
  have hb := State.boundVoice_eq_none.2 hunbound
  have hf := State.freeVoice_eq_some.2 ⟨hv, hinactive, hleast⟩
  have hsh' := hsh.takeSlot ⟨ch, v⟩
  have hself := State.voice_takeSlot_self (id := ⟨ch, v⟩) hsh hv
  have hexec := exec_noteon_of_activate hvel hsh' hv (State.activate_free hb hn hf)
  rw [hself] at hexec
  refine ⟨_, hexec, ?_, fun id hne => ?_, State.slot_takeSlot_self hsh hn _,
    fun k hk => s.slot_takeSlot_ne hk _, rfl, rfl, ?_, rfl⟩
  · rw [State.voice_respond, State.voice_strike_self hsh' hv, hself]
    rfl
  · rw [State.voice_respond, State.voice_strike_ne _ hne, State.voice_takeSlot_ne s hne]
  · exact ((State.VoicesOnly.takeSlot s _).trans (.strike _ _ n vel)).trans (.respond _ _ _)

/-- Once an active voice is rebound to another note, no voice of its channel has the note it had (R37, R144). -/
theorem State.BindingInv.boundVoice_rebound {s t : State} {ch : Chan} {v : Nat}
    (h : s.BindingInv) (hcfg : t.cfg = s.cfg) (hv : v < s.cfg.P)
    (hactive : s.active ⟨ch, v⟩ = true) (hnote : (t.voice ⟨ch, v⟩).note ≠ (s.voice ⟨ch, v⟩).note)
    (hother : ∀ id, id ≠ ⟨ch, v⟩ → t.voice id = s.voice id) :
    t.boundVoice ch (s.voice ⟨ch, v⟩).note = none := by
  refine State.boundVoice_eq_none.2 fun u hu => ?_
  by_contra hbound
  obtain ⟨hau, hnu⟩ : t.active ⟨ch, u⟩ = true ∧
      (t.voice ⟨ch, u⟩).note = (s.voice ⟨ch, v⟩).note := by
    simpa [State.bound] using hbound
  by_cases huv : u = v
  · subst huv
    exact hnote hnu
  · have hsame := hother ⟨ch, u⟩ fun heq => huv (congrArg VoiceId.rv heq)
    rw [hsame] at hnu
    rw [State.active, hsame] at hau
    exact huv (h ch u (hcfg ▸ hu) v hv hau hactive hnu)

/-- Settles O27: the STEAL path strikes the oldest voice; by R37 no other voice has its old note. -/
theorem noteonStealsOldestVoice : Obligations.NoteonStealsOldestVoice := by
  intro s ch n vel v hinv hvel hv hunbound hn hactive hmin hleast
  have hsh := hinv.shape
  have hb := State.boundVoice_eq_none.2 hunbound
  have hf := State.freeVoice_eq_none.2 hactive
  have ho := State.oldestVoice_eq_some.2 ⟨hv, hmin, hleast⟩
  obtain ⟨t, ht, hself, hother, hctr, hslots, hnum, hkept, hresp⟩ := exists_struck hsh hv
    (exec_noteon_of_activate hvel hsh hv (State.activate_steal hb hn hf ho))
  have hnote : (t.voice ⟨ch, v⟩).note ≠ (s.voice ⟨ch, v⟩).note := by
    rw [hself]
    intro hold
    simpa [State.bound, hactive v hv, ← hold] using hunbound v hv
  have hgone := hinv.binding.boundVoice_rebound hkept.cfg hv (hactive v hv) hnote hother
  obtain ⟨u, hu, hsame, -, hnomatch⟩ := exists_unchanged (exec_noteoff_unbound hgone)
  exact ⟨t, ht, hself, hother, hctr, hslots, hnum, hkept, hresp, u, hu, hsame, hnomatch⟩

/-- Settles O28: a note that is not bound finds no voice when no slot is left. -/
theorem noteonDropsAtCapacity : Obligations.NoteonDropsAtCapacity := by
  intro s ch n vel hvel hn hunbound
  have hb := State.boundVoice_eq_none.2 hunbound
  exact exists_unchanged (exec_noteon_drop hvel (State.activate_drop hb hn.ge))

/-- Settles O29: both run the same NOTEOFF. -/
theorem noteonVelocityZeroIsNoteoff : Obligations.NoteonVelocityZeroIsNoteoff :=
  fun s ch n => ⟨s.noteOff ch n, exec_noteon_zero ch n s, rfl⟩

/-! ### NOTEOFF and VOICEOFF (R149, R150) -/

/-- Settles O30: the least bound voice is released, or there is none. -/
theorem noteoffReleasesBoundVoice : Obligations.NoteoffReleasesBoundVoice := by
  refine ⟨fun s ch n v hsh hv hbound hleast => ?_, fun s ch n hunbound => ?_⟩
  · have hb := State.boundVoice_eq_some.2 ⟨hv, hbound, hleast⟩
    exact exists_released hsh hv (exec_noteoff_bound hsh hb)
  · exact exists_unchanged (exec_noteoff_unbound (State.boundVoice_eq_none.2 hunbound))

/-- Settles O31: the roster index is out of range, or names an inactive voice, or an active one. -/
theorem voiceoffReleasesNamedVoice : Obligations.VoiceoffReleasesNamedVoice := by
  intro s ch rv hsh
  exact ⟨fun hP => exists_unchanged (exec_voiceoff_badarg hP),
    fun hv ha => exists_unchanged (exec_voiceoff_inactive hv ha),
    fun hv ha => exists_released hsh hv (exec_voiceoff_active hsh hv ha)⟩

/-! ### Fresh notes into an empty registry (R151) -/

theorem State.Shape.noteOn {s : State} (h : s.Shape) (ch : Chan) (n vel : Midi7) :
    (s.noteOn ch n vel).Shape := by
  obtain ⟨v, -, d, hon⟩ | ⟨v, -, -, -, d, hon⟩ | ⟨v, -, -, -, -, d, hon⟩ | ⟨-, -, hon⟩ :=
    s.noteOn_cases ch n vel h.one_le_P <;> rw [hon]
  · exact (h.strike _ n vel).respond _ _
  · exact ((h.takeSlot _).strike _ n vel).respond _ _
  · exact (h.strike _ n vel).respond _ _
  · exact h.respond _ _

/-- The registry holds the notes `done` of channel `ch`, in trigger order from slot 0 and voice 0, and nothing else; the channel's other voices are free. -/
structure State.Holds (s : State) (ch : Chan) (vel : Midi7) (done : List Midi7) : Prop where
  shape : s.Shape
  numActive : s.numActive = done.length
  held : ∀ k < done.length, s.slot k = some ⟨ch, k⟩ ∧ (s.voice ⟨ch, k⟩).idx = some k ∧
    some (s.voice ⟨ch, k⟩).note = done[k]? ∧ (s.voice ⟨ch, k⟩).vel = vel
  empty : ∀ k, done.length ≤ k → s.slot k = none
  free : ∀ v < s.cfg.P, done.length ≤ v → s.active ⟨ch, v⟩ = false

/-- With no slot in use no voice is active (R36). -/
theorem State.Compact.holds_nil {s : State} (h : s.Compact) (h0 : s.numActive = 0) (ch : Chan)
    (vel : Midi7) : s.Holds ch vel [] where
  shape := h.shape
  numActive := h0
  held k hk := absurd hk (Nat.not_lt_zero k)
  empty k _ := h.slot_inactive (h0 ▸ Nat.zero_le k)
  free v hv _ := by
    by_contra hactive
    obtain ⟨k, hk⟩ := Option.ne_none_iff_exists'.1 (by simpa [State.active] using hactive)
    have hlt := h.slot_lt ((h.idx_iff hv).1 hk)
    omega

theorem State.Holds.bound_eq_false {s : State} {ch : Chan} {vel n : Midi7} {done : List Midi7}
    (h : s.Holds ch vel done) (hn : n ∉ done) {v : Nat} (hv : v < s.cfg.P) :
    s.bound ⟨ch, v⟩ n = false := by
  by_cases hlt : v < done.length
  · obtain ⟨-, -, hnote, -⟩ := h.held v hlt
    have hne : (s.voice ⟨ch, v⟩).note ≠ n := fun heq =>
      hn (List.mem_of_getElem? (hnote.symm.trans (congrArg some heq)))
    simp [State.bound, hne]
  · simp [State.bound, h.free v hv (Nat.le_of_not_lt hlt)]

/-- A fresh note takes the next voice and the next slot (R143). -/
theorem State.Holds.noteon {s : State} {ch : Chan} {vel n : Midi7} {done : List Midi7}
    (h : s.Holds ch vel done) (hvel : vel ≠ 0#7) (hn : n ∉ done) (hP : done.length < s.cfg.P)
    (hC : s.cfg.P ≤ s.cfg.C) : ∃ t, exec (.noteon ch n vel) s = .next t ∧ t.cfg = s.cfg ∧
      t.Holds ch vel (done ++ [n]) := by
  have hactive : ∀ u < done.length, s.active ⟨ch, u⟩ = true := fun u hu => by
    obtain ⟨-, hidx, -⟩ := h.held u hu
    simp [State.active, hidx]
  obtain ⟨t, ht, hself, hother, hslot, hslots, hnum, -, hkept, -⟩ :=
    noteonTakesFreeVoice s ch n vel done.length h.shape hvel hP (fun u hu => h.bound_eq_false hn hu)
      (by rw [h.numActive]; omega) (h.free _ hP (le_refl _)) hactive
  rw [h.numActive] at hself hslot hslots hnum
  have hne : ∀ {v}, v ≠ done.length → (⟨ch, v⟩ : VoiceId) ≠ ⟨ch, done.length⟩ :=
    fun hv heq => hv (congrArg VoiceId.rv heq)
  refine ⟨t, ht, hkept.cfg, ?_, by simpa using hnum, fun k hk => ?_, fun k hk => ?_,
    fun v hv hk => ?_⟩
  · exact next_inj ((exec_noteon hvel ch n s).symm.trans ht) ▸ h.shape.noteOn ch n vel
  · obtain hlt | rfl : k < done.length ∨ k = done.length := by simp at hk; omega
    · rw [hslots k hlt.ne, hother _ (hne hlt.ne), List.getElem?_append_left hlt]
      exact h.held k hlt
    · rw [hself]
      exact ⟨hslot, rfl, by simp, rfl⟩
  · have hlt : done.length < k := by simpa using hk
    rw [hslots k hlt.ne']
    exact h.empty k hlt.le
  · have hlt : done.length < v := by simpa using hk
    rw [State.active, hother _ (hne hlt.ne')]
    exact h.free v (hkept.cfg ▸ hv) hlt.le

theorem State.Holds.execAll_noteon {s : State} {ch : Chan} {vel : Midi7} {done notes : List Midi7}
    (h : s.Holds ch vel done) (hvel : vel ≠ 0#7) (hC : s.cfg.P ≤ s.cfg.C)
    (hnodup : (done ++ notes).Nodup) (hlen : (done ++ notes).length ≤ s.cfg.P) :
    ∃ t, execAll (notes.map fun n => .noteon ch n vel) s = .next t ∧
      t.Holds ch vel (done ++ notes) := by
  induction notes generalizing s done with
  | nil => exact ⟨s, rfl, by rwa [List.append_nil]⟩
  | cons n ns ih =>
    have hn : n ∉ done := fun hmem =>
      (List.nodup_append.1 hnodup).2.2 n hmem n List.mem_cons_self rfl
    have hP : done.length < s.cfg.P := by simp at hlen; omega
    obtain ⟨t, ht, hcfg, hholds⟩ := h.noteon hvel hn hP hC
    rw [List.append_cons] at hnodup hlen ⊢
    simp only [List.map_cons, execAll, ht]
    exact ih hholds (hcfg ▸ hC) hnodup (hcfg ▸ hlen)

/-- Settles O32, by induction on the notes: each finds its voice and its slot free. -/
theorem freshNotesFillTheRegistry : Obligations.FreshNotesFillTheRegistry := by
  intro s ch vel notes hinv h0 hC hvel hnodup hlen
  obtain ⟨t, ht, hholds⟩ :=
    (hinv.compact.holds_nil h0 ch vel).execAll_noteon hvel hC hnodup hlen
  exact ⟨t, ht, hholds.numActive, hholds.held, fun k _ => hholds.empty k⟩

/-! ### Who changes `numActive` (R151, R174) -/

theorem State.noteOff_numActive (s : State) (ch : Chan) (n : Midi7) :
    (s.noteOff ch n).numActive = s.numActive := by
  obtain ⟨v, -, d, hoff⟩ | ⟨-, hoff⟩ := s.noteOff_cases ch n <;> rw [hoff] <;> rfl

theorem execVoiceoff_numActive {ch : Chan} {rv : BitVec 8} {s t : State}
    (h : execVoiceoff ch rv s = .next t) : t.numActive = s.numActive := by
  obtain rfl := next_inj h
  dsimp only
  split
  · rfl
  · split <;> rfl

theorem execRegread_numActive {addr : BitVec 16} {s t : State}
    (h : execRegread addr s = .next t) : t.numActive = s.numActive := by
  obtain rfl := next_inj h
  split <;> rfl

theorem execCleanup_numActive_le {s t : State} (h : execCleanup s = .next t) :
    t.numActive ≤ s.numActive :=
  next_inj h ▸ (State.IdxFrame.cleanupPass s).numActive

/-- RENDER's frames keep what its cleanup pass left. -/
theorem execRender_numActive_le {s t : State} (h : execRender s = .next t) :
    t.numActive ≤ s.numActive := by
  obtain rfl := next_inj h
  have hframes := State.EnvFrame.frames s.cleanupPass.1 (List.range s.cleanupPass.1.cfg.F)
  exact hframes.numActive.trans_le (State.IdxFrame.cleanupPass s).numActive

/-- NOTEON keeps `numActive`, or takes a new slot for a voice that was inactive. -/
theorem execNoteon_numActive {ch : Chan} {n vel : Midi7} {s t : State} (hsh : s.Shape)
    (h : exec (.noteon ch n vel) s = .next t) :
    t.numActive = s.numActive ∨ t.numActive = s.numActive + 1 ∧ vel ≠ 0#7 ∧ ∃ v < s.cfg.P,
      s.active ⟨ch, v⟩ = false ∧ t.slot s.numActive = some ⟨ch, v⟩ := by
  by_cases hvel : vel = 0#7
  · subst hvel
    rw [exec_noteon_zero] at h
    exact .inl (next_inj h ▸ s.noteOff_numActive ch n)
  · rw [exec_noteon hvel] at h
    obtain rfl := next_inj h
    obtain ⟨v, -, d, hon⟩ | ⟨v, -, hn, hf, d, hon⟩ | ⟨v, -, -, -, -, d, hon⟩ | ⟨-, -, hon⟩ :=
      s.noteOn_cases ch n vel hsh.one_le_P <;> rw [hon]
    · exact .inl rfl
    · obtain ⟨hv, hinactive, -⟩ := State.freeVoice_eq_some.1 hf
      exact .inr ⟨rfl, hvel, v, hv, hinactive, State.slot_takeSlot_self hsh hn _⟩
    · exact .inl rfl
    · exact .inl rfl

/-- Everything a command can do to `numActive`: keep it, lower it by a cleanup pass, or raise it by a NOTEON on the FREE path. -/
theorem exec_numActive_cases {i : Instr} {s t : State} (hsh : s.Shape) (h : exec i s = .next t) :
    t.numActive = s.numActive ∨
    t.numActive ≤ s.numActive ∧ (i = .cleanup ∨ i = .render) ∨
    t.numActive = s.numActive + 1 ∧ ∃ ch n vel v, i = .noteon ch n vel ∧ vel ≠ 0#7 ∧
      v < s.cfg.P ∧ s.active ⟨ch, v⟩ = false ∧ t.slot s.numActive = some ⟨ch, v⟩ := by
  cases i with
  | noteon ch n vel =>
    obtain hsame | ⟨hone, hvel, v, hnew⟩ := execNoteon_numActive hsh h
    · exact .inl hsame
    · exact .inr (.inr ⟨hone, ch, n, vel, v, rfl, hvel, hnew⟩)
  | cleanup => exact .inr (.inl ⟨execCleanup_numActive_le h, .inl rfl⟩)
  | render => exact .inr (.inl ⟨execRender_numActive_le h, .inr rfl⟩)
  | nop => exact .inl (next_inj h ▸ rfl)
  | noteoff ch n => exact .inl (next_inj h ▸ s.noteOff_numActive ch n)
  | voiceoff ch rv => exact .inl (execVoiceoff_numActive h)
  | releaseall =>
    exact .inl (next_inj h ▸ (releaseLoop_frame (s, 0) (List.range s.numActive)).1.numActive)
  | advance => exact .inl (next_inj h ▸ (State.EnvFrame.frame s 0).numActive)
  | seta ch val => exact .inl (next_inj h ▸ rfl)
  | setd ch val => exact .inl (next_inj h ▸ rfl)
  | sets ch val => exact .inl (next_inj h ▸ rfl)
  | setr ch val => exact .inl (next_inj h ▸ rfl)
  | regread addr => exact .inl (execRegread_numActive h)

/-- Settles O33: a command that lowers `numActive` is a cleanup pass, one that raises it takes a slot. -/
theorem whoChangesNumActive : Obligations.WhoChangesNumActive := by
  intro i s t hsh h
  obtain hsame | ⟨hle, hi⟩ | ⟨hone, hnew⟩ := exec_numActive_cases hsh h
  · exact ⟨fun hlt => absurd hsame hlt.ne, fun hlt => absurd hsame hlt.ne'⟩
  · exact ⟨fun _ => hi, fun hlt => absurd hle (Nat.not_le.2 hlt)⟩
  · exact ⟨fun hlt => by omega, fun _ => ⟨hone, hnew⟩⟩

end Sys2Proof.Machine

/-! The registry commands: CLEANUP in closed form, the loops of ADVANCE and RELEASEALL turn by turn, a block of RENDER frame by frame, and what a failed check does to each (spec/42_registry_render.md R160 to R173; spec/60_exceptions.md R202). -/

namespace Sys2Proof.Machine

/-! ### The commands in terms of their passes -/

theorem exec_cleanup (s : State) : exec .cleanup s = .next (s.cleanupPass.1.respond .ok
    (removedData s.cleanupPass.2 s.cleanupPass.1.numActive)) := rfl

theorem exec_advance (s : State) :
    exec .advance s = .next ((s.frame 0).respond .ok (countData (s.frame 0).numActive)) := rfl

theorem exec_releaseall (s : State) : exec .releaseall s =
    .next (s.releaseAllPass.1.respond .ok (countData s.releaseAllPass.2)) := rfl

/-- The state after the frames of RENDER's block, before the response (R172). -/
def State.blockEnd (s : State) : State :=
  (List.range s.cleanupPass.1.cfg.F).foldl State.frame s.cleanupPass.1

theorem exec_render (s : State) : exec .render s = .next
    { s.blockEnd.respond .ok (removedData s.cleanupPass.2 s.blockEnd.numActive) with
      sequencer := Sequencer.inBlock 0#16 s.blockEnd.outQ s.blockEnd.numActive } := rfl

/-! ### One turn of the cleanup loop (R160) -/

theorem cleanupLoop_of_le {s : State} {i : Nat} (h : s.numActive ≤ i) (fuel r : Nat) :
    cleanupLoop fuel i r s = (s, r) := by
  cases fuel with
  | zero => rfl
  | succ fuel => simp only [cleanupLoop, Nat.not_lt.2 h, if_false]

theorem cleanupLoop_of_unchecked {s : State} {i : Nat} (hi : i < s.numActive)
    (hcheck : s.checkedSlot i = none) (fuel r : Nat) :
    cleanupLoop (fuel + 1) i r s = cleanupLoop fuel (i + 1) r s.raiseInvariantError := by
  simp only [cleanupLoop, hi, if_true, hcheck]

theorem cleanupLoop_of_done {s : State} {i : Nat} {id : VoiceId} (hi : i < s.numActive)
    (hcheck : s.checkedSlot i = some id) (hdone : s.isDone id = true) (fuel r : Nat) :
    cleanupLoop (fuel + 1) i r s = cleanupLoop fuel i (r + 1) (s.removeAt i id) := by
  simp only [cleanupLoop, hi, if_true, hcheck, hdone]

theorem cleanupLoop_of_not_done {s : State} {i : Nat} {id : VoiceId} (hi : i < s.numActive)
    (hcheck : s.checkedSlot i = some id) (hdone : s.isDone id = false) (fuel r : Nat) :
    cleanupLoop (fuel + 1) i r s = cleanupLoop fuel (i + 1) r s := by
  simp only [cleanupLoop, hi, if_true, hcheck, hdone, Bool.false_eq_true, if_false]

/-! ### CLEANUP (R160, R161, R170) -/

/-- The list `L′` of R161: the active ids whose voices are not DONE, in slot order. -/
def State.keptIds (s : State) : List VoiceId := s.activeIds.filter fun id => !s.isDone id

/-- From the end of the active positions on there is nothing to filter. -/
theorem State.Compact.take_append_filter_drop {s : State} (h : s.Compact) {i : Nat}
    (hi : s.numActive ≤ i) (p : VoiceId → Bool) :
    s.activeIds.take i ++ (s.activeIds.drop i).filter p = s.activeIds := by
  have hlen : s.activeIds.length ≤ i := h.length_activeIds.trans_le hi
  rw [List.take_of_length_le hlen, List.drop_of_length_le hlen, List.filter_nil, List.append_nil]

/-- The loop leaves the positions below `i` alone and filters those from `i` on; the voices gone are counted. -/
theorem State.Compact.cleanupLoop_spec {s : State} (h : s.Compact) {fuel i : Nat}
    (hfuel : s.numActive ≤ i + fuel) (r : Nat) :
    (cleanupLoop fuel i r s).1.activeIds =
      s.activeIds.take i ++ (s.activeIds.drop i).filter (fun id => !s.isDone id) ∧
    (cleanupLoop fuel i r s).2 + (cleanupLoop fuel i r s).1.numActive = r + s.numActive := by
  induction fuel generalizing i r s with
  | zero =>
    have hi : s.numActive ≤ i := hfuel
    rw [cleanupLoop_of_le hi]
    exact ⟨(h.take_append_filter_drop hi _).symm, rfl⟩
  | succ fuel ih =>
    by_cases hi : i < s.numActive
    · obtain ⟨id, hcheck, hslot, -, -⟩ := h.checkedSlot hi
      have hget : s.activeIds[i]? = some id := (h.getElem?_activeIds i).trans hslot
      obtain ⟨hlt, hget'⟩ := List.getElem?_eq_some_iff.1 hget
      have hdrop : s.activeIds.drop i = id :: s.activeIds.drop (i + 1) := by
        rw [List.drop_eq_getElem_cons hlt, hget']
      cases hdone : s.isDone id with
      | true =>
        obtain ⟨hcount, -, -⟩ := h.removeAt_spec hslot
        have hkept : (fun x => !(s.removeAt i id).isDone x) = fun x => !s.isDone x :=
          funext fun x => by rw [(State.IdxFrame.removeAt s i id).isDone x]
        obtain ⟨hids, hnum⟩ := ih (h.removeAt hslot) (i := i) (by omega) (r + 1)
        rw [cleanupLoop_of_done hi hcheck hdone]
        refine ⟨?_, by omega⟩
        have htake : (s.activeIds.take i).length = i := List.length_take_of_le hlt.le
        rw [hids, hkept, h.activeIds_removeAt hslot, List.eraseIdx_eq_take_drop_succ,
          List.take_left' htake, List.drop_left' htake, hdrop,
          List.filter_cons_of_neg (by simp [hdone])]
      | false =>
        obtain ⟨hids, hnum⟩ := ih h (i := i + 1) (by omega) r
        rw [cleanupLoop_of_not_done hi hcheck hdone]
        refine ⟨?_, hnum⟩
        rw [hids, hdrop, List.filter_cons_of_pos (by simp [hdone]), List.take_add_one, hget]
        simp
    · have hi := Nat.le_of_not_lt hi
      rw [cleanupLoop_of_le hi]
      exact ⟨(h.take_append_filter_drop hi _).symm, rfl⟩

theorem State.Compact.cleanupPass_spec {s : State} (h : s.Compact) :
    s.cleanupPass.1.activeIds = s.keptIds ∧
      s.cleanupPass.2 + s.cleanupPass.1.numActive = s.numActive := by
  obtain ⟨hids, hnum⟩ := h.cleanupLoop_spec (fuel := 2 * s.numActive) (i := 0) (by omega) 0
  exact ⟨hids, hnum.trans (Nat.zero_add _)⟩

/-- Under R35 and R36 a cleanup pass keeps them, and raises no error. -/
theorem State.Compact.cleanupPass_compact {s : State} (h : s.Compact) :
    s.cleanupPass.1.Compact ∧ s.cleanupPass.1.err = s.err :=
  h.cleanupLoop_keeps (p := fun t => t.err = s.err) rfl
    (fun t i id _ _ _ ht => (State.removeAt_err t i id).trans ht) _ _ _

/-- A voice of a compact registry that is in no slot is inactive (R36). -/
theorem State.Compact.idx_eq_none {s : State} (h : s.Compact) {id : VoiceId} (hv : s.isVoice id)
    (hid : id ∉ s.activeIds) : (s.voice id).idx = none := by
  rw [Option.eq_none_iff_forall_ne_some]
  exact fun k hk => hid (h.mem_activeIds.2 ⟨k, (h.idx_iff hv).1 hk⟩)

/-- Settles O34: the pass leaves a compact registry whose active ids are the kept ones, and that fixes every slot and index. -/
theorem cleanupCompactsTheRegistry : Obligations.CleanupCompactsTheRegistry := by
  intro s hinv kept
  have hframe := State.IdxFrame.cleanupPass s
  obtain ⟨hids, hcount⟩ := hinv.compact.cleanupPass_spec
  obtain ⟨hcomp, herr⟩ := hinv.compact.cleanupPass_compact
  set t := s.cleanupPass.1
  have hkept : t.activeIds = kept := hids
  have hnum : t.numActive = kept.length := hkept ▸ hcomp.length_activeIds.symm
  have hslot (k : Nat) : t.slot k = kept[k]? := hkept ▸ (hcomp.getElem?_activeIds k).symm
  refine ⟨_, exec_cleanup s, hnum, fun k _ => hslot k,
    fun k _ hk => (hslot k).trans (List.getElem?_eq_none hk), fun k hk => ?_,
    fun ch v hv hnot => ?_, fun id => ?_, hframe.seqCtr, ⟨⟨hframe.outQ, hframe.inputs, hframe.trace⟩, hframe.cfg,
      hframe.params, herr, hframe.sequencer⟩, ?_⟩
  · have hk' : t.slot k = some kept[k] := (hslot k).trans (List.getElem?_eq_getElem hk)
    exact (hcomp.idx_iff (hcomp.slot_isVoice hk')).2 hk'
  · exact hcomp.idx_eq_none (by rwa [State.isVoice, hframe.cfg]) (hkept ▸ hnot)
  · obtain ⟨k, hk⟩ := hframe.voice id
    rw [State.voice_respond, hk]
  · have hremoved : s.cleanupPass.2 = s.activeIds.length - kept.length := by
      rw [hinv.compact.length_activeIds]; omega
    rw [State.respond_resp, hremoved, hnum]

/-! ### Turns over the registry positions (R162, R173, R202) -/

/-- A turn at a position of the registry, on states seen through `st`: a failed check is raised and changes no voice; a true check changes the one envelope it finds, by `upd`. -/
structure TurnsBy {α : Type} (st : α → State) (upd : Envelope → EnvParams → Envelope)
    (turn : α → Nat → α) : Prop where
  frame : ∀ x i, (st x).EnvFrame (st (turn x i))
  raised : ∀ x i, (st x).checkedSlot i = none → (st (turn x i)).err = true
  quiet : ∀ x i id, (st x).checkedSlot i = some id → (st (turn x i)).err = (st x).err
  other : ∀ x i id, (st x).checkedSlot i ≠ some id → (st (turn x i)).voice id = (st x).voice id
  found : ∀ x i id, (st x).checkedSlot i = some id → (st x).Shape → (st x).isVoice id →
    (st (turn x i)).voice id =
      { (st x).voice id with env := upd ((st x).voice id).env ((st x).param id.ch) }

theorem advanceSlot_of_unchecked {s : State} {i : Nat} (h : s.checkedSlot i = none) :
    s.advanceSlot i = s.raiseInvariantError := by simp only [State.advanceSlot, h]

theorem advanceSlot_of_checked {s : State} {i : Nat} {id : VoiceId}
    (h : s.checkedSlot i = some id) :
    s.advanceSlot i = s.nextframe id := by simp only [State.advanceSlot, h]

theorem State.voice_nextframe_self {s : State} (h : s.Shape) {id : VoiceId} (hv : s.isVoice id) :
    (s.nextframe id).voice id =
      { s.voice id with env := (s.voice id).env.next (s.param id.ch) } :=
  State.voice_setEnv_self h hv _

theorem State.voice_nextframe_ne (s : State) {id other : VoiceId} (h : other ≠ id) :
    (s.nextframe id).voice other = s.voice other := s.voice_setEnv_ne h _

/-- The VF record shows the amplitude of the sample just made; a VF record depends on no other part of the envelope (R84, R133). -/
theorem State.nextframe_outQ (s : State) (id : VoiceId) :
    (s.nextframe id).outQ =
      s.outQ ++ [vfWord id (s.voice id) ((s.voice id).env.next (s.param id.ch)).lvl] := by
  set e := (s.voice id).env.next (s.param id.ch)
  obtain ⟨e', he'⟩ := s.voice_setEnv_fields id id e
  change s.outQ ++ [vfWord id ((s.setEnv id e).voice id) e.lvl] = _
  rw [he']
  rfl

theorem advanceSlot_turnsBy : TurnsBy id Envelope.next State.advanceSlot where
  frame := State.EnvFrame.advanceSlot
  raised (s : State) i (h : s.checkedSlot i = none) := by rw [advanceSlot_of_unchecked h]; rfl
  quiet (s : State) i v (h : s.checkedSlot i = some v) := by rw [advanceSlot_of_checked h]; rfl
  other (s : State) i v (h : s.checkedSlot i ≠ some v) := by
    cases hc : s.checkedSlot i with
    | none => rw [advanceSlot_of_unchecked hc]; rfl
    | some w =>
      rw [advanceSlot_of_checked hc]
      exact s.voice_nextframe_ne fun e => h (e ▸ hc)
  found (s : State) i v (h : s.checkedSlot i = some v) hsh hv := by
    rw [advanceSlot_of_checked h]
    exact State.voice_nextframe_self hsh hv

/-- What RELEASEALL does to the envelope of an active voice (R173). -/
def Envelope.releaseIfSounding (e : Envelope) (p : EnvParams) : Envelope :=
  if e.sounding then e.release p else e

theorem releaseSlot_of_unchecked {x : State × Nat} {i : Nat} (h : x.1.checkedSlot i = none) :
    releaseSlot x i = (x.1.raiseInvariantError, x.2) := by simp only [releaseSlot, h]

theorem releaseSlot_of_sounding {x : State × Nat} {i : Nat} {id : VoiceId}
    (h : x.1.checkedSlot i = some id) (hs : (x.1.voice id).env.sounding = true) :
    releaseSlot x i = (x.1.release id, x.2 + 1) := by
  simp only [releaseSlot, h, hs, if_true, State.noteoffVoice]

theorem releaseSlot_of_not_sounding {x : State × Nat} {i : Nat} {id : VoiceId}
    (h : x.1.checkedSlot i = some id) (hs : (x.1.voice id).env.sounding = false) :
    releaseSlot x i = x := by
  simp only [releaseSlot, h, hs, Bool.false_eq_true, if_false]

theorem releaseSlot_turnsBy : TurnsBy Prod.fst Envelope.releaseIfSounding releaseSlot where
  frame x i := (releaseSlot_frame x i).1
  raised x i h := by rw [releaseSlot_of_unchecked h]; rfl
  quiet x i v h := by
    cases hs : (x.1.voice v).env.sounding with
    | true => rw [releaseSlot_of_sounding h hs]; rfl
    | false => rw [releaseSlot_of_not_sounding h hs]
  other x i v h := by
    cases hc : x.1.checkedSlot i with
    | none => rw [releaseSlot_of_unchecked hc]; rfl
    | some w =>
      cases hs : (x.1.voice w).env.sounding with
      | true =>
        rw [releaseSlot_of_sounding hc hs]
        exact x.1.voice_release_ne fun e => h (e ▸ hc)
      | false => rw [releaseSlot_of_not_sounding hc hs]
  found x i v h hsh hv := by
    cases hs : (x.1.voice v).env.sounding with
    | true =>
      rw [releaseSlot_of_sounding h hs, Envelope.releaseIfSounding, hs, if_pos rfl]
      exact State.voice_release_self hsh hv
    | false =>
      rw [releaseSlot_of_not_sounding h hs, Envelope.releaseIfSounding, hs]
      rfl

/-! ### The loops of ADVANCE and RELEASEALL -/

section
variable {α : Type} {st : α → State} {upd : Envelope → EnvParams → Envelope} {turn : α → Nat → α}

theorem TurnsBy.loop_frame (h : TurnsBy st upd turn) (x : α) (l : List Nat) :
    (st x).EnvFrame (st (l.foldl turn x)) :=
  foldl_keeps (p := fun y => (st x).EnvFrame (st y)) l x (.refl _)
    fun y i _ hy => hy.trans (h.frame y i)

/-- A voice that no check of the loop finds is left as it is (R202). -/
theorem TurnsBy.loop_other (h : TurnsBy st upd turn) (x : α) {l : List Nat} {id : VoiceId}
    (hid : ∀ i ∈ l, (st x).checkedSlot i ≠ some id) :
    (st (l.foldl turn x)).voice id = (st x).voice id :=
  (foldl_keeps (p := fun y => (st x).EnvFrame (st y) ∧ (st y).voice id = (st x).voice id) l x
    ⟨.refl _, rfl⟩ fun y i hi hy =>
      ⟨hy.1.trans (h.frame y i),
        (h.other y i id (hy.1.checkedSlot i ▸ hid i hi)).trans hy.2⟩).2

/-- A failed check in the loop leaves ERR set (R202). -/
theorem TurnsBy.loop_raised (h : TurnsBy st upd turn) {x : α} {l : List Nat} {i : Nat} (hi : i ∈ l)
    (hcheck : (st x).checkedSlot i = none) : (st (l.foldl turn x)).err = true := by
  obtain ⟨before, after, rfl⟩ := List.append_of_mem hi
  rw [List.foldl_append, List.foldl_cons]
  have hbefore := h.loop_frame x before
  exact (h.loop_frame _ after).err (h.raised _ i ((hbefore.checkedSlot i).trans hcheck))

/-- Without a failed check the loop keeps ERR. -/
theorem TurnsBy.loop_quiet (h : TurnsBy st upd turn) (x : α) {l : List Nat}
    (hcheck : ∀ i ∈ l, (st x).checkedSlot i ≠ none) :
    (st (l.foldl turn x)).err = (st x).err :=
  (foldl_keeps (p := fun y => (st x).EnvFrame (st y) ∧ (st y).err = (st x).err) l x
    ⟨.refl _, rfl⟩ fun y i hi hy => by
      obtain ⟨id, hid⟩ := Option.ne_none_iff_exists'.1 (hcheck i hi)
      exact ⟨hy.1.trans (h.frame y i),
        (h.quiet y i id ((hy.1.checkedSlot i).trans hid)).trans hy.2⟩).2

/-- Two positions whose checks find the same voice are one: the voice has one index. -/
theorem State.checkedSlot_inj {s : State} {i j : Nat} {id : VoiceId}
    (hi : s.checkedSlot i = some id) (hj : s.checkedSlot j = some id) : i = j := by
  have hidx := (State.checkedSlot_eq_some.1 hi).2
  rw [(State.checkedSlot_eq_some.1 hj).2] at hidx
  exact (Option.some.inj hidx).symm

/-- The voice that position `n` holds is still untouched when the loop comes to `n`. -/
theorem TurnsBy.loop_before (h : TurnsBy st upd turn) (x : α) {n : Nat} {id : VoiceId}
    (hid : (st x).checkedSlot n = some id) :
    (st ((List.range n).foldl turn x)).voice id = (st x).voice id :=
  h.loop_other x fun i hi hfound => by
    have hin := State.checkedSlot_inj hfound hid
    exact absurd (List.mem_range.1 hi) (by omega)

/-- A voice that the loop finds is changed once. -/
theorem TurnsBy.loop_found (h : TurnsBy st upd turn) {x : α} (hsh : (st x).Shape) {n i : Nat}
    (hi : i < n) {id : VoiceId} (hid : (st x).checkedSlot i = some id) (hv : (st x).isVoice id) :
    (st ((List.range n).foldl turn x)).voice id =
      { (st x).voice id with env := upd ((st x).voice id).env ((st x).param id.ch) } := by
  induction n with
  | zero => exact absurd hi (Nat.not_lt_zero i)
  | succ n ih =>
    rw [List.range_succ, List.foldl_append, List.foldl_cons, List.foldl_nil]
    have hframe := h.loop_frame x (List.range n)
    obtain hlt | rfl := Nat.lt_succ_iff_lt_or_eq.1 hi
    · have hn : (st x).checkedSlot n ≠ some id := fun hn =>
        absurd (State.checkedSlot_inj hid hn) (by omega)
      exact (h.other _ n id (hframe.checkedSlot n ▸ hn)).trans (ih hlt)
    · rw [h.found _ i id ((hframe.checkedSlot i).trans hid) (hframe.shape hsh)
        (by rwa [State.isVoice, hframe.cfg]), h.loop_before x hid, hframe.param]

/-- Under R35 and R36 the loop changes the active voices, each once, and raises no error. -/
theorem TurnsBy.loop_compact (h : TurnsBy st upd turn) {x : α} (hc : (st x).Compact) :
    (∀ id ∈ (st x).activeIds, (st ((List.range (st x).numActive).foldl turn x)).voice id =
      { (st x).voice id with env := upd ((st x).voice id).env ((st x).param id.ch) }) ∧
    (∀ id, id ∉ (st x).activeIds →
      (st ((List.range (st x).numActive).foldl turn x)).voice id = (st x).voice id) ∧
    (st ((List.range (st x).numActive).foldl turn x)).err = (st x).err := by
  refine ⟨fun id hid => ?_, fun id hid => ?_, ?_⟩
  · obtain ⟨i, hi, hslot⟩ := State.mem_activeIds.1 hid
    obtain ⟨id', hcheck, hslot', hv, -⟩ := hc.checkedSlot hi
    obtain rfl := Option.some.inj (hslot.symm.trans hslot')
    exact h.loop_found hc.shape hi hcheck hv
  · exact h.loop_other x fun i hi hfound =>
      hid (State.mem_activeIds.2 ⟨i, List.mem_range.1 hi, (State.checkedSlot_eq_some.1 hfound).1⟩)
  · refine h.loop_quiet x fun i hi => ?_
    obtain ⟨id, hcheck, -⟩ := hc.checkedSlot (List.mem_range.1 hi)
    simp [hcheck]

end

/-- The ids the checks of the positions below `n` find, in position order (R202). -/
def State.checkedIds (s : State) (n : Nat) : List VoiceId := (List.range n).filterMap s.checkedSlot

/-- Under R35 and R36 the checks find the active ids. -/
theorem State.Compact.checkedIds {s : State} (h : s.Compact) :
    s.checkedIds s.numActive = s.activeIds :=
  List.filterMap_congr fun i hi => by
    obtain ⟨id, hcheck, hslot, -⟩ := h.checkedSlot (List.mem_range.1 hi)
    rw [hcheck, hslot]

theorem State.checkedIds_succ (s : State) (n : Nat) :
    s.checkedIds (n + 1) = s.checkedIds n ++ (s.checkedSlot n).toList := by
  simp only [State.checkedIds, List.range_succ, List.filterMap_append]
  cases hn : s.checkedSlot n <;> simp [hn]

theorem State.length_checkedIds (s : State) (n : Nat) :
    (s.checkedIds n).length = ((List.range n).filter fun j => (s.checkedSlot j).isSome).length := by
  rw [State.checkedIds, List.length_filterMap_eq_countP, List.countP_eq_length_filter]

/-- The VF record a frame that starts at `s` emits for voice `id` (R133). -/
def State.vfNext (s : State) (id : VoiceId) : OutWord :=
  vfWord id (s.voice id) ((s.voice id).env.next (s.param id.ch)).lvl

/-- One VF record for each voice a check finds, in position order, in any state (R162). -/
theorem advanceLoop_outQ (s : State) (n : Nat) :
    ((List.range n).foldl State.advanceSlot s).outQ = s.outQ ++ (s.checkedIds n).map s.vfNext := by
  induction n with
  | zero => simp [State.checkedIds]
  | succ n ih =>
    rw [List.range_succ, List.foldl_append, List.foldl_cons, List.foldl_nil, State.checkedIds_succ]
    have hframe := State.EnvFrame.advanceLoop s (List.range n)
    cases hn : s.checkedSlot n with
    | none =>
      rw [advanceSlot_of_unchecked ((hframe.checkedSlot n).trans hn)]
      simpa using ih
    | some id =>
      have hvoice := advanceSlot_turnsBy.loop_before s hn
      simp only [id_eq] at hvoice
      rw [advanceSlot_of_checked ((hframe.checkedSlot n).trans hn), State.nextframe_outQ, hvoice,
        hframe.param, ih]
      simp [State.vfNext]

/-- RELEASEALL counts the sounding voices its checks find, in any state (R173). -/
theorem releaseLoop_count (s : State) (n : Nat) :
    ((List.range n).foldl releaseSlot (s, 0)).2 =
      ((s.checkedIds n).filter fun id => (s.voice id).env.sounding).length := by
  induction n with
  | zero => simp [State.checkedIds]
  | succ n ih =>
    rw [List.range_succ, List.foldl_append, List.foldl_cons, List.foldl_nil, State.checkedIds_succ]
    obtain ⟨hframe, -⟩ := releaseLoop_frame (s, 0) (List.range n)
    cases hn : s.checkedSlot n with
    | none =>
      rw [releaseSlot_of_unchecked ((hframe.checkedSlot n).trans hn)]
      simpa using ih
    | some id =>
      have hcheck := (hframe.checkedSlot n).trans hn
      have hvoice := releaseSlot_turnsBy.loop_before (s, 0) hn
      cases hs : (s.voice id).env.sounding with
      | true => rw [releaseSlot_of_sounding hcheck (hvoice ▸ hs), ih]; simp [hs]
      | false => rw [releaseSlot_of_not_sounding hcheck (hvoice ▸ hs), ih]; simp [hs]

/-- Settles O39: of the active voices the loop changes exactly the sounding ones. -/
theorem releaseallReleasesSoundingVoices : Obligations.ReleaseallReleasesSoundingVoices := by
  intro s hinv hit
  obtain ⟨hframe, hq⟩ := releaseLoop_frame (s, 0) (List.range s.numActive)
  obtain ⟨hactive, hinactive, herr⟩ := releaseSlot_turnsBy.loop_compact (x := (s, 0)) hinv.compact
  have hcount : s.releaseAllPass.2 = hit.length := by
    rw [State.releaseAllPass, releaseLoop_count, hinv.compact.checkedIds]
  refine ⟨_, exec_releaseall s, fun id hid => ?_, fun id hid => ?_, hframe.seqCtr, hframe.slots,
    hframe.numActive,
    ⟨⟨hq, hframe.inputs, hframe.trace⟩, hframe.cfg, hframe.params, herr, hframe.sequencer⟩,
    by rw [State.respond_resp, hcount]⟩
  · obtain ⟨hmem, hs⟩ := List.mem_filter.1 hid
    refine (hactive id hmem).trans ?_
    rw [Envelope.releaseIfSounding, if_pos hs]
  · by_cases hmem : id ∈ s.activeIds
    · have hs : ¬ (s.voice id).env.sounding = true := fun hs => hid (List.mem_filter.2 ⟨hmem, hs⟩)
      refine (hactive id hmem).trans ?_
      rw [Envelope.releaseIfSounding, if_neg hs]
    · exact hinactive id hmem

/-! ### Frames and blocks (R162, R171, R172) -/

/-- `t` is `k` frames into a block that starts at `c`: the active voices are `k` samples on, and the words of `k` frames wait behind those of `c`. -/
structure State.FramesOn (c t : State) (k : Nat) : Prop where
  frame : c.EnvFrame t
  err : t.err = c.err
  active : ∀ id ∈ c.activeIds, t.voice id = { c.voice id with env := c.envAfter id k }
  inactive : ∀ id, id ∉ c.activeIds → t.voice id = c.voice id
  outQ : t.outQ = c.outQ ++ (List.range k).flatMap c.frameWords

theorem State.FramesOn.zero (c : State) : c.FramesOn c 0 :=
  ⟨.refl c, rfl, fun _ _ => rfl, fun _ _ => rfl, by simp⟩

/-- Frame `k` from `k` frames on shows the words of frame `k` of the block. -/
theorem State.FramesOn.succ {c t : State} {k : Nat} (hc : c.Compact) (h : c.FramesOn t k) :
    c.FramesOn (t.frame k) (k + 1) := by
  have ht := h.frame.compact hc
  have hids : t.activeIds = c.activeIds := State.activeIds_congr h.frame.numActive h.frame.slot
  obtain ⟨hactive, hinactive, herr⟩ := advanceSlot_turnsBy.loop_compact (x := t) ht
  simp only [id_eq, hids] at hactive hinactive herr
  have hnext : ∀ id ∈ c.activeIds,
      (t.voice id).env.next (t.param id.ch) = c.envAfter id (k + 1) := fun id hid => by
    rw [h.active id hid, h.frame.param]; rfl
  refine ⟨h.frame.trans (.frame t k), herr.trans h.err, fun id hid => ?_,
    fun id hid => (hinactive id hid).trans (h.inactive id hid), ?_⟩
  · exact (hactive id hid).trans (by rw [hnext id hid, h.active id hid])
  · have hwords : c.activeIds.map t.vfNext =
        c.activeIds.map fun id => vfWord id (c.voice id) (c.envAfter id (k + 1)).lvl :=
      List.map_congr_left fun id hid => by
        rw [State.vfNext, hnext id hid, h.active id hid]; rfl
    rw [State.frame_outQ, State.advanceAll, advanceLoop_outQ, ht.checkedIds, hids, hwords, h.outQ,
      List.range_succ, List.flatMap_append]
    simp [State.frameWords]

theorem State.Compact.framesOn {c : State} (hc : c.Compact) (k : Nat) :
    c.FramesOn ((List.range k).foldl State.frame c) k := by
  induction k with
  | zero => exact .zero c
  | succ k ih =>
    rw [List.range_succ, List.foldl_append]
    exact ih.succ hc

/-- Settles O35: ADVANCE is the first frame of a block. -/
theorem advanceRunsOneFrame : Obligations.AdvanceRunsOneFrame := by
  intro s hinv
  have h : s.FramesOn (s.frame 0) 1 := hinv.compact.framesOn 1
  have hf := h.frame
  refine ⟨_, exec_advance s, ?_, hinv.compact.length_activeIds, h.active, h.inactive, hf.seqCtr,
    hf.slots, hf.numActive, hf.cfg, hf.params, h.err, hf.sequencer, hf.inputs, hf.trace, ?_⟩
  · simpa using h.outQ
  · rw [State.respond_resp, hf.numActive]

/-- Settles O36: RENDER's frames start at the state its cleanup pass leaves, which CLEANUP leaves too. -/
theorem renderRunsOneBlock : Obligations.RenderRunsOneBlock := by
  intro s c hinv hcleanup
  obtain rfl := next_inj hcleanup
  have hclean := State.IdxFrame.cleanupPass s
  obtain ⟨hcomp, herr⟩ := hinv.compact.cleanupPass_compact
  have h : s.cleanupPass.1.FramesOn s.blockEnd s.cleanupPass.1.cfg.F := hcomp.framesOn _
  have hf := h.frame
  refine ⟨_, exec_render s, ?_, fun id hid => ?_, h.inactive, hf.seqCtr.trans hclean.seqCtr,
    hf.slots, hf.numActive, hf.cfg.trans hclean.cfg, hf.params.trans hclean.params,
    h.err.trans herr, hf.inputs.trans hclean.inputs, hf.trace.trans hclean.trace, ?_⟩
  · rw [← hclean.outQ, ← hclean.cfg]
    exact h.outQ
  · rw [← hclean.cfg]
    exact h.active id hid
  · rw [State.respond_resp, State.respond_resp, hf.numActive]

/-! ### Word counts (R172) -/

theorem State.feCount_frameWords (s : State) (f : Nat) : feCount (s.frameWords f) = 1 := by
  have hvf : feCount (s.activeIds.map fun id =>
      vfWord id (s.voice id) (s.envAfter id (f + 1)).lvl) = 0 := by
    rw [feCount, List.countP_map]
    exact List.countP_eq_zero.2 fun id _ => by simp [isFE_vfWord]
  rw [State.frameWords, feCount, List.countP_append, ← feCount, hvf]
  simp [isFE_feWord]

theorem State.Compact.length_frameWords {s : State} (h : s.Compact) (f : Nat) :
    (s.frameWords f).length = s.numActive + 1 := by
  simp [State.frameWords, h.length_activeIds]

theorem State.Compact.respond {s : State} (h : s.Compact) (c : RespCode) (d : Word) :
    (s.respond c d).Compact :=
  h.congr (h.shape.respond c d) rfl rfl (fun _ => rfl) fun _ => rfl

theorem sum_map_range_const {f : Nat → Nat} {m : Nat} (h : ∀ k, f k = m) (n : Nat) :
    ((List.range n).map f).sum = n * m := by
  rw [List.map_congr_left fun k _ => h k, List.map_const', List.sum_replicate, List.length_range,
    smul_eq_mul]

/-- Settles O37: each of the F frames has one FE record and a VF record for each active voice. -/
theorem renderWordCounts : Obligations.RenderWordCounts := by
  intro s t hinv hq hrender
  have hcomp := hinv.compact.cleanupPass_compact.1
  obtain ⟨t', hrender', hout, -, -, -, -, hnum, -⟩ := renderRunsOneBlock s _ hinv (exec_cleanup s)
  obtain rfl := next_inj (hrender.symm.trans hrender')
  have hc := hcomp.respond .ok (removedData s.cleanupPass.2 s.cleanupPass.1.numActive)
  rw [hout, hq, List.nil_append, hnum]
  constructor
  · rw [feCount, List.countP_flatMap]
    exact (sum_map_range_const (State.feCount_frameWords _) _).trans (Nat.mul_one _)
  · rw [List.length_flatMap]
    exact sum_map_range_const hc.length_frameWords _

/-! ### A failed check (R202) -/

/-- Below the failed position `k` the loop removes nothing, so it comes to `k`, and ERR stays set from there on. -/
theorem cleanupLoop_err_of_unchecked {s : State} {i k fuel : Nat} (hik : i ≤ k)
    (hk : k < s.numActive) (hfuel : k < i + fuel) (hcheck : s.checkedSlot k = none)
    (hkept : ∀ j < k, ∃ id, s.checkedSlot j = some id ∧ s.isDone id = false) (r : Nat) :
    (cleanupLoop fuel i r s).1.err = true := by
  induction fuel generalizing i with
  | zero => omega
  | succ fuel ih =>
    obtain rfl | hlt := Nat.eq_or_lt_of_le hik
    · rw [cleanupLoop_of_unchecked hk hcheck]
      exact (cleanupLoop_frame fuel (i + 1) r s.raiseInvariantError).err rfl
    · obtain ⟨id, hid, hdone⟩ := hkept i hlt
      rw [cleanupLoop_of_not_done (by omega) hid hdone]
      exact ih (by omega) (by omega)

/-- Settles O51: a turn at a failed check sets ERR and touches no voice, and the loops go on with ERR set. -/
theorem failedCheckSetsErrAndSkips : Obligations.FailedCheckSetsErrAndSkips := by
  intro s k hk hfail
  have hcheck : s.checkedSlot k = none := State.checkedSlot_eq_none.2 hfail
  have hmem : k ∈ List.range s.numActive := List.mem_range.2 hk
  have hskip : ∀ id, (∀ j < s.numActive, s.slot j = some id → (s.voice id).idx ≠ some j) →
      ∀ j ∈ List.range s.numActive, s.checkedSlot j ≠ some id := fun id hid j hj hfound => by
    obtain ⟨hslot, hidx⟩ := State.checkedSlot_eq_some.1 hfound
    exact hid j (List.mem_range.1 hj) hslot hidx
  refine ⟨⟨_, exec_advance s, ?_, ?_, fun id hid => ?_⟩,
    ⟨_, exec_releaseall s, ?_, fun id hid => ?_⟩, fun hkept => ⟨_, exec_cleanup s, ?_⟩⟩
  · exact advanceSlot_turnsBy.loop_raised (x := s) hmem hcheck
  · rw [← State.length_checkedIds, State.respond_outQ, State.frame_outQ, State.advanceAll,
      advanceLoop_outQ]
    simp only [List.length_append, List.length_map, List.length_singleton]
  · exact advanceSlot_turnsBy.loop_other s (hskip id hid)
  · exact releaseSlot_turnsBy.loop_raised (x := (s, 0)) hmem hcheck
  · exact releaseSlot_turnsBy.loop_other (s, 0) (hskip id hid)
  · refine cleanupLoop_err_of_unchecked (Nat.zero_le k) hk (by omega) hcheck (fun j hj => ?_) 0
    obtain ⟨id, hslot, hidx, hdone⟩ := hkept j hj
    exact ⟨id, State.checkedSlot_eq_some.2 ⟨hslot, hidx⟩, hdone⟩

end Sys2Proof.Machine

/-! NOP and undefined words: the two accepted words that do nothing but answer (spec/43_host_access.md R190, R192). -/

namespace Sys2Proof.Machine

theorem exec_nop (s : State) : exec .nop s = .next (s.respond .ok 0#32) := rfl

/-- Settles O40: NOP is a bare response. -/
theorem nopOnlyResponds : Obligations.NopOnlyResponds := fun s => exec_nop s

theorem accept_undefined {w : Word} {e : DecodeError} (h : decodeWord w = .undefined e)
    (s : State) : accept w s = .next (s.respond .ignored 0#32) := by
  rw [accept, h, State.ignoreWord]

/-- Settles O12: the ready port takes the word, and an undefined word is a bare response; with the port ready no output word waits. -/
theorem undefinedWordIsIgnored : Obligations.UndefinedWordIsIgnored := by
  intro s p rest w e hin hreset hcmd hready hdec
  obtain ⟨hq, -, -⟩ := State.ready_iff.1 hready
  have hstep : step s = .next (State.respond { s with inputs := rest } .ignored 0#32) := by
    rw [step_accept hin hreset hcmd hready, accept_undefined hdec]
  exact ⟨_, hstep, ⟨rfl, rfl, rfl, rfl, rfl, rfl, rfl, rfl⟩, hq, rfl, rfl, rfl⟩

end Sys2Proof.Machine

/-! Error outcomes: what causes each response code, that the invariants keep `ERR` clear, and that an engine with no command offered keeps its state (spec/60_exceptions.md R201 to R203, R212). -/

namespace Sys2Proof.Machine

/-! ### The code of a response (R201, R203) -/

/-- The code a command answers in state `s`, its tests in the order of R203. -/
def State.answerCode (s : State) : Instr → RespCode
  | .noteon ch n vel =>
    if vel = 0#7 then if s.boundVoice ch n = none then .nomatch else .ok
    else if s.boundVoice ch n = none ∧ s.numActive = s.cfg.C then .dropped
    else .ok
  | .noteoff ch n => if s.boundVoice ch n = none then .nomatch else .ok
  | .voiceoff ch rv =>
    if s.cfg.P ≤ rv.toNat then .badarg
    else if s.active ⟨ch, rv.toNat⟩ then .ok
    else .nomatch
  | .regread a => if regMapped s.cfg a then .ok else .badarg
  | _ => .ok

theorem State.noteOff_code (s : State) (ch : Chan) (n : Midi7) :
    ∃ d, (s.noteOff ch n).resp = some ⟨if s.boundVoice ch n = none then .nomatch else .ok, d⟩ := by
  obtain ⟨v, hb, d, hoff⟩ | ⟨hb, hoff⟩ := s.noteOff_cases ch n <;> rw [hoff, hb]
  · exact ⟨d, rfl⟩
  · exact ⟨0#32, rfl⟩

theorem State.Compact.noteOn_code {s : State} (hs : s.Compact) (ch : Chan) (n vel : Midi7) :
    ∃ d, (s.noteOn ch n vel).resp =
      some ⟨if s.boundVoice ch n = none ∧ s.numActive = s.cfg.C then .dropped else .ok, d⟩ := by
  have hle := hs.registry.1
  obtain ⟨v, hb, d, hon⟩ | ⟨v, hb, hn, -, d, hon⟩ | ⟨v, hb, hn, -, -, d, hon⟩ | ⟨hb, hn, hon⟩ :=
    s.noteOn_cases ch n vel hs.shape.one_le_P <;> rw [hon, hb]
  · exact ⟨d, by simp⟩
  · exact ⟨d, by simp [hn.ne]⟩
  · exact ⟨d, by simp [hn.ne]⟩
  · exact ⟨0#32, by simp [hle.antisymm hn]⟩

theorem exec_noteon_code {s : State} (hs : s.Compact) (ch : Chan) (n vel : Midi7) :
    ∃ t d, exec (.noteon ch n vel) s = .next t ∧
      t.resp = some ⟨s.answerCode (.noteon ch n vel), d⟩ := by
  by_cases hvel : vel = 0#7
  · subst hvel
    obtain ⟨d, hd⟩ := s.noteOff_code ch n
    exact ⟨_, d, exec_noteon_zero ch n s, hd⟩
  · obtain ⟨d, hd⟩ := hs.noteOn_code ch n vel
    exact ⟨_, d, exec_noteon hvel ch n s, by rw [hd, State.answerCode, if_neg hvel]⟩

theorem exec_voiceoff_code {s : State} (hsh : s.Shape) (ch : Chan) (rv : BitVec 8) :
    ∃ t d, exec (.voiceoff ch rv) s = .next t ∧
      t.resp = some ⟨s.answerCode (.voiceoff ch rv), d⟩ := by
  rw [State.answerCode]
  split_ifs with hP ha
  · exact ⟨_, _, exec_voiceoff_badarg hP, rfl⟩
  · exact ⟨_, _, exec_voiceoff_active hsh (Nat.lt_of_not_le hP) ha, rfl⟩
  · exact ⟨_, _, exec_voiceoff_inactive (Nat.lt_of_not_le hP) (Bool.not_eq_true _ ▸ ha), rfl⟩

theorem exec_regread_code (s : State) (a : BitVec 16) :
    ∃ t d, exec (.regread a) s = .next t ∧
      t.resp = some ⟨s.answerCode (.regread a), d⟩ := by
  refine ⟨_, (s.regReadResponse a).data, exec_regread s a, ?_⟩
  rw [State.answerCode]
  split_ifs with ha
  · rw [← (s.regReadResponse_code a).2 ha]
  · rw [State.regReadResponse_of_not_mapped ha]

/-- Every command answers the code that `State.answerCode` says. -/
theorem State.Compact.exec_code {s : State} (hs : s.Compact) (i : Instr) :
    ∃ t d, exec i s = .next t ∧ t.resp = some ⟨s.answerCode i, d⟩ := by
  cases i with
  | noteon ch n vel => exact exec_noteon_code hs ch n vel
  | noteoff ch n =>
    obtain ⟨d, hd⟩ := s.noteOff_code ch n
    exact ⟨_, d, rfl, hd⟩
  | voiceoff ch rv => exact exec_voiceoff_code hs.shape ch rv
  | regread a => exact exec_regread_code s a
  | nop | releaseall | cleanup | advance | render | seta _ _ | setd _ _ | sets _ _ | setr _ _ =>
    exact ⟨_, _, rfl, rfl⟩

theorem State.answerCode_ne_ignored (s : State) (i : Instr) : s.answerCode i ≠ .ignored := by
  cases i <;> simp [State.answerCode, ite_eq_iff]

theorem State.answerCode_eq_dropped {s : State} {i : Instr} :
    s.answerCode i = .dropped ↔ ∃ ch n vel, i = .noteon ch n vel ∧ vel ≠ 0#7 ∧
      s.numActive = s.cfg.C ∧ ∀ v < s.cfg.P, s.bound ⟨ch, v⟩ n = false := by
  simp only [← State.boundVoice_eq_none]
  cases i <;> simp [State.answerCode, ite_eq_iff, and_comm]

theorem State.answerCode_eq_nomatch {s : State} {i : Instr} :
    s.answerCode i = .nomatch ↔ (∃ ch n, (i = .noteoff ch n ∨ i = .noteon ch n 0#7) ∧
        ∀ v < s.cfg.P, s.bound ⟨ch, v⟩ n = false) ∨
      (∃ ch rv, i = .voiceoff ch rv ∧ rv.toNat < s.cfg.P ∧
        s.active ⟨ch, rv.toNat⟩ = false) := by
  simp only [← State.boundVoice_eq_none]
  cases i <;> simp [State.answerCode, ite_eq_iff]

theorem State.answerCode_eq_badarg {s : State} {i : Instr} :
    s.answerCode i = .badarg ↔ (∃ ch rv, i = .voiceoff ch rv ∧ s.cfg.P ≤ rv.toNat) ∨
      (∃ a, i = .regread a ∧ ¬ regMapped s.cfg a) := by
  cases i <;> simp [State.answerCode, ite_eq_iff]

/-- A response other than OK has data 0 (R201). -/
theorem exec_data_of_code_ne_ok {i : Instr} {s t : State} {r : Response}
    (h : exec i s = .next t) (hr : t.resp = some r) (hcode : r.code ≠ .ok) : r.data = 0#32 := by
  obtain ⟨u, hu, ⟨d, hd⟩ | ⟨c, hc⟩⟩ := exec_answers i s <;>
    obtain rfl := next_inj (h.symm.trans hu)
  · obtain rfl := Option.some.inj (hr.symm.trans hd)
    exact absurd rfl hcode
  · obtain rfl : r = ⟨c, 0#32⟩ := Option.some.inj (hr.symm.trans (congrArg State.resp hc))
    rfl

/-- Settles O48: the code is `State.answerCode`'s, which tests one cause after another. -/
theorem causesOfResponseCodes : Obligations.CausesOfResponseCodes := by
  intro i s t r hinv h hr
  obtain ⟨u, d, hu, hd⟩ := hinv.compact.exec_code i
  obtain rfl := next_inj (h.symm.trans hu)
  have hcode : r.code = s.answerCode i := by rw [Option.some.inj (hr.symm.trans hd)]
  refine ⟨?_, ?_, ?_, ?_, exec_data_of_code_ne_ok h hr⟩ <;> rw [hcode]
  · exact s.answerCode_ne_ignored i
  · exact State.answerCode_eq_dropped
  · exact State.answerCode_eq_nomatch
  · exact State.answerCode_eq_badarg

/-! ### The error bit under the invariants (R202) -/

theorem execVoiceoff_err {ch : Chan} {rv : BitVec 8} {s t : State}
    (h : execVoiceoff ch rv s = .next t) : t.err = s.err := by
  obtain rfl := next_inj h
  dsimp only
  split
  · rfl
  · split <;> rfl

theorem execRegread_err {a : BitVec 16} {s t : State} (h : execRegread a s = .next t) :
    t.err = s.err := by
  obtain rfl := next_inj h
  split <;> rfl

theorem execNoteon_err {ch : Chan} {n vel : Midi7} {s t : State}
    (h : execNoteon ch n vel s = .next t) : t.err = s.err := by
  obtain rfl := next_inj h
  split
  · exact (State.VoicesOnly.noteOff s ch n).err
  · exact (State.VoicesOnly.noteOn s ch n vel).err

/-- RENDER's cleanup pass leaves a compact registry, and so its frames raise no error either. -/
theorem State.Compact.blockEnd_err {s : State} (hs : s.Compact) : s.blockEnd.err = s.err := by
  obtain ⟨hc, herr⟩ := hs.cleanupPass_compact
  exact (hc.framesOn s.cleanupPass.1.cfg.F).err.trans herr

/-- Under R35 and R36 every check is true, so no command changes `ERR`. -/
theorem State.Compact.exec_err {i : Instr} {s t : State} (hs : s.Compact)
    (h : exec i s = .next t) : t.err = s.err := by
  cases i with
  | nop => exact next_inj h ▸ rfl
  | noteon ch n vel => exact execNoteon_err h
  | noteoff ch n => exact next_inj h ▸ (State.VoicesOnly.noteOff s ch n).err
  | voiceoff ch rv => exact execVoiceoff_err h
  | releaseall =>
    obtain ⟨-, -, herr⟩ := releaseSlot_turnsBy.loop_compact (x := (s, 0)) hs
    exact next_inj h ▸ herr
  | cleanup => exact next_inj h ▸ hs.cleanupPass_compact.2
  | advance => exact next_inj h ▸ (hs.framesOn 1).err
  | render => exact next_inj h ▸ hs.blockEnd_err
  | seta ch val => exact next_inj h ▸ rfl
  | setd ch val => exact next_inj h ▸ rfl
  | sets ch val => exact next_inj h ▸ rfl
  | setr ch val => exact next_inj h ▸ rfl
  | regread a => exact execRegread_err h

theorem State.Compact.look_err {p : PortInput} {s t : State} (hs : s.Compact)
    (herr : s.err = false) (h : look p s = .next t) : t.err = false := by
  obtain ⟨-, rfl⟩ | rfl | ⟨w, ws, -, -, rfl⟩ | ⟨r, -, -, -, rfl⟩ | ⟨w, i, -, -, -, hexec⟩ |
    ⟨w, e, -, -, -, rfl⟩ := look_cases h
  · rfl
  · exact herr
  · exact herr
  · exact herr
  · exact (hs.exec_err hexec).trans herr
  · exact herr

/-- Settles O52: a look resets, moves a word or a response, or runs a command, and under R35 and R36 no command's check fails. -/
theorem errStaysClearUnderTheInvariants : Obligations.ErrStaysClearUnderTheInvariants := by
  intro s t hinv herr h
  obtain ⟨rfl, -⟩ | ⟨p, rest, -, hlook⟩ := step_cases h
  · exact herr
  · have hs : ({ s with inputs := rest } : State).Compact :=
      hinv.compact.congr hinv.shape rfl rfl (fun _ => rfl) fun _ => rfl
    exact hs.look_err herr hlook

/-! ### No command offered (R212) -/

theorem step_of_no_inputs {s : State} (h : s.inputs = []) : step s = .next s := by
  rw [step, h]

theorem look_of_no_command {s : State} {p : PortInput} (hready : s.ready = true)
    (hreset : p.reset = false) (hcmd : p.cmd = none) : look p s = .next s := by
  obtain ⟨hq, hr, -⟩ := State.ready_iff.1 hready
  simp [look, hreset, hcmd, hq, hr]

/-- Settles O17: a look at a ready port, where nothing waits to be handed out, does nothing without a command. -/
theorem idleEngineKeepsItsState : Obligations.IdleEngineKeepsItsState := by
  refine ⟨fun s => step_of_no_inputs, fun s p rest hready hin hreset hcmd => ?_⟩
  rw [step, hin]
  exact look_of_no_command (s := { s with inputs := rest }) hready hreset hcmd

end Sys2Proof.Machine

/-! Reset and the two holds: what a reset leaves, and that an engine whose output word or response is not taken keeps its state for as long as that lasts (spec/70_reset_and_hazards.md R221, R231, R232). -/

namespace Sys2Proof.Machine

/-! ### Reset (R221) -/

theorem step_reset {s : State} {p : PortInput} {rest : List PortInput}
    (hin : s.inputs = p :: rest) (hreset : p.reset = true) :
    step s = .next (({ s with inputs := rest } : State).assertReset) := by
  simp [step, look, hin, hreset]

/-- Settles O2: reset is looked at first, whatever waits, and keeps only the trace and the looks to come. -/
theorem resetAbandonsTheCommand : Obligations.ResetAbandonsTheCommand := by
  intro s p rest hin hreset
  exact ⟨_, step_reset hin hreset, ⟨rfl, rfl, rfl, rfl, rfl, rfl, rfl, rfl⟩,
    rfl, rfl, rfl, rfl, rfl⟩

/-! ### Holds (R231, R232) -/

theorem look_of_sink_not_ready {s : State} {p : PortInput} (hq : s.outQ ≠ [])
    (hreset : p.reset = false) (hsink : p.sinkReady = false) : look p s = .next s := by
  obtain ⟨w, ws, hq⟩ := List.exists_cons_of_ne_nil hq
  simp [look, hreset, hq, hsink]

theorem look_of_host_not_ready {s : State} {p : PortInput} (hq : s.outQ = []) (hr : s.resp ≠ none)
    (hreset : p.reset = false) (hhost : p.hostReady = false) : look p s = .next s := by
  obtain ⟨r, hr⟩ := Option.ne_none_iff_exists'.1 hr
  simp [look, hreset, hq, hr, hhost]

/-- Looks that each change nothing, whatever is still to come, only use up the pins they look at. -/
theorem run_of_looks_hold {ps : List PortInput} : ∀ {rest : List PortInput} {s : State},
    s.inputs = ps ++ rest →
    (∀ p ∈ ps, ∀ later, look p { s with inputs := later } = .next { s with inputs := later }) →
      Sys2Proof.core.run ps.length s = .next { s with inputs := rest } := by
  induction ps with
  | nil => rintro rest s rfl -; exact core_run_zero s
  | cons p ps ih =>
    intro rest s hin hhold
    obtain ⟨hp, hps⟩ := List.forall_mem_cons.1 hhold
    have hstep : step s = .next { s with inputs := ps ++ rest } := by
      rw [step, hin]
      exact hp _
    calc Sys2Proof.core.run (ps.length + 1) s
      _ = Sys2Proof.core.run ps.length ({ s with inputs := ps ++ rest } : State) :=
        core_run_succ _ hstep
      _ = .next { s with inputs := rest } := ih rfl hps

/-- The command port is not ready while a word or a response waits (R81). -/
theorem State.ready_eq_false_of_waiting {s : State} (h : s.outQ ≠ [] ∨ s.resp ≠ none) :
    s.ready = false := by
  obtain ⟨-, hwaiting, -⟩ := busyPortTakesNoCommand
  exact hwaiting s h

/-- Settles O14: every look at a sink that is not ready holds, and the sink's acceptance takes the oldest word. -/
theorem unacceptedWordHoldsTheEngine : Obligations.UnacceptedWordHoldsTheEngine := by
  constructor
  · intro ps rest s hq hin hsink
    refine ⟨run_of_looks_hold hin fun p hp later => ?_, State.ready_eq_false_of_waiting (.inl hq)⟩
    obtain ⟨hreset, hnotReady⟩ := hsink p hp
    exact look_of_sink_not_ready (s := { s with inputs := later }) hq hreset hnotReady
  · intro s w ws p rest hq hin hreset hready
    exact ⟨_, step_handWord hin hq hreset hready, rfl, rfl⟩

/-- Settles O15: with no word left, every look at a host that is not ready holds, and the host's taking ends the response. -/
theorem untakenResponseHoldsTheEngine : Obligations.UntakenResponseHoldsTheEngine := by
  constructor
  · intro ps rest s hq hr hin hhost
    refine ⟨run_of_looks_hold hin fun p hp later => ?_, State.ready_eq_false_of_waiting (.inr hr)⟩
    obtain ⟨hreset, hnotReady⟩ := hhost p hp
    exact look_of_host_not_ready (s := { s with inputs := later }) hq hr hreset hnotReady
  · intro s r p rest hq hr hin hreset hready
    exact ⟨_, step_handResponse hin hq hr hreset hready, rfl, rfl⟩

end Sys2Proof.Machine

/-! The invariants R35 to R38 with the ports, kept by every step: what each update of the engine keeps of them, the notes of a channel when a voice is struck, a block's words at the ports, and every command (spec/10_state.md R35 to R38; spec/20_memory.md R58; spec/30_encoding.md R82). -/

namespace Sys2Proof.Machine

/-! ### The invariants of an IDLE engine -/

/-- The invariants of an engine whose sequencer is IDLE, without the output words and the response. -/
structure State.IdleInv (s : State) : Prop extends State.Compact s where
  binding : s.BindingInv
  envelope : s.EnvelopeInv
  idle : s.sequencer = .idle

theorem State.Inv.idleInv {s : State} (h : s.Inv) (hq : s.outQ = []) : s.IdleInv :=
  ⟨h.compact, h.binding, h.envelope, h.ports.idle_of_outQ_nil hq⟩

/-- In IDLE the ports are in order as soon as there is a response. -/
theorem State.IdleInv.inv {s : State} (h : s.IdleInv) (hr : s.resp.isSome = true) : s.Inv where
  shape := h.shape
  registry := h.registry
  index := h.index
  binding := h.binding
  envelope := h.envelope
  ports := ⟨fun _ => hr, by rw [h.idle]; rfl⟩

/-- The invariants of an IDLE engine look at the sizes, the four lists, `numActive` and the sequencer only. -/
theorem State.IdleInv.congr {s t : State} (h : s.IdleInv) (hsh : t.Shape) (hc : t.cfg = s.cfg)
    (hr : t.rosters = s.rosters) (hs : t.slots = s.slots) (hn : t.numActive = s.numActive)
    (hq : t.sequencer = s.sequencer) : t.IdleInv := by
  have hvoice := State.voice_congr hr
  refine ⟨h.toCompact.congr hsh hc hn (State.slot_congr hs) fun id => by rw [hvoice], ?_, ?_,
    hq.trans h.idle⟩
  · simpa only [State.BindingInv, State.active, hc, hvoice] using h.binding
  · simpa only [State.EnvelopeInv, hc, hvoice] using h.envelope

theorem State.IdleInv.emit {s : State} (h : s.IdleInv) (w : OutWord) : (s.emit w).IdleInv :=
  h.congr (h.shape.emit w) rfl rfl rfl rfl rfl

theorem State.IdleInv.setParam {s : State} (h : s.IdleInv) (ch : Chan) (p : EnvParams) :
    (s.setParam ch p).IdleInv :=
  h.congr (h.shape.setParam ch p) rfl rfl rfl rfl rfl

/-- A command that ends by answering leaves the invariants (R83). -/
theorem State.IdleInv.respond {s : State} (h : s.IdleInv) (c : RespCode) (d : Word) :
    (s.respond c d).Inv :=
  (h.congr (h.shape.respond c d) rfl rfl rfl rfl rfl).inv rfl

/-! ### Envelopes and indexes -/

/-- With the notes kept and no voice made active, no two voices come to share a note (R37). -/
theorem State.SeqFrame.bindingInv {s t : State} (h : s.SeqFrame t)
    (hnote : ∀ id, (t.voice id).note = (s.voice id).note) (hs : s.BindingInv) : t.BindingInv := by
  intro ch u hu v hv hau hav heq
  rw [h.cfg] at hu hv
  rw [hnote, hnote] at heq
  exact hs ch u hu v hv (h.active _ hu hau) (h.active _ hv hav) heq

/-- What changes envelopes only keeps the invariants when it leaves the envelopes in range. -/
theorem State.EnvFrame.idleInv {s t : State} (h : s.EnvFrame t) (hs : s.IdleInv)
    (henv : t.EnvelopeInv) : t.IdleInv where
  toCompact := h.compact hs.toCompact
  binding := h.seqFrame.bindingInv
    (fun id => by obtain ⟨e, he⟩ := h.voice id; rw [he]) hs.binding
  envelope := henv
  idle := h.sequencer.trans hs.idle

theorem State.IdleInv.release {s : State} (h : s.IdleInv) (id : VoiceId) :
    (s.release id).IdleInv := by
  refine (State.EnvFrame.setEnv s id _).idleInv h fun ch v hv => ?_
  by_cases hid : (⟨ch, v⟩ : VoiceId) = id
  · subst hid
    rw [State.voice_setEnv_self h.shape hv]
    exact Envelope.release_inRange _ _
  · rw [State.voice_setEnv_ne s hid]
    exact h.envelope ch v hv

/-- A loop over the registry keeps the invariants when its update of an envelope keeps the range (R38). -/
theorem TurnsBy.loop_idleInv {α : Type} {st : α → State}
    {upd : Envelope → EnvParams → Envelope} {turn : α → Nat → α} (h : TurnsBy st upd turn)
    (hupd : ∀ e p, e.inRange → (upd e p).inRange) {x : α} (hx : (st x).IdleInv) :
    (st ((List.range (st x).numActive).foldl turn x)).IdleInv := by
  have hframe := h.loop_frame x (List.range (st x).numActive)
  obtain ⟨hactive, hinactive, -⟩ := h.loop_compact hx.toCompact
  refine hframe.idleInv hx fun ch v hv => ?_
  rw [hframe.cfg] at hv
  by_cases hid : (⟨ch, v⟩ : VoiceId) ∈ (st x).activeIds
  · rw [hactive _ hid]
    exact hupd _ _ (hx.envelope ch v hv)
  · rw [hinactive _ hid]
    exact hx.envelope ch v hv

theorem Envelope.releaseIfSounding_inRange (e : Envelope) (p : EnvParams) (h : e.inRange) :
    (e.releaseIfSounding p).inRange := by
  rw [Envelope.releaseIfSounding]
  split
  · exact e.release_inRange p
  · exact h

theorem State.IdleInv.releaseAllPass {s : State} (h : s.IdleInv) : s.releaseAllPass.1.IdleInv :=
  releaseSlot_turnsBy.loop_idleInv Envelope.releaseIfSounding_inRange (x := (s, 0)) h

theorem State.IdleInv.frame {s : State} (h : s.IdleInv) (f : Nat) : (s.frame f).IdleInv :=
  State.IdleInv.emit (advanceSlot_turnsBy.loop_idleInv (fun _ p => Envelope.next_inRange p) h) _

theorem State.IdleInv.cleanupPass {s : State} (h : s.IdleInv) : s.cleanupPass.1.IdleInv := by
  have hframe := State.IdxFrame.cleanupPass s
  refine ⟨h.cleanupPass_compact.1, h.cleanupPass_seqFrame.bindingInv (fun id => ?_) h.binding,
    fun ch v hv => ?_, hframe.sequencer.trans h.idle⟩
  · obtain ⟨k, hk⟩ := hframe.voice id
    rw [hk]
  · obtain ⟨k, hk⟩ := hframe.voice ⟨ch, v⟩
    rw [hk]
    exact h.envelope ch v (hframe.cfg ▸ hv)

theorem State.IdleInv.blockEnd {s : State} (h : s.IdleInv) : s.blockEnd.IdleInv :=
  foldl_keeps (p := State.IdleInv) _ _ h.cleanupPass fun _ f _ ht => ht.frame f

/-! ### A voice struck -/

/-- The FREE path gives an inactive voice the first empty slot, which keeps R35 and R36 (R143). -/
theorem State.Compact.takeSlot {s : State} (h : s.Compact) {id : VoiceId} (hv : s.isVoice id)
    (hn : s.numActive < s.cfg.C) (hfree : (s.voice id).idx = none) : (s.takeSlot id).Compact := by
  have hself := State.slot_takeSlot_self h.shape hn id
  refine State.Compact.mk' (h.shape.takeSlot id) hn (fun k hk => ?_) (fun k hk => ?_)
    fun x hx k => ?_
  · obtain hlt | rfl := Nat.lt_succ_iff_lt_or_eq.1 hk
    · obtain ⟨x, hslot, hxv, -⟩ := h.slot_active hlt
      exact ⟨x, (s.slot_takeSlot_ne hlt.ne id).trans hslot, hxv⟩
    · exact ⟨id, hself, hv⟩
  · have hlt : s.numActive < k := hk
    rw [s.slot_takeSlot_ne hlt.ne', h.slot_inactive hlt.le]
  · have hold : (s.voice x).idx = some k ↔ s.slot k = some x := h.idx_iff hx
    by_cases hxid : x = id <;> by_cases hk : k = s.numActive
    · subst hxid hk
      simp [State.voice_takeSlot_self h.shape hv, hself]
    · subst hxid
      simpa [State.voice_takeSlot_self h.shape hv, s.slot_takeSlot_ne hk, hfree, Ne.symm hk]
        using hold
    · subst hk
      simpa [s.voice_takeSlot_ne hxid, hself, Ne.symm hxid, h.slot_inactive (le_refl _)] using hold
    · rw [s.voice_takeSlot_ne hxid, s.slot_takeSlot_ne hk]
      exact hold

/-- A voice may be given a note that no other voice of its channel is bound to (R37). -/
theorem State.BindingInv.rebind {s t : State} {id : VoiceId} (h : s.BindingInv)
    (hcfg : t.cfg = s.cfg) (hother : ∀ x, x ≠ id → t.voice x = s.voice x)
    (hnote : ∀ v < s.cfg.P, s.bound ⟨id.ch, v⟩ (t.voice id).note = true → v = id.rv) :
    t.BindingInv := by
  have hclash : ∀ ch, ∀ u < s.cfg.P, (⟨ch, u⟩ : VoiceId) ≠ id → t.active ⟨ch, u⟩ = true →
      ch = id.ch → (t.voice ⟨ch, u⟩).note ≠ (t.voice id).note := by
    rintro ch u hu hne hact rfl hsame
    rw [State.active, hother _ hne] at hact
    rw [hother _ hne] at hsame
    have hbound : s.bound ⟨id.ch, u⟩ (t.voice id).note = true := by
      simp [State.bound, State.active, hact, hsame]
    exact hne (VoiceId.ext_iff'.2 ⟨rfl, hnote u hu hbound⟩)
  intro ch u hu v hv hau hav heq
  rw [hcfg] at hu hv
  by_cases hui : (⟨ch, u⟩ : VoiceId) = id <;> by_cases hvi : (⟨ch, v⟩ : VoiceId) = id
  · exact congrArg VoiceId.rv (hui.trans hvi.symm)
  · exact absurd (hui ▸ heq.symm) (hclash ch v hv hvi hav (congrArg VoiceId.ch hui))
  · exact absurd (hvi ▸ heq) (hclash ch u hu hui hau (congrArg VoiceId.ch hvi))
  · rw [hother _ hui, hother _ hvi] at heq
    rw [State.active, hother _ hui] at hau
    rw [State.active, hother _ hvi] at hav
    exact h ch u hu v hv hau hav heq

theorem State.VoicesOnly.refl (s : State) : s.VoicesOnly s := ⟨⟨rfl, rfl, rfl⟩, rfl, rfl, rfl, rfl⟩

/-- NOTEON strikes a voice whose note no other voice has; `t` is `s`, or `s` with the voice's slot taken (R141, R148). -/
theorem State.IdleInv.strike {s t : State} {id : VoiceId} {n : Midi7} (h : s.IdleInv)
    (ht : t.Compact) (hkept : s.VoicesOnly t) (hother : ∀ x, x ≠ id → t.voice x = s.voice x)
    (hv : s.isVoice id) (hnote : ∀ v < s.cfg.P, s.bound ⟨id.ch, v⟩ n = true → v = id.rv)
    (vel : Midi7) : (t.strike id n vel).IdleInv := by
  have hvt : t.isVoice id := by rwa [State.isVoice, hkept.cfg]
  have hself := State.voice_strike_self ht.shape hvt n vel
  have hne : ∀ x, x ≠ id → (t.strike id n vel).voice x = s.voice x := fun x hx =>
    (t.voice_strike_ne hx n vel).trans (hother x hx)
  refine ⟨ht.congr (ht.shape.strike id n vel) rfl rfl (fun _ => rfl) fun x => ?_,
    h.binding.rebind hkept.cfg hne (by rwa [hself]), fun ch v hvP => ?_,
    hkept.sequencer.trans h.idle⟩
  · by_cases hx : x = id
    · rw [hx, hself]
    · rw [t.voice_strike_ne hx]
  · by_cases hx : (⟨ch, v⟩ : VoiceId) = id
    · rw [hx, hself]
      exact Envelope.attack_inRange _ _
    · rw [hne _ hx]
      exact h.envelope ch v (hkept.cfg ▸ hvP)

/-! ### Every command -/

/-- A retriggered voice keeps its note, and on the other paths no voice has the note yet (R142 to R145). -/
theorem State.IdleInv.noteOn {s : State} (h : s.IdleInv) (ch : Chan) (n vel : Midi7) :
    (s.noteOn ch n vel).Inv := by
  have struck : ∀ {v}, v < s.cfg.P → (∀ u < s.cfg.P, s.bound ⟨ch, u⟩ n = true → u = v) →
      (s.strike ⟨ch, v⟩ n vel).IdleInv := fun hv hnote =>
    h.strike h.toCompact (State.VoicesOnly.refl s) (fun _ _ => rfl) hv hnote vel
  have fresh : ∀ {v}, s.boundVoice ch n = none → ∀ u < s.cfg.P, s.bound ⟨ch, u⟩ n = true → u = v :=
    fun hb u hu hbound => by simp [State.boundVoice_eq_none.1 hb u hu] at hbound
  obtain ⟨v, hb, d, hon⟩ | ⟨v, hb, hn, hf, d, hon⟩ | ⟨v, hb, -, -, ho, d, hon⟩ | ⟨-, -, hon⟩ :=
    s.noteOn_cases ch n vel h.shape.one_le_P <;> rw [hon]
  · obtain ⟨hv, hbound, -⟩ := State.boundVoice_eq_some.1 hb
    refine (struck hv fun u hu hbound' => ?_).respond _ _
    simp only [State.bound, Bool.and_eq_true, beq_iff_eq] at hbound hbound'
    obtain ⟨hactive, hsame⟩ := hbound
    obtain ⟨hactive', hsame'⟩ := hbound'
    exact h.binding ch u hu v hv hactive' hactive (hsame'.trans hsame.symm)
  · obtain ⟨hv, hinactive, -⟩ := State.freeVoice_eq_some.1 hf
    have hfree : (s.voice ⟨ch, v⟩).idx = none := by simpa [State.active] using hinactive
    exact (h.strike (h.takeSlot hv hn hfree) (.takeSlot s _) (fun _ => s.voice_takeSlot_ne) hv
      (fresh hb) vel).respond _ _
  · obtain ⟨hv, -⟩ := State.oldestVoice_eq_some.1 ho
    exact (struck hv (fresh hb)).respond _ _
  · exact h.respond _ _

theorem State.IdleInv.noteOff {s : State} (h : s.IdleInv) (ch : Chan) (n : Midi7) :
    (s.noteOff ch n).Inv := by
  obtain ⟨v, -, d, hoff⟩ | ⟨-, hoff⟩ := s.noteOff_cases ch n <;> rw [hoff]
  · exact (h.release _).respond _ _
  · exact h.respond _ _

theorem execNoteon_inv {ch : Chan} {n vel : Midi7} {s t : State} (hs : s.IdleInv)
    (h : execNoteon ch n vel s = .next t) : t.Inv := by
  obtain rfl := next_inj h
  split
  · exact hs.noteOff ch n
  · exact hs.noteOn ch n vel

theorem execVoiceoff_inv {ch : Chan} {rv : BitVec 8} {s t : State} (hs : s.IdleInv)
    (h : execVoiceoff ch rv s = .next t) : t.Inv := by
  obtain rfl := next_inj h
  dsimp only
  split
  · exact hs.respond _ _
  · split
    · exact (hs.release _).respond _ _
    · exact hs.respond _ _

theorem Sequencer.matches_rendering {f : BitVec 16} {i : BitVec 8} {F : Nat} {q : List OutWord} :
    (Sequencer.rendering f i).matches F q = true ↔
      f.toNat + feCount q = F ∧ q.getLast?.any isFE = true := by
  simp [Sequencer.matches]

/-- Where the words of all F frames wait, the block is in its frame 0 (R32, R172). -/
theorem Sequencer.matches_inBlock {q : List OutWord} {F : Nat} (hcount : feCount q = F)
    (hlast : q.getLast?.any isFE = true) (n : Nat) :
    (Sequencer.inBlock 0#16 q n).matches F q = true := by
  cases q with
  | nil => rfl
  | cons w ws => exact Sequencer.matches_rendering.2 ⟨(Nat.zero_add _).trans hcount, hlast⟩

/-- The block's last word ends its last frame (R172). -/
theorem frames_getLast?_isFE (s : State) {F : Nat} (hF : 1 ≤ F) :
    (((List.range F).foldl State.frame s).outQ.getLast?).any isFE = true := by
  obtain ⟨k, rfl⟩ := Nat.exists_eq_add_of_le' hF
  simp [List.range_succ, State.frame_outQ, isFE_feWord]

/-- RENDER leaves the sequencer in frame 0, and the words of F frames waiting (R172). -/
theorem execRender_inv {s t : State} (hs : s.Inv) (hq : s.outQ = [])
    (h : exec .render s = .next t) : t.Inv := by
  have hcount : feCount t.outQ = s.cfg.F := (renderWordCounts s t hs hq h).1
  have hcfg : t.cfg = s.cfg := (execRender_commandFrame h).cfg
  obtain rfl := next_inj ((exec_render s).symm.trans h)
  have hidle := hs.idleInv hq
  have hend := hidle.blockEnd
  obtain ⟨-, -, hF, -⟩ := hidle.cleanupPass.shape.1
  exact ⟨hend.shape, hend.registry, hend.index, hend.binding, hend.envelope, fun _ => rfl,
    Sequencer.matches_inBlock (hcount.trans (congrArg Config.F hcfg.symm))
      (frames_getLast?_isFE s.cleanupPass.1 hF) _⟩

/-- Every command that starts with no word waiting keeps the invariants. -/
theorem exec_inv {i : Instr} {s t : State} (hs : s.Inv) (hq : s.outQ = [])
    (h : exec i s = .next t) : t.Inv := by
  have hidle := hs.idleInv hq
  cases i with
  | nop => exact next_inj h ▸ hidle.respond _ _
  | noteon ch n vel => exact execNoteon_inv hidle h
  | noteoff ch n => exact next_inj h ▸ hidle.noteOff ch n
  | voiceoff ch rv => exact execVoiceoff_inv hidle h
  | releaseall => exact next_inj h ▸ hidle.releaseAllPass.respond _ _
  | cleanup => exact next_inj h ▸ hidle.cleanupPass.respond _ _
  | advance => exact next_inj h ▸ (hidle.frame 0).respond _ _
  | render => exact execRender_inv hs hq h
  | seta ch val => exact next_inj h ▸ (hidle.setParam ch _).respond _ _
  | setd ch val => exact next_inj h ▸ (hidle.setParam ch _).respond _ _
  | sets ch val => exact next_inj h ▸ (hidle.setParam ch _).respond _ _
  | setr ch val => exact next_inj h ▸ (hidle.setParam ch _).respond _ _
  | regread addr => exact next_inj ((exec_regread s addr).symm.trans h) ▸ hidle.respond _ _

/-! ### The ports -/

/-- An accepted FE record leaves one frame fewer to end, a VF record as many, and the block's last word stays last (R172). -/
theorem Sequencer.matches_afterWord {q : Sequencer} {F : Nat} {w : OutWord} {ws : List OutWord}
    (hF : F ≤ 65535) (h : q.matches F (w :: ws) = true) (n : Nat) :
    (q.afterWord w ws n).matches F ws = true := by
  cases q with
  | idle => rfl
  | rendering f i =>
    cases ws with
    | nil => rfl
    | cons v vs =>
      obtain ⟨hcount, hlast⟩ := Sequencer.matches_rendering.1 h
      refine Sequencer.matches_rendering.2 ⟨?_, hlast⟩
      rw [feCount, List.countP_cons, ← feCount] at hcount
      cases hw : isFE w with
      | true =>
        simp only [hw, if_true] at hcount ⊢
        have hsucc : (f + 1#16).toNat = f.toNat + 1 :=
          BitVec.toNat_add_of_lt (by simp only [BitVec.toNat_ofNat]; omega)
        omega
      | false => simpa [hw] using hcount

theorem State.Inv.handWord {s : State} (h : s.Inv) {w : OutWord} {ws : List OutWord}
    (hq : s.outQ = w :: ws) : (s.handWord w ws).Inv := by
  obtain ⟨hresp, hmatch⟩ := h.ports
  obtain ⟨-, -, -, hF⟩ := h.shape.1
  rw [hq] at hresp hmatch
  exact ⟨h.shape, h.registry, h.index, h.binding, h.envelope, fun _ => hresp (List.cons_ne_nil w ws),
    Sequencer.matches_afterWord hF hmatch _⟩

theorem State.Inv.handResponse {s : State} (h : s.Inv) (hq : s.outQ = []) (r : Response) :
    (s.handResponse r).Inv :=
  ⟨h.shape, h.registry, h.index, h.binding, h.envelope, fun hne => absurd hq hne, h.ports.2⟩

/-! ### Every step -/

/-- The invariants do not look at what the outside will present or has accepted. -/
theorem State.Inv.with_inputs_trace {s : State} (h : s.Inv) (inputs : List PortInput)
    (trace : List Event) : ({ s with inputs := inputs, trace := trace } : State).Inv :=
  ⟨h.shape, h.registry, h.index, h.binding, h.envelope, h.ports⟩

theorem look_inv {p : PortInput} {s t : State} (hs : s.Inv) (h : look p s = .next t) : t.Inv := by
  obtain ⟨-, rfl⟩ | rfl | ⟨w, ws, hq, -, rfl⟩ | ⟨r, hq, -, -, rfl⟩ | ⟨w, i, -, hready, -, hexec⟩ |
    ⟨w, e, -, hready, -, rfl⟩ := look_cases h
  · exact (State.inv_resetWith hs.shape.1).with_inputs_trace _ _
  · exact hs
  · exact hs.handWord hq
  · exact hs.handResponse hq r
  · exact exec_inv hs (State.ready_iff.1 hready).1 hexec
  · exact (hs.idleInv (State.ready_iff.1 hready).1).respond _ _

/-- Settles O55: a look resets, hands out a word or a response, or runs a command, and each keeps the invariants. -/
theorem everyStepKeepsTheInvariants : Obligations.EveryStepKeepsTheInvariants := by
  intro s t hinv h
  obtain ⟨rfl, -⟩ | ⟨p, rest, -, hlook⟩ := step_cases h
  · exact hinv
  · exact look_inv (hinv.with_inputs_trace rest s.trace) hlook

end Sys2Proof.Machine
